-- ==== Sys2Proof/Word.lean ====
section
/-! DEFINITION. The word types of the SD/SPI block (00_scope.md R10): all values are unsigned bit vectors. -/

namespace Sys2Proof

/-- A byte: 8 bits (R10). -/
abbrev Byte := BitVec 8

/-- A 16-bit register or host address. -/
abbrev Half := BitVec 16

/-- A 32-bit register value: a command argument or a sector number. -/
abbrev Word := BitVec 32

end Sys2Proof
end

