-- ==== Sys2Proof/Config.lean ====
section
/-! DEFINITION. The vocabulary of the world outside the block (bus events, host and environment actions), the parameters
of 00_scope.md R8 with the spec's defaults, and the values the spec leaves OPEN, as constants with no body. -/

namespace Sys2Proof

/-- One event of the bus history (00_scope.md R13, 10_state.md R45). -/
inductive BusEvent where
  /-- a chip-select primitive: the line was driven to this logical state -/
  | cs (v : Bool)
  /-- one `Exchange`: chip select and clock select at that step, the byte sent, the byte received -/
  | xfer (cs clk : Bool) (mosi miso : Byte)
  deriving DecidableEq, Repr, Inhabited

/-- The width of a host access (10_state.md R21): 8, 16 or 32 bits. -/
inductive Width where
  | b1 | b2 | b4
  deriving DecidableEq, Repr, Inhabited

/-- A range of host byte addresses, both ends included: `HostMemOK` is given as a list of them. -/
structure Region where
  lo : Nat
  hi : Nat
  deriving DecidableEq, Repr, Inhabited

/-- One atomic action of a run (70_reset_and_hazards.md R277); the order is the environment's choice
(43_timer.md R214, 60_exceptions.md R239). The accesses to host memory and the poll are the model's additions to R277's
list (log entries 17, 20). -/
inductive Action where
  /-- the engine takes its next step; while the sequencer is Idle it has none and nothing changes -/
  | engine
  /-- one pulse on the tick input (43_timer.md R211) -/
  | tick
  /-- a host store of `v` to the register block at offset `off` (30_encoding.md R95, `st<width> +<offset> <value>`) -/
  | store (w : Width) (off : BitVec 5) (v : Word)
  /-- a host load from the register block at offset `off` (R95, `ld<width> +<offset>`) -/
  | load (w : Width) (off : BitVec 5)
  /-- the host stores a byte into host memory; the spec gives no width for such an access, and one byte at a time is the
  model's choice (DESIGN CHOICE, log entry 20) -/
  | memStore (a : Nat) (v : Byte)
  /-- the host loads a byte of host memory, one at a time as well (DESIGN CHOICE, log entry 20) -/
  | memLoad (a : Nat)
  /-- the polling loop of the `op` pseudo-instruction (R96): read STAT, repeat while BUSY = 1 -/
  | poll
  /-- reset, between engine steps (70_reset_and_hazards.md R260, R262) -/
  | reset
  deriving DecidableEq, Repr, Inhabited

/-! ### The parameters of the model -/

/-- The parameters of 00_scope.md R8 with their defaults. A model instance may override any of them (R9,
93_implementation_defined.md I14): a state holds its instance's, and no step changes them (log entries 4, 16). CardOracle
is Config.cardOracle; TICK_PERIOD is timing only, and no rule depends on it. -/
structure Params where
  /-- SECTOR_SIZE: payload bytes of a data block -/
  sectorSize : Nat := 512
  /-- FILLER: the byte sent to clock a byte in -/
  filler : Byte := 0xFF
  /-- RESP_POLL: exchanges a response poll makes at most (41_command.md R132) -/
  respPoll : Nat := 10
  /-- TOKEN_SINGLE, TOKEN_MULTI, TOKEN_STOP: the three written tokens (30_encoding.md R90) -/
  tokenSingle : Byte := 0xFE
  tokenMulti : Byte := 0xFC
  tokenStop : Byte := 0xFD
  /-- READ_TOKEN: opens each block the card sends (R90, D15) -/
  readToken : Byte := 0xFE
  /-- DRESP_OK and DRESP_MASK: an accepted data response (R92) -/
  drespOk : Byte := 0x05
  drespMask : Byte := 0x0F
  /-- IDLE_R1: the idle code, the largest R1 that accepts the app-command prefix (R88, 41_command.md R134, R139) -/
  idleR1 : Byte := 0x01
  /-- TRAIN_BYTES: filler bytes of CLKTRAIN (40_transport.md R119) -/
  trainBytes : Nat := 10
  /-- OPCODE_PREFIX: bits 7:6 of a frame's first byte (R84) -/
  opcodePrefix : Byte := 0x40
  /-- CKSUM_CMD0, CKSUM_CMD8, FILLER_CHECKSUM: the checksum bytes (R86) -/
  cksumCmd0 : Byte := 0x95
  cksumCmd8 : Byte := 0x87
  fillerChecksum : Byte := 0x01
  /-- CRC_FILL: both CRC bytes of a written block (R91) -/
  crcFill : Byte := 0xFF
  /-- STOP_BUDGET: response bytes of the stop variant (41_command.md R133) -/
  stopBudget : Nat := 10
  /-- SHORT_BUDGET and LONG_BUDGET, in ticks (43_timer.md R210); the engine loads only the short one -/
  shortBudget : Nat := 50
  longBudget : Nat := 100
  /-- TIMER_WIDTH: bits of the two counters, at most the 8 of their registers (R210, 10_state.md R35) -/
  timerWidth : Nat := 8
  /-- DESELECT_TRAILER: filler bytes after a deselect (40_transport.md R111) -/
  deselectTrailer : Nat := 0
  /-- HOST_ADDR_WIDTH: host byte addresses lie below 2^HOST_ADDR_WIDTH (20_memory.md R60, R64) -/
  hostAddrWidth : Nat := 16
  /-- SDSPI_BASE: the host address of the register block (OPEN, 10_state.md R20) -/
  sdspiBase : Nat
  /-- HostMemOK, as address ranges: which host bytes the block may access (OPEN, 20_memory.md R64) -/
  hostMemory : List Region
  deriving DecidableEq, Repr

/-- The register block covers this many byte offsets (10_state.md R20). -/
abbrev Config.blockSize : Nat := 32

/-! ### OPEN values: no body, so nothing can be proved of them -/

/-- SDSPI_BASE (R8, P1). Log entry 4. -/
opaque Config.sdspiBase : Nat

/-- HostMemOK (R8, P2), as address ranges. Log entry 4. -/
opaque Config.hostMemory : List Region

/-- The hardware's own instance: every default of R8, the OPEN ones uninterpreted. -/
def Config.params : Params where
  sdspiBase := Config.sdspiBase
  hostMemory := Config.hostMemory

/-- CardOracle (00_scope.md R16, P3): the byte the card sends after the given bus events, once the card script of the
state is used up. Log entry 2. -/
opaque Config.cardOracle : List BusEvent → Byte

/-- The environment's choice of the next action (43_timer.md R214, I12), once the actions pending in the state are used
up; the argument counts the choices taken. Log entry 1. -/
opaque Config.environment : Nat → Action

end Sys2Proof
end

