-- ==== Sys2Proof/Syntax.lean ====
section
/-! DEFINITION. The instructions: one constructor per mnemonic of spec/opcode_table.json (log entry 5). -/

namespace Sys2Proof

/-- The rows of the opcode table: host operation codes (30_encoding.md R81, R82), wire command frames (R83, R94),
tokens (R90), the accepted data response (R92) and the valid R1 response (R88). -/
inductive Instr where
  -- OPR8: host operations
  | nop
  | select
  | deselect
  | xmit
  | rcvr
  | clktrain
  | waitready
  | sendcmd
  | sendacmd
  | rcvrblk
  | xmitblk
  | read
  | write
  /-- a reserved operation code (R82), with the code -/
  | reserved (code : Byte)
  -- SDCMD48: wire command frames, with the 32-bit argument
  | goIdle (arg : Word)
  | opCondMmc (arg : Word)
  | sendIfCond (arg : Word)
  | sendCsd (arg : Word)
  | sendCid (arg : Word)
  | stopTransmission (arg : Word)
  | setBlocklen (arg : Word)
  | readSingleBlock (arg : Word)
  | readMultipleBlock (arg : Word)
  | acmdSetBlockCount (arg : Word)
  | writeBlock (arg : Word)
  | writeMultipleBlock (arg : Word)
  | acmdOpCond (arg : Word)
  | appCmd (arg : Word)
  | readOcr (arg : Word)
  /-- any other index (41_command.md R165) -/
  | sdcmdOther (idx : BitVec 6) (arg : Word)
  -- TOKEN8
  | tokenStartSingle
  | tokenStartMulti
  | tokenStop
  | tokenReadStart
  -- DRESP8: the response byte, whose bits outside the mask are free
  | dataResponseAccepted (response : Byte)
  -- R1_8: the status bits 6:0
  | r1Valid (status : BitVec 7)
  deriving DecidableEq, Repr, Inhabited

/-- Where a row's bytes stand: the table gives one byte value to rows of several formats, and the place tells them
apart (30_encoding.md, opening paragraph). -/
inductive Space where
  | opr          -- a byte the host stores to OPR
  | frame        -- six bytes the block sends
  | token        -- a byte the block sends to open or close a block
  | readToken    -- the byte the card sends to open a block
  | dataResponse -- the byte the card sends after a written block
  | r1           -- a byte the card sends in a response poll
  deriving DecidableEq, Repr

/-- The place of each row. -/
def Instr.space : Instr → Space
  | .nop | .select | .deselect | .xmit | .rcvr | .clktrain | .waitready | .sendcmd | .sendacmd
  | .rcvrblk | .xmitblk | .read | .write | .reserved _ => .opr
  | .goIdle _ | .opCondMmc _ | .sendIfCond _ | .sendCsd _ | .sendCid _ | .stopTransmission _
  | .setBlocklen _ | .readSingleBlock _ | .readMultipleBlock _ | .acmdSetBlockCount _
  | .writeBlock _ | .writeMultipleBlock _ | .acmdOpCond _ | .appCmd _ | .readOcr _
  | .sdcmdOther _ _ => .frame
  | .tokenStartSingle | .tokenStartMulti | .tokenStop => .token
  | .tokenReadStart => .readToken
  | .dataResponseAccepted _ => .dataResponse
  | .r1Valid _ => .r1

/-- Index and argument of a wire command row (30_encoding.md R94). -/
def Instr.frame? : Instr → Option (BitVec 6 × Word)
  | .goIdle a => some (0, a)
  | .opCondMmc a => some (1, a)
  | .sendIfCond a => some (8, a)
  | .sendCsd a => some (9, a)
  | .sendCid a => some (10, a)
  | .stopTransmission a => some (12, a)
  | .setBlocklen a => some (16, a)
  | .readSingleBlock a => some (17, a)
  | .readMultipleBlock a => some (18, a)
  | .acmdSetBlockCount a => some (23, a)
  | .writeBlock a => some (24, a)
  | .writeMultipleBlock a => some (25, a)
  | .acmdOpCond a => some (41, a)
  | .appCmd a => some (55, a)
  | .readOcr a => some (58, a)
  | .sdcmdOther i a => some (i, a)
  | .nop | .select | .deselect | .xmit | .rcvr | .clktrain | .waitready | .sendcmd | .sendacmd
  | .rcvrblk | .xmitblk | .read | .write | .reserved _ | .tokenStartSingle | .tokenStartMulti
  | .tokenStop | .tokenReadStart | .dataResponseAccepted _ | .r1Valid _ => none

end Sys2Proof
end

