-- ==== Sys2Proof/WellFormed.lean ====
section
/-! DEFINITION. Which instructions are well formed: a catch-all row holds no value that a named row of the table has, and
a data response is an accepted one. -/

namespace Sys2Proof

/-- The operation codes with a row of their own (30_encoding.md R81). -/
def assignedCodes : List Byte :=
  [0x00, 0x01, 0x02, 0x03, 0x04, 0x05, 0x10, 0x11, 0x12, 0x20, 0x21, 0x30, 0x31]

/-- The command indices with a row of their own (30_encoding.md R94). -/
def namedIndices : List (BitVec 6) :=
  [0, 1, 8, 9, 10, 12, 16, 17, 18, 23, 24, 25, 41, 55, 58]

/-- RESERVED takes an unassigned code (R82), SDCMD_OTHER an unnamed index (R165), DATA_RESPONSE_ACCEPTED a byte whose
masked value is DRESP_OK (R92); every other row admits all its operands. -/
def Instr.wf (p : Params) : Instr → Bool
  | .reserved code => !assignedCodes.contains code
  | .sdcmdOther idx _ => !namedIndices.contains idx
  | .dataResponseAccepted response => response &&& p.drespMask == p.drespOk
  | .nop | .select | .deselect | .xmit | .rcvr | .clktrain | .waitready | .sendcmd | .sendacmd
  | .rcvrblk | .xmitblk | .read | .write
  | .goIdle _ | .opCondMmc _ | .sendIfCond _ | .sendCsd _ | .sendCid _ | .stopTransmission _
  | .setBlocklen _ | .readSingleBlock _ | .readMultipleBlock _ | .acmdSetBlockCount _
  | .writeBlock _ | .writeMultipleBlock _ | .acmdOpCond _ | .appCmd _ | .readOcr _
  | .tokenStartSingle | .tokenStartMulti | .tokenStop | .tokenReadStart
  | .r1Valid _ => true

end Sys2Proof
end

