-- ==== Sys2Proof/Decode.lean ====
section
/-! DEFINITION. Decoding by place (30_encoding.md), the encoder, and the table's words. Frame bytes and the checksum
(R83 to R86) are defined here because both the encoder and the engine's FrameOut use them. -/

namespace Sys2Proof

/-! ### Frame bytes -/

/-- The checksum byte depends on the index alone (R86). -/
def checksum (p : Params) (idx : BitVec 6) : Byte :=
  if idx = 0 then p.cksumCmd0
  else if idx = 8 then p.cksumCmd8
  else p.fillerChecksum

/-- The opcode byte `OPCODE_PREFIX | zext_8(idx)` (R84). -/
def opcodeByte (p : Params) (idx : BitVec 6) : Byte :=
  p.opcodePrefix ||| idx.zeroExtend 8

/-- Byte `n` of the command frame, in bus order (R83, R85): opcode byte, argument most significant byte first, checksum. -/
def frameByte (p : Params) (idx : BitVec 6) (arg : Word) : Nat → Byte
  | 0 => opcodeByte p idx
  | 1 => arg.extractLsb' 24 8
  | 2 => arg.extractLsb' 16 8
  | 3 => arg.extractLsb' 8 8
  | 4 => arg.extractLsb' 0 8
  | _ => checksum p idx

/-- The six bytes of a frame (R83). -/
def frameBytes (p : Params) (idx : BitVec 6) (arg : Word) : List Byte :=
  (List.range 6).map (frameByte p idx arg)

/-! ### Tests on received bytes -/

/-- An R1 response is valid when bit 7 is 0 (R88). -/
def r1IsValid (r : Byte) : Bool := !r.getLsbD 7

/-- A data response is accepted when its masked value is DRESP_OK (R92). -/
def responseAccepted (p : Params) (d : Byte) : Bool := d &&& p.drespMask == p.drespOk

/-! ### Decoding -/

/-- Why bytes are no row of the table in their place. -/
inductive Reject where
  /-- not the number of bytes a row of this place has -/
  | length
  /-- the first byte of a frame is no opcode byte: it does not begin with the bits 01 -/
  | notACommand
  /-- the last byte of a frame is not the checksum of its index -/
  | badChecksum
  /-- none of the tokens of the table -/
  | notAToken
  /-- a data response that is not accepted -/
  | responseRejected
  /-- a response byte with bit 7 set -/
  | responseInvalid
  deriving DecidableEq, Repr

/-- The operation an OPR value selects; total (30_encoding.md R81, R82). -/
def decodeOpr (c : Byte) : Instr :=
  if c = 0x00 then .nop
  else if c = 0x01 then .select
  else if c = 0x02 then .deselect
  else if c = 0x03 then .xmit
  else if c = 0x04 then .rcvr
  else if c = 0x05 then .clktrain
  else if c = 0x10 then .waitready
  else if c = 0x11 then .sendcmd
  else if c = 0x12 then .sendacmd
  else if c = 0x20 then .rcvrblk
  else if c = 0x21 then .xmitblk
  else if c = 0x30 then .read
  else if c = 0x31 then .write
  else .reserved c

/-- The wire command row of an index (30_encoding.md R94, 41_command.md R165). A frame of index 23 or 41 is read as the row
of that index wherever it stands, though only a preceding index-55 frame makes it an application command (R93): the frame
alone does not say (DESIGN CHOICE, log entry 22). -/
def commandRow (idx : BitVec 6) (arg : Word) : Instr :=
  if idx = 0 then .goIdle arg
  else if idx = 1 then .opCondMmc arg
  else if idx = 8 then .sendIfCond arg
  else if idx = 9 then .sendCsd arg
  else if idx = 10 then .sendCid arg
  else if idx = 12 then .stopTransmission arg
  else if idx = 16 then .setBlocklen arg
  else if idx = 17 then .readSingleBlock arg
  else if idx = 18 then .readMultipleBlock arg
  else if idx = 23 then .acmdSetBlockCount arg
  else if idx = 24 then .writeBlock arg
  else if idx = 25 then .writeMultipleBlock arg
  else if idx = 41 then .acmdOpCond arg
  else if idx = 55 then .appCmd arg
  else if idx = 58 then .readOcr arg
  else .sdcmdOther idx arg

/-- A frame of six bytes in bus order (R83): its first byte must be an opcode byte (R84), its last the checksum (R86). -/
def decodeFrame (p : Params) (b0 b1 b2 b3 b4 b5 : Byte) : Except Reject Instr :=
  let idx := b0.extractLsb' 0 6
  if b0 ≠ opcodeByte p idx then .error .notACommand
  else if b5 ≠ checksum p idx then .error .badChecksum
  else .ok (commandRow idx (b1 ++ b2 ++ b3 ++ b4))

/-- A token the block sends (R90). -/
def decodeToken (p : Params) (t : Byte) : Except Reject Instr :=
  if t = p.tokenSingle then .ok .tokenStartSingle
  else if t = p.tokenMulti then .ok .tokenStartMulti
  else if t = p.tokenStop then .ok .tokenStop
  else .error .notAToken

/-- The token the card sends (R90). -/
def decodeReadToken (p : Params) (t : Byte) : Except Reject Instr :=
  if t = p.readToken then .ok .tokenReadStart else .error .notAToken

/-- The data response (R92). -/
def decodeResponse (p : Params) (d : Byte) : Except Reject Instr :=
  if responseAccepted p d then .ok (.dataResponseAccepted d) else .error .responseRejected

/-- The R1 response (R88). -/
def decodeR1 (r : Byte) : Except Reject Instr :=
  if r1IsValid r then .ok (.r1Valid (r.extractLsb' 0 7)) else .error .responseInvalid

/-- The decoder of an instance: total on any bytes in any place. -/
def decode (p : Params) : Space → List Byte → Except Reject Instr
  | .opr, [c] => .ok (decodeOpr c)
  | .frame, [b0, b1, b2, b3, b4, b5] => decodeFrame p b0 b1 b2 b3 b4 b5
  | .token, [t] => decodeToken p t
  | .readToken, [t] => decodeReadToken p t
  | .dataResponse, [d] => decodeResponse p d
  | .r1, [r] => decodeR1 r
  | .opr, _ | .frame, _ | .token, _ | .readToken, _ | .dataResponse, _ | .r1, _ => .error .length

/-! ### Encoding -/

/-- The bytes of a row in an instance, in its place, in bus order (R81, R83, R90, R92, R88). -/
def encode (p : Params) : Instr → List Byte
  | .nop => [0x00]
  | .select => [0x01]
  | .deselect => [0x02]
  | .xmit => [0x03]
  | .rcvr => [0x04]
  | .clktrain => [0x05]
  | .waitready => [0x10]
  | .sendcmd => [0x11]
  | .sendacmd => [0x12]
  | .rcvrblk => [0x20]
  | .xmitblk => [0x21]
  | .read => [0x30]
  | .write => [0x31]
  | .reserved code => [code]
  | .goIdle a => frameBytes p 0 a
  | .opCondMmc a => frameBytes p 1 a
  | .sendIfCond a => frameBytes p 8 a
  | .sendCsd a => frameBytes p 9 a
  | .sendCid a => frameBytes p 10 a
  | .stopTransmission a => frameBytes p 12 a
  | .setBlocklen a => frameBytes p 16 a
  | .readSingleBlock a => frameBytes p 17 a
  | .readMultipleBlock a => frameBytes p 18 a
  | .acmdSetBlockCount a => frameBytes p 23 a
  | .writeBlock a => frameBytes p 24 a
  | .writeMultipleBlock a => frameBytes p 25 a
  | .acmdOpCond a => frameBytes p 41 a
  | .appCmd a => frameBytes p 55 a
  | .readOcr a => frameBytes p 58 a
  | .sdcmdOther idx a => frameBytes p idx a
  | .tokenStartSingle => [p.tokenSingle]
  | .tokenStartMulti => [p.tokenMulti]
  | .tokenStop => [p.tokenStop]
  | .tokenReadStart => [p.readToken]
  | .dataResponseAccepted response => [response]
  | .r1Valid status => [0#1 ++ status]

/-! ### The words of spec/opcode_table.json -/

/-- An 8-bit word of the table with no place given: an assigned operation code first, then a written token, then a
reserved operation code (DESIGN CHOICE, log entry 6: the table gives such a word to several rows). -/
def decodeTableByte (b : Byte) : Instr :=
  match decodeOpr b with
  | .reserved code =>
    match decodeToken Config.params b with
    | .ok t => t
    | .error _ => .reserved code
  | i => i

/-- Byte `n` in bus order of a 48-bit word of the table: R83 numbers the first byte 47:40 (log entry 18). -/
def tableFrameByte (w n : Nat) : Byte := BitVec.ofNat 8 (w / 2 ^ (40 - 8 * n))

/-- The bytes of a 48-bit word of the table, in bus order. -/
def tableFrameBytes (w : Nat) : List Byte := (List.range 6).map (tableFrameByte w)

/-- The instruction the hardware's own decoder reads from a word of the table of `nbits` bits. -/
def decodeTableWord (nbits w : Nat) : Option Instr :=
  if nbits = 8 then some (decodeTableByte (BitVec.ofNat 8 w))
  else if nbits = 48 then
    match decode Config.params .frame (tableFrameBytes w) with
    | .ok i => some i
    | .error _ => none
  else none

end Sys2Proof
end

