-- ==== Sys2Proof/Machine/State.lean ====
section
/-! DEFINITION. The state of the block as plain data: registers (10_state.md R22), the operation sequencer (R38), the
bus history (R45), host memory, and the world's pending inputs; the reasons a step stops; the state after reset. -/

namespace Sys2Proof.Machine

/-- The result codes (10_state.md R26, 60_exceptions.md R231). -/
inductive Result where
  | ok | error | writeProtected | notReady | parameter
  deriving DecidableEq, Repr

/-! ### Positions: where the sequencer stands inside a sub-sequence, with that sub-sequence's locals

Each constructor names the primitive step that comes NEXT (R38, R39). -/

/-- Inside `WaitReady` (41_command.md R130). -/
inductive WaitPos where
  | load
  | exchange
  /-- sample T_SHORT; `b` is the non-ready byte just received -/
  | sample (b : Byte)
  deriving DecidableEq, Repr

/-- Inside `SendCmd` or `StopCmd` (R132, R133). -/
inductive CmdPos where
  | wait (p : WaitPos)
  /-- send frame byte `n` -/
  | frame (n : Nat)
  /-- response poll, `n` exchanges left -/
  | poll (n : Nat)
  /-- stop variant: `n` exchanges of the budget left, `last` the last non-filler byte so far -/
  | stopPoll (n : Nat) (last : Byte)
  /-- write `r` to R1 and return it -/
  | record (r : Byte)
  deriving DecidableEq, Repr

/-- Inside `RcvrBlock` (42_block_io.md R183). -/
inductive RcvPos where
  | load
  | token
  | sample
  /-- receive payload byte `i` -/
  | payload (i : Nat)
  /-- write payload byte `i`, received as `v`, to host memory -/
  | store (i : Nat) (v : Byte)
  | crc1
  | crc2
  deriving DecidableEq, Repr

/-- Inside `XmitBlock` (R184). -/
inductive XmtPos where
  | wait (p : WaitPos)
  | token
  /-- read payload byte `i` from host memory -/
  | fetch (i : Nat)
  /-- send payload byte `i`, read as `v` -/
  | send (i : Nat) (v : Byte)
  | crc1
  | crc2
  | response
  deriving DecidableEq, Repr

/-! ### Positions inside the operations -/

/-- SELECT (40_transport.md R115). -/
inductive SelectPos where
  | assert | finish
  deriving DecidableEq, Repr

/-- DESELECT (R116); `trailer n`: `n` filler exchanges left. -/
inductive DeselectPos where
  | release | trailer (n : Nat) | finish
  deriving DecidableEq, Repr

/-- XMIT (R117). -/
inductive XmitPos where
  | exchange | finish
  deriving DecidableEq, Repr

/-- RCVR (R118). -/
inductive RcvrPos where
  | exchange | record (b : Byte) | finish
  deriving DecidableEq, Repr

/-- CLKTRAIN (R119); `train n`: `n` filler exchanges left. -/
inductive TrainPos where
  | release | train (n : Nat) | finish
  deriving DecidableEq, Repr

/-- WAITREADY (41_command.md R135). -/
inductive WaitReadyPos where
  | wait (p : WaitPos) | record (b : Byte) | finish (res : Result)
  deriving DecidableEq, Repr

/-- SENDCMD (R136). -/
inductive SendCmdPos where
  | command (p : CmdPos) | finish (res : Result)
  deriving DecidableEq, Repr

/-- SENDACMD (R137): first the app-command prefix, then the command (R134). -/
inductive SendAcmdPos where
  | appPrefix (p : CmdPos) | command (p : CmdPos) | finish (res : Result)
  deriving DecidableEq, Repr

/-- RCVRBLK (42_block_io.md R186). -/
inductive RcvrBlkPos where
  | block (p : RcvPos) | record (ok : Bool) | finish (res : Result)
  deriving DecidableEq, Repr

/-- XMITBLK (R187). -/
inductive XmitBlkPos where
  | block (p : XmtPos) | record (ok : Bool) | finish (res : Result)
  deriving DecidableEq, Repr

/-- READ (R188); `k` counts the blocks received. -/
inductive ReadPos where
  /-- validation, then `CS <- 1` or `x[BLKDONE] <- 0` -/
  | start
  | command (p : CmdPos)
  | block (k : Nat) (p : RcvPos)
  /-- the stop-transmission command of a multi-block read -/
  | stop (k : Nat) (p : CmdPos)
  | release (k : Nat)
  | trailer (k n : Nat)
  | record (k : Nat)
  | finish (res : Result)
  deriving DecidableEq, Repr

/-- WRITE (R189); `k` counts the blocks accepted, `ok` is the pending verdict. -/
inductive WritePos where
  /-- validation, then `CS <- 1` or `x[BLKDONE] <- 0` -/
  | start
  /-- the set-block-count pre-command: its prefix, then the command itself -/
  | appPrefix (p : CmdPos)
  | count (p : CmdPos)
  | command (p : CmdPos)
  | block (k : Nat) (p : XmtPos)
  /-- `XmitStop`: its ready wait, then the stop token -/
  | stopWait (k : Nat) (p : WaitPos)
  | stopToken (k : Nat) (ready : Bool)
  | release (k : Nat) (ok : Bool)
  | trailer (k : Nat) (ok : Bool) (n : Nat)
  | record (k : Nat) (ok : Bool)
  | finish (res : Result)
  deriving DecidableEq, Repr

/-- The operation being run, with its position (R38). NOP and a reserved code have one step, `finish`. -/
inductive Activity where
  | nop
  | select (p : SelectPos)
  | deselect (p : DeselectPos)
  | xmit (p : XmitPos)
  | rcvr (p : RcvrPos)
  | clktrain (p : TrainPos)
  | waitready (p : WaitReadyPos)
  | sendcmd (p : SendCmdPos)
  | sendacmd (p : SendAcmdPos)
  | rcvrblk (p : RcvrBlkPos)
  | xmitblk (p : XmitBlkPos)
  | read (p : ReadPos)
  | write (p : WritePos)
  | reserved
  deriving DecidableEq, Repr

/-- The operation sequencer (R38). -/
inductive Seq where
  | idle
  | running (a : Activity)
  deriving DecidableEq, Repr

/-- The machine. Registers first, under their names of R22. -/
structure State where
  opr : Byte
  /-- bit 0 CSA, bit 1 CLKSEL (R24) -/
  ctrl : Byte
  /-- bit 0 BUSY (R25) -/
  stat : Byte
  result : Byte
  /-- bit 0 NOINIT, bit 1 NODISK, bit 2 PROTECT (R27) -/
  dstatus : Byte
  ctype : Byte
  data : Byte
  r1 : Byte
  cmdidx : Byte
  drv : Byte
  tshort : Byte
  tlong : Byte
  arg : Word
  buf : Half
  cnt : Half
  blkdone : Half
  /-- the operation sequencer (R38) -/
  seq : Seq
  /-- the bus history since reset, oldest event first (R45) -/
  bus : List BusEvent
  /-- the model's own: the events recorded before the last reset (log entry 8) -/
  past : List BusEvent
  /-- host memory: the bytes that are not 0, by rising address (20_memory.md R60; log entry 3) -/
  mem : List Host.Cell
  /-- the parameters of this instance, which no step changes (00_scope.md R8, R9; log entries 4, 16) -/
  params : Params
  /-- the model's own: the bytes the card sends next (70_reset_and_hazards.md R277; log entry 2) -/
  card : List Byte
  /-- the model's own: the environment's pending actions (R277; log entry 1) -/
  env : List Action
  /-- the model's own: how many free environment actions were taken (log entry 1) -/
  turn : Nat
  /-- the model's own: the value the last host load returned (10_state.md R41; log entry 14) -/
  rdata : Word
  deriving DecidableEq, Repr

/-- The model faults of 60_exceptions.md R234, and two of the model's own. -/
inductive Fault where
  /-- a host store to the register block while BUSY = 1 (10_state.md R40); safe: the spec itself stops here -/
  | writeWhileBusy
  /-- a host access at a reserved offset, a wrong width or inside a register (R21); safe: the spec itself stops here -/
  | registerAccess
  /-- a block access to host memory that is not admitted (20_memory.md R64, R67); safe: the spec itself stops here -/
  | hostAddress
  /-- a host access to the running operation's buffer (R70); safe: the spec itself stops here -/
  | bufferRace
  /-- a host access to memory at an address past 2^HOST_ADDR_WIDTH, which host memory does not have (20_memory.md R60; log
  entry 20); safe: it only stops -/
  | noSuchAddress
  /-- `exec` applied to a frame, token or response row where the sequencer is not at that row; no step of the machine
  answers it (log entry 5); safe: it only stops -/
  | outOfPlace
  deriving DecidableEq, Repr

/-- Why an instruction has no meaning. -/
inductive Refusal where
  /-- raised by an arm of `exec` that has no meaning yet; none is left; safe: it only stops -/
  | notModelled (mnemonic : String)
  deriving DecidableEq, Repr

/-- The outcome of a step or a meaning. -/
abbrev Outcome := Host.Outcome State Fault Refusal

/-- The state of an instance after the power-up reset (70_reset_and_hazards.md R260, R261); the model's own fields are
empty. -/
def State.powerUp (p : Params) : State where
  opr := 0x00
  ctrl := 0x00
  stat := 0x00
  result := 0x00
  dstatus := 0x01
  ctype := 0x00
  data := 0x00
  r1 := 0xFF
  cmdidx := 0x00
  drv := 0x00
  tshort := 0x00
  tlong := 0x00
  arg := 0
  buf := 0
  cnt := 0
  blkdone := 0
  seq := .idle
  bus := []
  past := []
  mem := []
  params := p
  card := []
  env := []
  turn := 0
  rdata := 0

/-- The hardware after its power-up reset. -/
def State.reset : State := State.powerUp Config.params

end Sys2Proof.Machine
end

