-- ==== Sys2Proof/Machine/Flags.lean ====
section
/-! DEFINITION. The flags and condition bits of 10_state.md R43, the result codes (R26), and the tests the engine makes
on received bytes (41_command.md R139). The validity of an R1 and the acceptance of a data response stand in Decode. -/

namespace Sys2Proof.Machine

/-- The code of a result (10_state.md R26). -/
def Result.code : Result → Byte
  | .ok => 0x00
  | .error => 0x01
  | .writeProtected => 0x02
  | .notReady => 0x03
  | .parameter => 0x04

/-- Ok or Error. -/
def Result.ofBool (ok : Bool) : Result := if ok then .ok else .error

/-- STAT.BUSY (R25). -/
def State.busy (s : State) : Bool := s.stat.getLsbD 0

/-- CTRL.CSA: the logical state of the chip-select line (R24, R45). -/
def State.csa (s : State) : Bool := s.ctrl.getLsbD 0

/-- CTRL.CLKSEL: false slow, true fast (R24). -/
def State.clksel (s : State) : Bool := s.ctrl.getLsbD 1

/-- DSTATUS.NOINIT (R27). -/
def State.noInit (s : State) : Bool := s.dstatus.getLsbD 0

/-- DSTATUS.NODISK (R27); nothing in the block reads it (R28). -/
def State.noDisk (s : State) : Bool := s.dstatus.getLsbD 1

/-- DSTATUS.PROTECT (R27). -/
def State.protect (s : State) : Bool := s.dstatus.getLsbD 2

/-- Bit 0 of a register written to `v`, its other bits kept. -/
def setBit0 (r : Byte) (v : Bool) : Byte := (r &&& 0xFE) ||| (if v then 0x01 else 0x00)

/-- The result of SENDCMD and SENDACMD (41_command.md R136, R137): Ok when the returned byte has bit 7 clear. -/
def commandResult (r : Byte) : Result := Result.ofBool (r1IsValid r)

/-- The app-command prefix is accepted on an R1 up to IDLE_R1: 0x00 or 0x01 (R134, R139). -/
def prefixAccepted (p : Params) (r : Byte) : Bool := decide (r ≤ p.idleR1)

/-- A data command is accepted only on R1 0x00 (R139). -/
def dataCommandAccepted (r : Byte) : Bool := r == 0x00

end Sys2Proof.Machine
end

