-- ==== Sys2Proof/Machine/Ops.lean ====
section
/-! DEFINITION. The primitives of the engine (00_scope.md R12 to R15, 10_state.md R39), host memory, the tick
(43_timer.md R211) and reset (70_reset_and_hazards.md R260, R262). The block has no exception entry or return
(60_exceptions.md R230, R240, R241): `finish` with a result code stands in for them. -/

namespace Sys2Proof.Machine

/-! ### Host memory: a list of (address, byte), addresses rising, no byte 0 -/

/-- What an unlisted address reads as (DESIGN CHOICE, unsafe, log entry 3). -/
def Memory.blank : Byte := 0x00

/-- The byte at an address. -/
def Memory.read : List Host.Cell → Nat → Byte
  | [], _ => Memory.blank
  | (b, v) :: m, a => if a = b then v else Memory.read m a

/-- A byte written, the list kept in its one form. -/
def Memory.write : List Host.Cell → Nat → Byte → List Host.Cell
  | [], a, v => if v = Memory.blank then [] else [(a, v)]
  | (b, w) :: m, a, v =>
    if a < b then (if v = Memory.blank then (b, w) :: m else (a, v) :: (b, w) :: m)
    else if a = b then (if v = Memory.blank then m else (a, v) :: m)
    else (b, w) :: Memory.write m a v

/-- The form: addresses strictly rise, none lists what it would read as anyway. -/
abbrev Memory.wf (m : List Host.Cell) : Prop :=
  m.Pairwise (fun x y => x.1 < y.1) ∧ ∀ c ∈ m, c.2 ≠ Memory.blank

/-- 2^HOST_ADDR_WIDTH (20_memory.md R60): host byte addresses lie below it. -/
def State.hostSpace (s : State) : Nat := 2 ^ s.params.hostAddrWidth

/-- Host memory has its form, and lists only bytes it has. -/
abbrev State.memoryOk (s : State) : Prop := Memory.wf s.mem ∧ ∀ c ∈ s.mem, c.1 < s.hostSpace

/-- HostMemOK (00_scope.md R8, R12). -/
def State.hostMemOK (s : State) (a : Nat) : Bool :=
  s.params.hostMemory.any fun r => decide (r.lo ≤ a ∧ a ≤ r.hi)

/-- Inside the register block, `[SDSPI_BASE, SDSPI_BASE + 0x1F]` (20_memory.md R67). -/
def State.inRegisterBlock (s : State) (a : Nat) : Bool :=
  decide (s.params.sdspiBase ≤ a ∧ a < s.params.sdspiBase + Config.blockSize)

/-- Whether the block may access host byte `a` (20_memory.md R64, R67). -/
def State.admits (s : State) (a : Nat) : Bool :=
  decide (a < s.hostSpace) && s.hostMemOK a && !s.inRegisterBlock a

/-- `MemRead(a, 1)` (00_scope.md R12). -/
def State.memRead (s : State) (a : Nat) : Except Fault Byte :=
  if s.admits a then .ok (Memory.read s.mem a) else .error .hostAddress

/-- `MemWrite(a, 1, v)` (R12). -/
def State.memWrite (s : State) (a : Nat) (v : Byte) : Except Fault State :=
  if s.admits a then .ok { s with mem := Memory.write s.mem a v } else .error .hostAddress

/-! ### Bus primitives (R13) -/

/-- The byte the card sends on the next `Exchange`: the script's next byte, else a free draw (R16, log entry 2). -/
def State.nextByte (s : State) : Byte :=
  match s.card with
  | b :: _ => b
  | [] => Config.cardOracle (s.past ++ s.bus)

/-- `Exchange(m)`: its event is appended to the bus history; the byte received is `s.nextByte`. -/
def State.exchange (m : Byte) (s : State) : State :=
  { s with
    card := s.card.tail
    bus := s.bus ++ [.xfer s.csa s.clksel m s.nextByte] }

/-- `CS <- v`: CTRL.CSA and a `cs` event, also when the line already has that state (40_transport.md R111). -/
def State.setCs (v : Bool) (s : State) : State :=
  { s with
    ctrl := setBit0 s.ctrl v
    bus := s.bus ++ [.cs v] }

/-! ### Counter primitives (R14) and the tick -/

/-- What a counter of TIMER_WIDTH bits holds of a number (43_timer.md R210; its register has 8 bits). -/
def counterValue (p : Params) (n : Nat) : Byte := BitVec.ofNat 8 (n % 2 ^ p.timerWidth)

/-- What `LoadShort(SHORT_BUDGET)` loads: 50 unless the instance overrides it. -/
def shortLoad (p : Params) : Byte := counterValue p p.shortBudget

/-- `LoadShort(SHORT_BUDGET)`. -/
def State.loadShort (s : State) : State := { s with tshort := shortLoad s.params }

/-- `SampleShort()`. -/
abbrev State.sampleShort (s : State) : Byte := s.tshort

/-- A counter decremented, saturating at 0 (43_timer.md R211). -/
def countDown (c : Byte) : Byte := if c = 0 then 0 else c - 1

/-- One tick: both counters, nothing else (R211). -/
def State.tick (s : State) : State :=
  { s with
    tshort := countDown s.tshort
    tlong := countDown s.tlong }

/-! ### Engine writes, the sequencer, start and finish -/

/-- `x[R1] <- r`. -/
def State.setR1 (r : Byte) (s : State) : State := { s with r1 := r }

/-- `x[DATA] <- b`. -/
def State.setData (b : Byte) (s : State) : State := { s with data := b }

/-- `x[BLKDONE] <- k`. -/
def State.setBlkdone (k : Nat) (s : State) : State := { s with blkdone := BitVec.ofNat 16 k }

/-- The sequencer moves on to a position (10_state.md R38). -/
def State.goto (a : Activity) (s : State) : State := { s with seq := .running a }

/-- The OPR store that starts an operation: the code, BUSY and the sequencer in one step (R23, R38). -/
def State.launch (code : Byte) (a : Activity) (s : State) : State :=
  { s with
    opr := code
    stat := setBit0 s.stat true
    seq := .running a }

/-- `finish(res)`: RESULT, BUSY and the sequencer in one step (00_scope.md R15). -/
def State.finish (res : Result) (s : State) : State :=
  { s with
    result := res.code
    stat := setBit0 s.stat false
    seq := .idle }

/-! ### Reset -/

/-- Reset between engine steps (70_reset_and_hazards.md R260, R262): every block register, the sequencer and the bus
history take their reset values; host memory, the parameters and the world outside keep theirs; the events recorded so
far stay in `past` (log entry 8). -/
def State.applyReset (s : State) : State :=
  { State.powerUp s.params with
    past := s.past ++ s.bus
    mem := s.mem
    card := s.card
    env := s.env
    turn := s.turn
    rdata := s.rdata }

/-! ### Where a sub-sequence stands after one step -/

/-- It goes on at a position, or returns a value to its caller. -/
inductive Turn (π ρ : Type) where
  | goOn (p : π)
  | done (r : ρ)
  deriving DecidableEq, Repr

end Sys2Proof.Machine
end

