-- ==== Sys2Proof/Machine/Operands.lean ====
section
/-! DEFINITION. The register map and host access to it (10_state.md R20 to R41), the operands an operation reads (R42),
card and buffer addresses (42_block_io.md R180, R192), validation (R181, R182), and the running operation's buffer
(20_memory.md R70). -/

namespace Sys2Proof.Machine

/-! ### The register map (R22) -/

/-- The registers, by name. -/
inductive Reg where
  | opr | ctrl | stat | result | dstatus | ctype | data | r1
  | cmdidx | drv | tshort | tlong | arg | buf | cnt | blkdone
  deriving DecidableEq, Repr

/-- The registers in the order of their offsets. -/
def Reg.all : List Reg :=
  [.opr, .ctrl, .stat, .result, .dstatus, .ctype, .data, .r1,
   .cmdidx, .drv, .tshort, .tlong, .arg, .buf, .cnt, .blkdone]

/-- The offset of a register in the block. -/
def Reg.offset : Reg → BitVec 5
  | .opr => 0x00
  | .ctrl => 0x01
  | .stat => 0x02
  | .result => 0x03
  | .dstatus => 0x04
  | .ctype => 0x05
  | .data => 0x06
  | .r1 => 0x07
  | .cmdidx => 0x08
  | .drv => 0x09
  | .tshort => 0x0A
  | .tlong => 0x0B
  | .arg => 0x0C
  | .buf => 0x10
  | .cnt => 0x12
  | .blkdone => 0x14

/-- The width of a register. -/
def Reg.width : Reg → Width
  | .opr | .ctrl | .stat | .result | .dstatus | .ctype | .data | .r1
  | .cmdidx | .drv | .tshort | .tlong => .b1
  | .arg => .b4
  | .buf | .cnt | .blkdone => .b2

/-- The register an access of this width at this offset reaches; none for any other access (R21). -/
def regAt (w : Width) (off : BitVec 5) : Option Reg :=
  Reg.all.find? fun r => r.offset = off ∧ r.width = w

/-- What a host load returns: the current value (R41). -/
def State.readReg (s : State) : Reg → Word
  | .opr => s.opr.zeroExtend 32
  | .ctrl => s.ctrl.zeroExtend 32
  | .stat => s.stat.zeroExtend 32
  | .result => s.result.zeroExtend 32
  | .dstatus => s.dstatus.zeroExtend 32
  | .ctype => s.ctype.zeroExtend 32
  | .data => s.data.zeroExtend 32
  | .r1 => s.r1.zeroExtend 32
  | .cmdidx => s.cmdidx.zeroExtend 32
  | .drv => s.drv.zeroExtend 32
  | .tshort => s.tshort.zeroExtend 32
  | .tlong => s.tlong.zeroExtend 32
  | .arg => s.arg
  | .buf => s.buf.zeroExtend 32
  | .cnt => s.cnt.zeroExtend 32
  | .blkdone => s.blkdone.zeroExtend 32

/-- What a host store leaves while BUSY = 0 (R40): reserved bits dropped, CSA and the RO registers kept, a counter
taking the bits it has. A store to OPR starts an operation instead and is not made here (R23). -/
def State.writeReg (s : State) (v : Word) : Reg → State
  | .opr | .stat | .result | .r1 | .blkdone => s
  | .ctrl => { s with ctrl := (s.ctrl &&& 0x01) ||| (v.truncate 8 &&& 0x02) }
  | .dstatus => { s with dstatus := v.truncate 8 &&& 0x07 }
  | .ctype => { s with ctype := v.truncate 8 &&& 0x03 }
  | .data => { s with data := v.truncate 8 }
  | .cmdidx => { s with cmdidx := v.truncate 8 &&& 0x3F }
  | .drv => { s with drv := v.truncate 8 }
  | .tshort => { s with tshort := counterValue s.params v.toNat }
  | .tlong => { s with tlong := counterValue s.params v.toNat }
  | .arg => { s with arg := v }
  | .buf => { s with buf := v.truncate 16 }
  | .cnt => { s with cnt := v.truncate 16 }

/-! ### Operands of the operations (R42) -/

/-- The command index operand: `x[CMDIDX][5:0]` (R33). -/
def State.commandIndex (s : State) : BitVec 6 := s.cmdidx.truncate 6

/-- CTYPE bits 1:0 (R29). -/
def State.cardType (s : State) : BitVec 2 := s.ctype.truncate 2

/-- CardAddr (42_block_io.md R180): the sector number, times 512 (SECTOR_SIZE) modulo 2^32 unless the card is
block-addressed. -/
def cardAddr (sectorSize : Nat) (cardType : BitVec 2) (sector : Word) : Word :=
  if cardType = 3#2 then sector else sector * BitVec.ofNat 32 sectorSize

/-- The card address of READ and WRITE. -/
def State.cardAddress (s : State) : Word := cardAddr s.params.sectorSize s.cardType s.arg

/-- A count of one block: the single-block forms of READ and WRITE. -/
def State.single (s : State) : Bool := s.cnt == 1

/-- The first host address of block `k` of the buffer, not wrapped (R192). -/
def State.blockBase (s : State) (k : Nat) : Nat := s.buf.toNat + s.params.sectorSize * k

/-- READ's validation, in its order (R181): the result of a rejection. -/
def State.readRejection (s : State) : Option Result :=
  if s.drv ≠ 0 ∨ s.cnt = 0 then some .parameter
  else if s.noInit then some .notReady
  else none

/-- WRITE's validation, in its order (R182). -/
def State.writeRejection (s : State) : Option Result :=
  if s.drv ≠ 0 ∨ s.cnt = 0 then some .parameter
  else if s.noInit then some .notReady
  else if s.protect then some .writeProtected
  else none

/-- WRITE sends the set-block-count pre-command only to SDC cards (R189). -/
def State.preErase (s : State) : Bool := s.cardType == 2#2 || s.cardType == 3#2

/-- The start token of WRITE's blocks (R189). -/
def State.writeToken (s : State) : Byte :=
  if s.single then s.params.tokenSingle else s.params.tokenMulti

/-! ### The running operation's buffer (20_memory.md R70) -/

/-- How many blocks the running operation's buffer has: CNT for READ and WRITE, 1 for RCVRBLK and XMITBLK, else 0. -/
def State.bufferBlocks (s : State) : Nat :=
  match s.seq with
  | .running (.read _) | .running (.write _) => s.cnt.toNat
  | .running (.rcvrblk _) | .running (.xmitblk _) => 1
  | _ => 0

/-- A host access to this byte would race with the running operation. -/
def State.racesAt (s : State) (a : Nat) : Bool :=
  s.busy && decide (s.buf.toNat ≤ a ∧ a < s.buf.toNat + s.params.sectorSize * s.bufferBlocks)

end Sys2Proof.Machine
end

