-- ==== Sys2Proof/Machine/Sequencer.lean ====
section
/-! DEFINITION. One engine step of each shared sub-sequence (41_command.md R130 to R134, 42_block_io.md R183, R184), the
command, token and response places inside a running operation, and what an operation does with a returned value. A test
the pseudocode makes between two steps is made at the end of the first of them (log entry 9). -/

namespace Sys2Proof.Machine

/-! ### WaitReady (R130) -/

/-- One step of the ready wait; it returns 0xFF exactly when the card was seen ready. Ticks may fall between any two steps
(43_timer.md R214), so a wait may sample any number of times before they come: the bound of at most one sample more than
ticks (R216) needs a premise (DEDUCED, log entry 23). -/
def waitStep (p : WaitPos) (s : State) : Turn WaitPos Byte × State :=
  match p with
  | .load => (.goOn .exchange, s.loadShort)
  | .exchange =>
    (if s.nextByte = 0xFF then .done 0xFF else .goOn (.sample s.nextByte), s.exchange s.params.filler)
  | .sample b => (if s.sampleShort = 0 then .done b else .goOn .exchange, s)

/-! ### SendCmd and StopCmd (R131, R132, R133) -/

/-- Where a command begins: the stop variant waits for nothing (R133). -/
def commandStart (idx : BitVec 6) : CmdPos :=
  if idx = 12 then .frame 0 else .wait .load

/-- The stop variant with `n` bytes of its budget left. -/
def stopPollFrom (n : Nat) (last : Byte) : CmdPos :=
  if n = 0 then .record last else .stopPoll n last

/-- What follows the frame: the stop variant's budget, or the response poll. -/
def afterFrame (p : Params) (idx : BitVec 6) : CmdPos :=
  if idx = 12 then stopPollFrom p.stopBudget 0xFF else .poll p.respPoll

/-- One step of `SendCmd(idx, arg)`, or of `StopCmd(arg)` when idx = 12; it returns what it wrote to R1. -/
def commandStep (idx : BitVec 6) (arg : Word) (p : CmdPos) (s : State) : Turn CmdPos Byte × State :=
  match p with
  | .wait w =>
    match waitStep w s with
    | (.goOn w', s') => (.goOn (.wait w'), s')
    | (.done b, s') => (.goOn (if b = 0xFF then .frame 0 else .record 0xFF), s')
  | .frame n =>
    (.goOn (if n + 1 < 6 then .frame (n + 1) else afterFrame s.params idx), s.exchange (frameByte s.params idx arg n))
  | .poll n =>
    (.goOn (if r1IsValid s.nextByte ∨ n ≤ 1 then .record s.nextByte else .poll (n - 1)),
     s.exchange s.params.filler)
  | .stopPoll n last =>
    (.goOn (stopPollFrom (n - 1) (if s.nextByte = 0xFF then last else s.nextByte)),
     s.exchange s.params.filler)
  | .record r => (.done r, s.setR1 r)

/-! ### RcvrBlock (42_block_io.md R183) -/

/-- Payload byte `i`, or the first CRC byte once the block's SECTOR_SIZE bytes are received. -/
def payloadFrom (sectorSize i : Nat) : RcvPos := if i < sectorSize then .payload i else .crc1

/-- One step of `RcvrBlock(base)`; it returns whether a whole block was received. A sample of 0 fails the block; in an
instance whose READ_TOKEN is 0xFF that is a choice between the rule's prose and its pseudocode (DESIGN CHOICE, log entry
16). -/
def receiveStep (base : Nat) (p : RcvPos) (s : State) : Except Fault (Turn RcvPos Bool × State) :=
  match p with
  | .load => .ok (.goOn .token, s.loadShort)
  | .token =>
    .ok (if s.nextByte = 0xFF then .goOn .sample
         else if s.nextByte = s.params.readToken then .goOn (payloadFrom s.params.sectorSize 0)
         else .done false, s.exchange s.params.filler)
  | .sample => .ok (if s.sampleShort = 0 then .done false else .goOn .token, s)
  | .payload i => .ok (.goOn (.store i s.nextByte), s.exchange s.params.filler)
  | .store i v =>
    match s.memWrite (base + i) v with
    | .error f => .error f
    | .ok s' => .ok (.goOn (payloadFrom s.params.sectorSize (i + 1)), s')
  | .crc1 => .ok (.goOn .crc2, s.exchange s.params.filler)
  | .crc2 => .ok (.done true, s.exchange s.params.filler)

/-! ### XmitBlock (R184) -/

/-- Payload byte `i`, or the first CRC byte once the block's SECTOR_SIZE bytes are sent. -/
def fetchFrom (sectorSize i : Nat) : XmtPos := if i < sectorSize then .fetch i else .crc1

/-- One step of `XmitBlock(base, token)`; it returns whether the block was accepted. -/
def transmitStep (base : Nat) (token : Byte) (p : XmtPos) (s : State) :
    Except Fault (Turn XmtPos Bool × State) :=
  match p with
  | .wait w =>
    match waitStep w s with
    | (.goOn w', s') => .ok (.goOn (.wait w'), s')
    | (.done b, s') => .ok (if b = 0xFF then .goOn .token else .done false, s')
  | .token =>
    .ok (if token = s.params.tokenStop then .done true else .goOn (fetchFrom s.params.sectorSize 0), s.exchange token)
  | .fetch i =>
    match s.memRead (base + i) with
    | .error f => .error f
    | .ok v => .ok (.goOn (.send i v), s)
  | .send i v => .ok (.goOn (fetchFrom s.params.sectorSize (i + 1)), s.exchange v)
  | .crc1 => .ok (.goOn .crc2, s.exchange s.params.crcFill)
  | .crc2 => .ok (.goOn .response, s.exchange s.params.crcFill)
  | .response => .ok (.done (responseAccepted s.params s.nextByte), s.exchange s.params.filler)

/-! ### Commands inside operations -/

/-- The command of READ's and WRITE's data phase (42_block_io.md R188, R189). -/
def State.readIndex (s : State) : BitVec 6 := if s.single then 17 else 18
def State.writeIndex (s : State) : BitVec 6 := if s.single then 24 else 25

/-- The command an operation stands in: index, argument, position. -/
def Activity.command? (a : Activity) (s : State) : Option (BitVec 6 × Word × CmdPos) :=
  match a with
  | .sendcmd (.command p) => some (s.commandIndex, s.arg, p)
  | .sendacmd (.appPrefix p) => some (55, 0, p)
  | .sendacmd (.command p) => some (s.commandIndex, s.arg, p)
  | .read (.command p) => some (s.readIndex, s.cardAddress, p)
  | .read (.stop _ p) => some (12, 0, p)
  | .write (.appPrefix p) => some (55, 0, p)
  | .write (.count p) => some (23, s.cnt.zeroExtend 32, p)
  | .write (.command p) => some (s.writeIndex, s.cardAddress, p)
  | _ => none

/-- The same place, its command at another position. -/
def Activity.withCommand (a : Activity) (p : CmdPos) : Activity :=
  match a with
  | .sendcmd (.command _) => .sendcmd (.command p)
  | .sendacmd (.appPrefix _) => .sendacmd (.appPrefix p)
  | .sendacmd (.command _) => .sendacmd (.command p)
  | .read (.command _) => .read (.command p)
  | .read (.stop k _) => .read (.stop k p)
  | .write (.appPrefix _) => .write (.appPrefix p)
  | .write (.count _) => .write (.count p)
  | .write (.command _) => .write (.command p)
  | a => a

/-- What the operation does after its command returned `r` (R134, R136, R137, R188, R189). -/
def Activity.afterCommand (a : Activity) (r : Byte) (s : State) : Activity :=
  match a with
  | .sendcmd (.command _) => .sendcmd (.finish (commandResult r))
  | .sendacmd (.appPrefix _) =>
    if prefixAccepted s.params r then .sendacmd (.command (commandStart s.commandIndex))
    else .sendacmd (.finish (commandResult r))
  | .sendacmd (.command _) => .sendacmd (.finish (commandResult r))
  | .read (.command _) =>
    if dataCommandAccepted r then .read (.block 0 .load)
    else if s.single then .read (.release 0)
    else .read (.stop 0 (commandStart 12))
  | .read (.stop k _) => .read (.release k)
  | .write (.appPrefix _) =>
    if prefixAccepted s.params r then .write (.count (commandStart 23))
    else .write (.command (commandStart 25))
  | .write (.count _) => .write (.command (commandStart 25))
  | .write (.command _) =>
    if dataCommandAccepted r then .write (.block 0 (.wait .load))
    else if s.single then .write (.release 0 false)
    else .write (.stopWait 0 .load)
  | a => a

/-- One engine step of the command an operation stands in. -/
def State.commandTurn (a : Activity) (idx : BitVec 6) (arg : Word) (p : CmdPos) (s : State) : State :=
  match commandStep idx arg p s with
  | (.goOn p', s') => s'.goto (a.withCommand p')
  | (.done r, s') => s'.goto (a.afterCommand r s')

/-! ### Where an operation begins -/

/-- The first position of an operation: where the OPR store puts the sequencer (10_state.md R38, the first step of its
pseudocode). A row that is no operation code has none. -/
def firstPosition (i : Instr) (s : State) : Option Activity :=
  match i with
  | .nop => some .nop
  | .select => some (.select .assert)
  | .deselect => some (.deselect .release)
  | .xmit => some (.xmit .exchange)
  | .rcvr => some (.rcvr .exchange)
  | .clktrain => some (.clktrain .release)
  | .waitready => some (.waitready (.wait .load))
  | .sendcmd => some (.sendcmd (.command (commandStart s.commandIndex)))
  | .sendacmd => some (.sendacmd (.appPrefix (.wait .load)))
  | .rcvrblk => some (.rcvrblk (.block .load))
  | .xmitblk => some (.xmitblk (.block (.wait .load)))
  | .read => some (.read .start)
  | .write => some (.write .start)
  | .reserved _ => some .reserved
  | .goIdle _ | .opCondMmc _ | .sendIfCond _ | .sendCsd _ | .sendCid _ | .stopTransmission _ | .setBlocklen _
  | .readSingleBlock _ | .readMultipleBlock _ | .acmdSetBlockCount _ | .writeBlock _ | .writeMultipleBlock _
  | .acmdOpCond _ | .appCmd _ | .readOcr _ | .sdcmdOther _ _ | .tokenStartSingle | .tokenStartMulti | .tokenStop
  | .tokenReadStart | .dataResponseAccepted _ | .r1Valid _ => none

/-! ### Tokens and responses inside operations -/

/-- The token an operation is about to send (R184, R185). -/
def Activity.outToken? (a : Activity) (s : State) : Option Byte :=
  match a with
  | .xmitblk (.block .token) => some s.data
  | .write (.block _ .token) => some s.writeToken
  | .write (.stopToken _ _) => some s.params.tokenStop
  | _ => none

/-- The next byte is looked at as a read token (R183). -/
def Activity.awaitsToken : Activity → Bool
  | .rcvrblk (.block .token) | .read (.block _ .token) => true
  | _ => false

/-- The next byte is the data response (R184). -/
def Activity.awaitsResponse : Activity → Bool
  | .xmitblk (.block .response) | .write (.block _ .response) => true
  | _ => false

end Sys2Proof.Machine
end

