-- ==== Sys2Proof/Machine/Block.lean ====
section
/-! DEFINITION. The block operations (42_block_io.md R186 to R189), the data tokens (30_encoding.md R90) and the accepted
data response (R92). A token or response row means the step of the running operation that sends or receives it. -/

namespace Sys2Proof.Machine

/-! ### RCVRBLK (R186) -/

/-- One step of RCVRBLK: `RcvrBlock(x[BUF])`, `x[BLKDONE] <-`, `finish`. -/
def State.rcvrblkTurn (p : RcvrBlkPos) (s : State) : Outcome :=
  match p with
  | .block q =>
    match receiveStep (s.blockBase 0) q s with
    | .error f => .fault f
    | .ok (.goOn q', s') => .next (s'.goto (.rcvrblk (.block q')))
    | .ok (.done ok, s') => .next (s'.goto (.rcvrblk (.record ok)))
  | .record ok =>
    .next ((s.setBlkdone (if ok then 1 else 0)).goto (.rcvrblk (.finish (Result.ofBool ok))))
  | .finish res => .next (s.finish res)

def execRcvrblk (s : State) : Outcome :=
  if s.busy then
    match s.seq with
    | .running (.rcvrblk p) => s.rcvrblkTurn p
    | _ => .fault .writeWhileBusy
  else .next (s.launch 0x20 (.rcvrblk (.block .load)))

/-! ### XMITBLK (R187) -/

/-- One step of XMITBLK: `XmitBlock(x[BUF], x[DATA])`, `x[BLKDONE] <-`, `finish`. -/
def State.xmitblkTurn (p : XmitBlkPos) (s : State) : Outcome :=
  match p with
  | .block q =>
    match transmitStep (s.blockBase 0) s.data q s with
    | .error f => .fault f
    | .ok (.goOn q', s') => .next (s'.goto (.xmitblk (.block q')))
    | .ok (.done ok, s') => .next (s'.goto (.xmitblk (.record ok)))
  | .record ok =>
    .next ((s.setBlkdone (if ok && s.data != s.params.tokenStop then 1 else 0)).goto
      (.xmitblk (.finish (Result.ofBool ok))))
  | .finish res => .next (s.finish res)

def execXmitblk (s : State) : Outcome :=
  if s.busy then
    match s.seq with
    | .running (.xmitblk p) => s.xmitblkTurn p
    | _ => .fault .writeWhileBusy
  else .next (s.launch 0x21 (.xmitblk (.block (.wait .load))))

/-! ### READ (R188) -/

/-- What READ does after block `k`: the next block, the stop command (count above 1), or the end. -/
def State.afterReadBlock (k : Nat) (ok : Bool) (s : State) : ReadPos :=
  if s.single then .release (if ok then 1 else 0)
  else if ok then
    (if k + 1 < s.cnt.toNat then .block (k + 1) .load else .stop (k + 1) (commandStart 12))
  else .stop k (commandStart 12)

/-- READ's deselect with `n` trailer exchanges left. -/
def readTrailerFrom (k n : Nat) : ReadPos := if n = 0 then .record k else .trailer k n

/-- One step of READ. -/
def State.readTurn (p : ReadPos) (s : State) : Outcome :=
  match p with
  | .start =>
    match s.readRejection with
    | some res => .next ((s.setBlkdone 0).goto (.read (.finish res)))
    | none => .next ((s.setCs true).goto (.read (.command (commandStart s.readIndex))))
  | .command q => .next (s.commandTurn (.read (.command q)) s.readIndex s.cardAddress q)
  | .block k q =>
    match receiveStep (s.blockBase k) q s with
    | .error f => .fault f
    | .ok (.goOn q', s') => .next (s'.goto (.read (.block k q')))
    | .ok (.done ok, s') => .next (s'.goto (.read (s'.afterReadBlock k ok)))
  | .stop k q => .next (s.commandTurn (.read (.stop k q)) 12 0 q)
  | .release k => .next ((s.setCs false).goto (.read (readTrailerFrom k s.params.deselectTrailer)))
  | .trailer k n => .next ((s.exchange s.params.filler).goto (.read (readTrailerFrom k (n - 1))))
  | .record k =>
    .next ((s.setBlkdone k).goto (.read (.finish (Result.ofBool (k == s.cnt.toNat)))))
  | .finish res => .next (s.finish res)

def execRead (s : State) : Outcome :=
  if s.busy then
    match s.seq with
    | .running (.read p) => s.readTurn p
    | _ => .fault .writeWhileBusy
  else .next (s.launch 0x30 (.read .start))

/-! ### WRITE (R189) -/

/-- Where WRITE goes once it has selected the card: the pre-command only for several blocks and an SDC card. -/
def State.writeStart (s : State) : WritePos :=
  if !s.single && s.preErase then .appPrefix (commandStart 55) else .command (commandStart s.writeIndex)

/-- What WRITE does after block `k`: the next block, the stop token (count above 1), or the end. -/
def State.afterWriteBlock (k : Nat) (ok : Bool) (s : State) : WritePos :=
  if s.single then .release (if ok then 1 else 0) ok
  else if ok then
    (if k + 1 < s.cnt.toNat then .block (k + 1) (.wait .load) else .stopWait (k + 1) .load)
  else .stopWait k .load

/-- WRITE's deselect with `n` trailer exchanges left. -/
def writeTrailerFrom (k : Nat) (ok : Bool) (n : Nat) : WritePos :=
  if n = 0 then .record k ok else .trailer k ok n

/-- One step of WRITE. -/
def State.writeTurn (p : WritePos) (s : State) : Outcome :=
  match p with
  | .start =>
    match s.writeRejection with
    | some res => .next ((s.setBlkdone 0).goto (.write (.finish res)))
    | none => .next ((s.setCs true).goto (.write s.writeStart))
  | .appPrefix q => .next (s.commandTurn (.write (.appPrefix q)) 55 0 q)
  | .count q => .next (s.commandTurn (.write (.count q)) 23 (s.cnt.zeroExtend 32) q)
  | .command q => .next (s.commandTurn (.write (.command q)) s.writeIndex s.cardAddress q)
  | .block k q =>
    match transmitStep (s.blockBase k) s.writeToken q s with
    | .error f => .fault f
    | .ok (.goOn q', s') => .next (s'.goto (.write (.block k q')))
    | .ok (.done ok, s') => .next (s'.goto (.write (s'.afterWriteBlock k ok)))
  | .stopWait k w =>
    match waitStep w s with
    | (.goOn w', s') => .next (s'.goto (.write (.stopWait k w')))
    | (.done b, s') => .next (s'.goto (.write (.stopToken k (b == 0xFF))))
  | .stopToken k ready =>
    .next ((s.exchange s.params.tokenStop).goto (.write (.release k (k == s.cnt.toNat && ready))))
  | .release k ok =>
    .next ((s.setCs false).goto (.write (writeTrailerFrom k ok s.params.deselectTrailer)))
  | .trailer k ok n =>
    .next ((s.exchange s.params.filler).goto (.write (writeTrailerFrom k ok (n - 1))))
  | .record k ok => .next ((s.setBlkdone k).goto (.write (.finish (Result.ofBool ok))))
  | .finish res => .next (s.finish res)

def execWrite (s : State) : Outcome :=
  if s.busy then
    match s.seq with
    | .running (.write p) => s.writeTurn p
    | _ => .fault .writeWhileBusy
  else .next (s.launch 0x31 (.write .start))

/-! ### Tokens and the data response -/

/-- One engine step of a running block operation. -/
def State.blockTurn (a : Activity) (s : State) : Outcome :=
  match a with
  | .rcvrblk p => s.rcvrblkTurn p
  | .xmitblk p => s.xmitblkTurn p
  | .read p => s.readTurn p
  | .write p => s.writeTurn p
  | _ => .fault .outOfPlace

/-- The step that sends token `t`, where the running operation is about to send it. -/
def State.sendToken (t : Byte) (s : State) : Outcome :=
  if s.busy then
    match s.seq with
    | .running a => if a.outToken? s = some t then s.blockTurn a else .fault .outOfPlace
    | .idle => .fault .outOfPlace
  else .fault .outOfPlace

/-- The start token of a single-block write (R90, R184). -/
def execTokenStartSingle (s : State) : Outcome := s.sendToken s.params.tokenSingle
/-- The start token of each block of a multi-block write (R90, R189). -/
def execTokenStartMulti (s : State) : Outcome := s.sendToken s.params.tokenMulti
/-- The stop token (R90, R185). -/
def execTokenStop (s : State) : Outcome := s.sendToken s.params.tokenStop

/-- The step that receives the read token (R90, R183). -/
def execTokenReadStart (s : State) : Outcome :=
  if s.busy && s.nextByte == s.params.readToken then
    match s.seq with
    | .running a => if a.awaitsToken then s.blockTurn a else .fault .outOfPlace
    | .idle => .fault .outOfPlace
  else .fault .outOfPlace

/-- The step that receives this accepted data response (R92, R184). -/
def execDataResponseAccepted (response : Byte) (s : State) : Outcome :=
  if s.busy && s.nextByte == response && responseAccepted s.params response then
    match s.seq with
    | .running a => if a.awaitsResponse then s.blockTurn a else .fault .outOfPlace
    | .idle => .fault .outOfPlace
  else .fault .outOfPlace

end Sys2Proof.Machine
end

