-- ==== Sys2Proof/Machine/Command.lean ====
section
/-! DEFINITION. The command operations (41_command.md R135 to R137), the wire command rows (R150 to R165) and the valid
R1 response (30_encoding.md R88).

A wire command row means one engine step of SendCmd or StopCmd for its index and argument, in the running operation that
stands in that command (SENDCMD, SENDACMD, READ or WRITE); the operation's own meaning makes the same step (log entry 5). -/

namespace Sys2Proof.Machine

/-! ### WAITREADY (R135) -/

/-- One step of WAITREADY: the ready wait, `x[DATA] <- b`, `finish`. -/
def State.waitreadyTurn (p : WaitReadyPos) (s : State) : State :=
  match p with
  | .wait w =>
    match waitStep w s with
    | (.goOn w', s') => s'.goto (.waitready (.wait w'))
    | (.done b, s') => s'.goto (.waitready (.record b))
  | .record b => (s.setData b).goto (.waitready (.finish (Result.ofBool (b == 0xFF))))
  | .finish res => s.finish res

def execWaitready (s : State) : Outcome :=
  if s.busy then
    match s.seq with
    | .running (.waitready p) => .next (s.waitreadyTurn p)
    | _ => .fault .writeWhileBusy
  else .next (s.launch 0x10 (.waitready (.wait .load)))

/-! ### SENDCMD (R136) -/

/-- One step of SENDCMD: the command of CMDIDX and ARG, `finish`. -/
def State.sendcmdTurn (p : SendCmdPos) (s : State) : State :=
  match p with
  | .command q => s.commandTurn (.sendcmd (.command q)) s.commandIndex s.arg q
  | .finish res => s.finish res

def execSendcmd (s : State) : Outcome :=
  if s.busy then
    match s.seq with
    | .running (.sendcmd p) => .next (s.sendcmdTurn p)
    | _ => .fault .writeWhileBusy
  else .next (s.launch 0x11 (.sendcmd (.command (commandStart s.commandIndex))))

/-! ### SENDACMD (R134, R137) -/

/-- One step of SENDACMD: the prefix of index 55, the command if it was accepted, `finish`. -/
def State.sendacmdTurn (p : SendAcmdPos) (s : State) : State :=
  match p with
  | .appPrefix q => s.commandTurn (.sendacmd (.appPrefix q)) 55 0 q
  | .command q => s.commandTurn (.sendacmd (.command q)) s.commandIndex s.arg q
  | .finish res => s.finish res

def execSendacmd (s : State) : Outcome :=
  if s.busy then
    match s.seq with
    | .running (.sendacmd p) => .next (s.sendacmdTurn p)
    | _ => .fault .writeWhileBusy
  else .next (s.launch 0x12 (.sendacmd (.appPrefix (commandStart 55))))

/-! ### Wire command rows -/

/-- One engine step of the command `(idx, arg)` where the sequencer stands in it. -/
def State.wireCommand (idx : BitVec 6) (arg : Word) (s : State) : Outcome :=
  if s.busy then
    match s.seq with
    | .running a =>
      match a.command? s with
      | some (i, v, p) =>
        if i = idx ∧ v = arg then .next (s.commandTurn a idx arg p) else .fault .outOfPlace
      | none => .fault .outOfPlace
    | .idle => .fault .outOfPlace
  else .fault .outOfPlace

/-- go-idle (R150). -/
def execGoIdle (arg : Word) (s : State) : Outcome := s.wireCommand 0 arg
/-- op-condition, MMC form (R151). -/
def execOpCondMmc (arg : Word) (s : State) : Outcome := s.wireCommand 1 arg
/-- send-interface-condition (R152). -/
def execSendIfCond (arg : Word) (s : State) : Outcome := s.wireCommand 8 arg
/-- send-CSD (R153). -/
def execSendCsd (arg : Word) (s : State) : Outcome := s.wireCommand 9 arg
/-- send-CID (R154). -/
def execSendCid (arg : Word) (s : State) : Outcome := s.wireCommand 10 arg
/-- stop-transmission (R155), always the stop variant. -/
def execStopTransmission (arg : Word) (s : State) : Outcome := s.wireCommand 12 arg
/-- set-blocklen (R156). -/
def execSetBlocklen (arg : Word) (s : State) : Outcome := s.wireCommand 16 arg
/-- read-single-block (R157). -/
def execReadSingleBlock (arg : Word) (s : State) : Outcome := s.wireCommand 17 arg
/-- read-multi-block (R158). -/
def execReadMultipleBlock (arg : Word) (s : State) : Outcome := s.wireCommand 18 arg
/-- set-block-count, application form (R159). -/
def execAcmdSetBlockCount (arg : Word) (s : State) : Outcome := s.wireCommand 23 arg
/-- write-block (R161). -/
def execWriteBlock (arg : Word) (s : State) : Outcome := s.wireCommand 24 arg
/-- write-multi-block (R162). -/
def execWriteMultipleBlock (arg : Word) (s : State) : Outcome := s.wireCommand 25 arg
/-- op-condition, application form (R163). -/
def execAcmdOpCond (arg : Word) (s : State) : Outcome := s.wireCommand 41 arg
/-- app-command-prefix (R160). -/
def execAppCmd (arg : Word) (s : State) : Outcome := s.wireCommand 55 arg
/-- read-OCR (R164). -/
def execReadOcr (arg : Word) (s : State) : Outcome := s.wireCommand 58 arg
/-- any other index (R165). -/
def execSdcmdOther (idx : BitVec 6) (arg : Word) (s : State) : Outcome := s.wireCommand idx arg

/-! ### The valid R1 response -/

/-- The response poll receives a byte with bit 7 clear and these status bits (30_encoding.md R88, 41_command.md R132). -/
def execR1Valid (status : BitVec 7) (s : State) : Outcome :=
  if s.busy && s.nextByte == 0#1 ++ status then
    match s.seq with
    | .running a =>
      match a.command? s with
      | some (idx, arg, .poll n) => .next (s.commandTurn a idx arg (.poll n))
      | _ => .fault .outOfPlace
    | .idle => .fault .outOfPlace
  else .fault .outOfPlace

end Sys2Proof.Machine
end

