-- ==== Sys2Proof/Machine/Transport.lean ====
section
/-! DEFINITION. The transport operations (40_transport.md R114 to R119) and the reserved codes (30_encoding.md R82).

A meaning makes ONE atomic step of its operation (10_state.md R38, R39): with BUSY = 0 the OPR store that starts it
(R23), with BUSY = 1 the next engine step of the running operation. With BUSY = 1 and another operation running, the
store that would start it is WriteWhileBusy (R40). Log entry 15. -/

namespace Sys2Proof.Machine

/-! ### NOP (R114) -/

/-- `finish(Ok)`. -/
def execNop (s : State) : Outcome :=
  if s.busy then
    match s.seq with
    | .running .nop => .next (s.finish .ok)
    | _ => .fault .writeWhileBusy
  else .next (s.launch 0x00 .nop)

/-! ### SELECT (R115) -/

/-- One step of SELECT: `CS <- 1`, then `finish(Ok)`. -/
def State.selectTurn (p : SelectPos) (s : State) : State :=
  match p with
  | .assert => (s.setCs true).goto (.select .finish)
  | .finish => s.finish .ok

def execSelect (s : State) : Outcome :=
  if s.busy then
    match s.seq with
    | .running (.select p) => .next (s.selectTurn p)
    | _ => .fault .writeWhileBusy
  else .next (s.launch 0x01 (.select .assert))

/-! ### DESELECT (R111, R116) -/

/-- DESELECT with `n` trailer exchanges left. -/
def deselectTrailerFrom (n : Nat) : DeselectPos := if n = 0 then .finish else .trailer n

/-- One step of DESELECT: `CS <- 0`, the trailer, `finish(Ok)`. -/
def State.deselectTurn (p : DeselectPos) (s : State) : State :=
  match p with
  | .release => (s.setCs false).goto (.deselect (deselectTrailerFrom s.params.deselectTrailer))
  | .trailer n => (s.exchange s.params.filler).goto (.deselect (deselectTrailerFrom (n - 1)))
  | .finish => s.finish .ok

def execDeselect (s : State) : Outcome :=
  if s.busy then
    match s.seq with
    | .running (.deselect p) => .next (s.deselectTurn p)
    | _ => .fault .writeWhileBusy
  else .next (s.launch 0x02 (.deselect .release))

/-! ### XMIT (R117) -/

/-- One step of XMIT: `Exchange(x[DATA])`, the received byte discarded; `finish(Ok)`. -/
def State.xmitTurn (p : XmitPos) (s : State) : State :=
  match p with
  | .exchange => (s.exchange s.data).goto (.xmit .finish)
  | .finish => s.finish .ok

def execXmit (s : State) : Outcome :=
  if s.busy then
    match s.seq with
    | .running (.xmit p) => .next (s.xmitTurn p)
    | _ => .fault .writeWhileBusy
  else .next (s.launch 0x03 (.xmit .exchange))

/-! ### RCVR (R118) -/

/-- One step of RCVR: `b = Exchange(FILLER)`, `x[DATA] <- b`, `finish(Ok)`. -/
def State.rcvrTurn (p : RcvrPos) (s : State) : State :=
  match p with
  | .exchange => (s.exchange s.params.filler).goto (.rcvr (.record s.nextByte))
  | .record b => (s.setData b).goto (.rcvr .finish)
  | .finish => s.finish .ok

def execRcvr (s : State) : Outcome :=
  if s.busy then
    match s.seq with
    | .running (.rcvr p) => .next (s.rcvrTurn p)
    | _ => .fault .writeWhileBusy
  else .next (s.launch 0x04 (.rcvr .exchange))

/-! ### CLKTRAIN (R119) -/

/-- CLKTRAIN with `n` training bytes left. -/
def trainFrom (n : Nat) : TrainPos := if n = 0 then .finish else .train n

/-- One step of CLKTRAIN: `CS <- 0`, TRAIN_BYTES fillers, `finish(Ok)`. -/
def State.clktrainTurn (p : TrainPos) (s : State) : State :=
  match p with
  | .release => (s.setCs false).goto (.clktrain (trainFrom s.params.trainBytes))
  | .train n => (s.exchange s.params.filler).goto (.clktrain (trainFrom (n - 1)))
  | .finish => s.finish .ok

def execClktrain (s : State) : Outcome :=
  if s.busy then
    match s.seq with
    | .running (.clktrain p) => .next (s.clktrainTurn p)
    | _ => .fault .writeWhileBusy
  else .next (s.launch 0x05 (.clktrain .release))

/-! ### Reserved operation codes (30_encoding.md R82) -/

/-- `finish(ParameterError)`. -/
def execReserved (code : Byte) (s : State) : Outcome :=
  if s.busy then
    match s.seq with
    | .running .reserved => .next (s.finish .parameter)
    | _ => .fault .writeWhileBusy
  else .next (s.launch code .reserved)

end Sys2Proof.Machine
end

