-- ==== Sys2Proof/Machine/Dispatch.lean ====
section
/-! DEFINITION. One arm per row of the opcode table. -/

namespace Sys2Proof.Machine

def exec (i : Instr) (s : State) : Host.Outcome State Fault Refusal :=
  match i with
  -- operations
  | .nop => Sys2Proof.Machine.execNop s
  | .select => Sys2Proof.Machine.execSelect s
  | .deselect => Sys2Proof.Machine.execDeselect s
  | .xmit => Sys2Proof.Machine.execXmit s
  | .rcvr => Sys2Proof.Machine.execRcvr s
  | .clktrain => Sys2Proof.Machine.execClktrain s
  | .waitready => Sys2Proof.Machine.execWaitready s
  | .sendcmd => Sys2Proof.Machine.execSendcmd s
  | .sendacmd => Sys2Proof.Machine.execSendacmd s
  | .rcvrblk => Sys2Proof.Machine.execRcvrblk s
  | .xmitblk => Sys2Proof.Machine.execXmitblk s
  | .read => Sys2Proof.Machine.execRead s
  | .write => Sys2Proof.Machine.execWrite s
  | .reserved code => Sys2Proof.Machine.execReserved code s
  -- wire command frames
  | .goIdle arg => Sys2Proof.Machine.execGoIdle arg s
  | .opCondMmc arg => Sys2Proof.Machine.execOpCondMmc arg s
  | .sendIfCond arg => Sys2Proof.Machine.execSendIfCond arg s
  | .sendCsd arg => Sys2Proof.Machine.execSendCsd arg s
  | .sendCid arg => Sys2Proof.Machine.execSendCid arg s
  | .stopTransmission arg => Sys2Proof.Machine.execStopTransmission arg s
  | .setBlocklen arg => Sys2Proof.Machine.execSetBlocklen arg s
  | .readSingleBlock arg => Sys2Proof.Machine.execReadSingleBlock arg s
  | .readMultipleBlock arg => Sys2Proof.Machine.execReadMultipleBlock arg s
  | .acmdSetBlockCount arg => Sys2Proof.Machine.execAcmdSetBlockCount arg s
  | .writeBlock arg => Sys2Proof.Machine.execWriteBlock arg s
  | .writeMultipleBlock arg => Sys2Proof.Machine.execWriteMultipleBlock arg s
  | .acmdOpCond arg => Sys2Proof.Machine.execAcmdOpCond arg s
  | .appCmd arg => Sys2Proof.Machine.execAppCmd arg s
  | .readOcr arg => Sys2Proof.Machine.execReadOcr arg s
  | .sdcmdOther idx arg => Sys2Proof.Machine.execSdcmdOther idx arg s
  -- tokens and responses
  | .tokenStartSingle => Sys2Proof.Machine.execTokenStartSingle s
  | .tokenStartMulti => Sys2Proof.Machine.execTokenStartMulti s
  | .tokenStop => Sys2Proof.Machine.execTokenStop s
  | .tokenReadStart => Sys2Proof.Machine.execTokenReadStart s
  | .dataResponseAccepted response => Sys2Proof.Machine.execDataResponseAccepted response s
  | .r1Valid status => Sys2Proof.Machine.execR1Valid status s

end Sys2Proof.Machine
end

