-- ==== Sys2Proof/Machine/Engine.lean ====
section
/-! DEFINITION. Which row of the table the running operation stands at (the fetch), one engine step, the host's actions
(10_state.md R21, R23, R40, R41; 20_memory.md R70; 30_encoding.md R95, R96), and one action of a run
(70_reset_and_hazards.md R277). -/

namespace Sys2Proof.Machine

/-! ### The fetch -/

/-- The host operation an activity runs; a reserved code is the one in OPR (R23). -/
def Activity.instr (a : Activity) (s : State) : Instr :=
  match a with
  | .nop => .nop
  | .select _ => .select
  | .deselect _ => .deselect
  | .xmit _ => .xmit
  | .rcvr _ => .rcvr
  | .clktrain _ => .clktrain
  | .waitready _ => .waitready
  | .sendcmd _ => .sendcmd
  | .sendacmd _ => .sendacmd
  | .rcvrblk _ => .rcvrblk
  | .xmitblk _ => .xmitblk
  | .read _ => .read
  | .write _ => .write
  | .reserved => .reserved s.opr

/-- The row of a command at a position: a valid response in the response poll is the R1 row, everything else the
command's own row. -/
def commandFetch (idx : BitVec 6) (arg : Word) (p : CmdPos) (s : State) : Instr :=
  match p, decodeR1 s.nextByte with
  | .poll _, .ok i => i
  | _, _ => commandRow idx arg

/-- The row of the table the next engine step runs: the innermost one, a token, a response or a command frame where
the operation stands at one, else the operation itself (log entry 5). -/
def fetch (a : Activity) (s : State) : Instr :=
  match a.command? s with
  | some (idx, arg, p) => commandFetch idx arg p s
  | none =>
    match a.outToken? s with
    | some t =>
      match decodeToken s.params t with
      | .ok i => i
      | .error _ => a.instr s
    | none =>
      if a.awaitsToken then
        match decodeReadToken s.params s.nextByte with
        | .ok i => i
        | .error _ => a.instr s
      else if a.awaitsResponse then
        match decodeResponse s.params s.nextByte with
        | .ok i => i
        | .error _ => a.instr s
      else a.instr s

/-- One engine step (10_state.md R38, R39): the running operation's, or nothing while the block is Idle. -/
def engine (s : State) : Outcome :=
  if s.busy then
    match s.seq with
    | .running a => exec (fetch a s) s
    | .idle => .next s
  else .next s

/-! ### The host's register accesses -/

/-- A host store to the register block: any store while BUSY = 1 faults (R40, log entry 10), a store that reaches no
register faults (R21), a store to OPR starts the operation it decodes to (R23). -/
def hostStore (w : Width) (off : BitVec 5) (v : Word) (s : State) : Outcome :=
  if s.busy then .fault .writeWhileBusy
  else
    match regAt w off with
    | none => .fault .registerAccess
    | some .opr => exec (decodeOpr (v.truncate 8)) s
    | some r => .next (s.writeReg v r)

/-- A host load from the register block: the current value, no side effect (R41). -/
def hostLoad (w : Width) (off : BitVec 5) (s : State) : Outcome :=
  match regAt w off with
  | none => .fault .registerAccess
  | some r => .next { s with rdata := s.readReg r }

/-! ### The host's accesses to host memory (log entries 12, 20) -/

/-- The offset of a host address in the register block. -/
def State.blockOffset (s : State) (a : Nat) : BitVec 5 := BitVec.ofNat 5 (a - s.params.sdspiBase)

/-- The host stores a byte: in the register block that is a register access, in the running operation's buffer it is a
race (20_memory.md R70), at an address host memory does not have (R60) it stops; else memory takes the byte. -/
def hostMemStore (a : Nat) (v : Byte) (s : State) : Outcome :=
  if s.inRegisterBlock a then hostStore .b1 (s.blockOffset a) (v.zeroExtend 32) s
  else if s.racesAt a then .fault .bufferRace
  else if s.hostSpace ≤ a then .fault .noSuchAddress
  else .next { s with mem := Memory.write s.mem a v }

/-- The host loads a byte, the same way. -/
def hostMemLoad (a : Nat) (s : State) : Outcome :=
  if s.inRegisterBlock a then hostLoad .b1 (s.blockOffset a) s
  else if s.racesAt a then .fault .bufferRace
  else if s.hostSpace ≤ a then .fault .noSuchAddress
  else .next { s with rdata := (Memory.read s.mem a).zeroExtend 32 }

/-- The polling loop of `op` (30_encoding.md R96): read STAT; while bit 0 is 1 let the engine step and poll again
(log entry 17). -/
def hostPoll (s : State) : State :=
  { s with
    rdata := s.readReg .stat
    env := if s.busy then .engine :: .poll :: s.env else s.env }

/-! ### One action of a run -/

/-- What an action of the environment does (70_reset_and_hazards.md R277). -/
def perform (a : Action) (s : State) : Outcome :=
  match a with
  | .engine => engine s
  | .tick => .next s.tick
  | .store w off v => hostStore w off v s
  | .load w off => hostLoad w off s
  | .memStore a v => hostMemStore a v s
  | .memLoad a => hostMemLoad a s
  | .poll => .next (hostPoll s)
  | .reset => .next s.applyReset

/-- The next action: the first pending one, else a free choice of the environment (log entry 1). -/
def State.nextAction (s : State) : Action :=
  match s.env with
  | a :: _ => a
  | [] => Config.environment s.turn

/-- The state once the next action is taken off. -/
def State.takeAction (s : State) : State :=
  match s.env with
  | _ :: rest => { s with env := rest }
  | [] => { s with turn := s.turn + 1 }

/-- `n` engine steps with nothing between them: what an uninterrupted operation does. -/
def engineRun : Nat → State → Outcome
  | 0, s => .next s
  | n + 1, s =>
    match engine s with
    | .next s' => engineRun n s'
    | .fault f => .fault f
    | .refused r => .refused r

/-- `n` ticks. -/
def ticks : Nat → State → State
  | 0, s => s
  | n + 1, s => ticks n s.tick

/-! ### Host pseudo-instructions (R96), as pending actions -/

/-- `wr REG, v`. -/
def wr (r : Reg) (v : Word) : Action := .store r.width r.offset v
/-- `rd REG`. -/
def rd (r : Reg) : Action := .load r.width r.offset
/-- `op M`: the store of the code, then the polling loop. -/
def op (code : Byte) : List Action := [wr .opr (code.zeroExtend 32), .poll]
/-- `sel`. -/
def sel : List Action := op 0x01
/-- `desel`. -/
def desel : List Action := op 0x02
/-- `xmit v`. -/
def xmit (v : Byte) : List Action := wr .data (v.zeroExtend 32) :: op 0x03
/-- `rcvr`. -/
def rcvr : List Action := op 0x04 ++ [rd .data]
/-- `cmd n, a`. -/
def cmd (n : Byte) (a : Word) : List Action :=
  [wr .cmdidx (n.zeroExtend 32), wr .arg a] ++ op 0x11 ++ [rd .r1]
/-- `acmd n, a`. -/
def acmd (n : Byte) (a : Word) : List Action :=
  [wr .cmdidx (n.zeroExtend 32), wr .arg a] ++ op 0x12 ++ [rd .r1]
/-- `read s, b, c`. -/
def readBlocks (sector : Word) (buf cnt : Half) : List Action :=
  [wr .drv 0, wr .arg sector, wr .buf (buf.zeroExtend 32), wr .cnt (cnt.zeroExtend 32)] ++ op 0x30 ++ [rd .result]
/-- `write s, b, c`. -/
def writeBlocks (sector : Word) (buf cnt : Half) : List Action :=
  [wr .drv 0, wr .arg sector, wr .buf (buf.zeroExtend 32), wr .cnt (cnt.zeroExtend 32)] ++ op 0x31 ++ [rd .result]

/-! ### Placing an instruction (log entry 7) -/

/-- The engine in the middle of an operation: the code in OPR, BUSY, the place. -/
def State.placeAt (code : Byte) (a : Activity) (s : State) : State :=
  { s.launch code a with env := .engine :: s.env }

/-- The state in which the very next step runs `i`. An operation code is the host's pending store to OPR, the block
being Idle; a command frame is SENDCMD at its start (SENDACMD past its prefix for an application command); a token or a
response is a block operation, or SENDCMD's response poll, where it sends or receives that byte. -/
def State.place (i : Instr) (s : State) : State :=
  match i with
  | .acmdSetBlockCount arg =>
    { s with cmdidx := 23, arg := arg }.placeAt 0x12 (.sendacmd (.command (commandStart 23)))
  | .acmdOpCond arg =>
    { s with cmdidx := 41, arg := arg }.placeAt 0x12 (.sendacmd (.command (commandStart 41)))
  | .tokenStartSingle =>
    { s with data := s.params.tokenSingle }.placeAt 0x21 (.xmitblk (.block .token))
  | .tokenStartMulti =>
    { s with data := s.params.tokenMulti }.placeAt 0x21 (.xmitblk (.block .token))
  | .tokenStop =>
    { s with data := s.params.tokenStop }.placeAt 0x21 (.xmitblk (.block .token))
  | .tokenReadStart =>
    { s with card := s.params.readToken :: s.card }.placeAt 0x20 (.rcvrblk (.block .token))
  | .dataResponseAccepted response =>
    { s with card := response :: s.card }.placeAt 0x21 (.xmitblk (.block .response))
  | .r1Valid status =>
    { s with card := (0#1 ++ status) :: s.card }.placeAt 0x11
      (.sendcmd (.command (.poll s.params.respPoll)))
  | i =>
    match i.frame? with
    | some (idx, arg) =>
      { s with cmdidx := idx.zeroExtend 8, arg := arg }.placeAt 0x11
        (.sendcmd (.command (commandStart idx)))
    | none =>
      { s with
        stat := setBit0 s.stat false
        seq := .idle
        env := wr .opr ((encode s.params i).headD 0 |>.zeroExtend 32) :: s.env }

end Sys2Proof.Machine
end

