-- ==== Sys2Proof/Machine/Step.lean ====
section
/-! DEFINITION. One step of the machine: the environment's next action (70_reset_and_hazards.md R277); and placing a
word of the opcode table where the next step runs it. -/

namespace Sys2Proof.Machine

/-- One atomic action of a run. -/
def step (s : State) : Host.Outcome State Fault Refusal := perform s.nextAction s.takeAction

/-- `s` with the instruction of a table word placed so that the very next step runs it (log entry 7). -/
def State.withFetchWord (s : State) (nbits w : Nat) : State :=
  match decodeTableWord nbits w with
  | some i => s.place i
  | none => s

end Sys2Proof.Machine
end

