-- ==== Sys2Proof/Machine/Run.lean ====
section
/-! DEFINITION. Runs (70_reset_and_hazards.md R277): what a run starts from, its actions, when it has ended, and its
observation. Log entry 21. -/

namespace Sys2Proof.Machine

/-! ### Where a run starts -/

/-- A launch state: the sequencer Idle, nothing in flight, the bus history empty (R277). Registers, host memory and the
card script hold whatever it names; the state after reset is one. -/
def State.isLaunch (s : State) : Bool := s.seq == .idle && !s.busy && s.bus == []

/-- The state with a schedule (the host program's accesses, with the engine steps, ticks and resets of one interleaving
of it) and a card script to run on. -/
def State.hosting (schedule : List Action) (script : List Byte) (s : State) : State :=
  { s with env := schedule, card := script }

/-! ### The actions of a run -/

/-- `n` actions of a machine whose world never runs out of them: once the schedule is used up the environment goes on.
An infinite run is one that this follows for every `n`. -/
def steps : Nat → State → Outcome
  | 0, s => .next s
  | n + 1, s =>
    match step s with
    | .next s' => steps n s'
    | .fault f => .fault f
    | .refused r => .refused r

/-- The run of a schedule: at most `n` actions, stopping once no action is left. -/
def run : Nat → State → Outcome
  | 0, s => .next s
  | n + 1, s =>
    match s.env with
    | [] => .next s
    | _ :: _ =>
      match step s with
      | .next s' => run n s'
      | .fault f => .fault f
      | .refused r => .refused r

/-! ### The end of a run, and its observation -/

/-- The host program's own actions; the engine, the tick input and reset act without it. -/
def Action.ofHost : Action → Bool
  | .store _ _ _ | .load _ _ | .memStore _ _ | .memLoad _ | .poll => true
  | .engine | .tick | .reset => false

/-- The run has ended: the host program has no action left, the sequencer is Idle and BUSY = 0. -/
def State.ended (s : State) : Bool :=
  s.env.all (fun a => !Action.ofHost a) && s.seq == .idle && !s.busy

/-- What is observed of an ended run: every register of 10_state.md R22 in the order of the offsets, host memory, and the
bus history. -/
structure Observation where
  registers : List Word
  memory : List Host.Cell
  bus : List BusEvent
  deriving DecidableEq, Repr

/-- The observation of a state. -/
def State.observe (s : State) : Observation where
  registers := Reg.all.map s.readReg
  memory := s.mem
  bus := s.bus

/-- The observation of a run, by its outcome: one that stopped before its end has none, nor has one in a model fault. -/
def observation : Outcome → Option Observation
  | .next s => if s.ended then some s.observe else none
  | .fault _ | .refused _ => none

end Sys2Proof.Machine
end

