-- ==== Sys2Proof/Safety.lean ====
section
/-! DEFINITION. What claims are stated in: runs of an operation, bus events of a list of bytes, and the invariants of the
state (reserved bits and result codes; BUSY and the sequencer; positions within their bounds; the chip-select line and
the bus history; the form of host memory). -/

namespace Sys2Proof.Machine

/-! ### Runs and bus events -/

/-- From the OPR store on, with BUSY = 0, and `n` engine steps with nothing between them, operation `i` reaches `t`. -/
def runsTo (i : Instr) (n : Nat) (s t : State) : Prop :=
  ∃ u, exec i s = .next u ∧ engineRun n u = .next t

/-- The events of exchanging these bytes. -/
def exchanges (cs clk : Bool) (mosi miso : List Byte) : List BusEvent :=
  List.zipWith (BusEvent.xfer cs clk) mosi miso

/-- `n` filler bytes of the instance. -/
def fillers (p : Params) (n : Nat) : List Byte := List.replicate n p.filler

/-- Iterations of a wait (41_command.md R130, 42_block_io.md R183), one pair each: so many ticks, the exchange, so many
ticks, the sample. -/
def waitSchedule : List (Nat × Nat) → List Action
  | [] => []
  | (a, b) :: l =>
    List.replicate a .tick ++ .engine :: (List.replicate b .tick ++ .engine :: waitSchedule l)

/-- How many ticks fall in these iterations. -/
def ticksIn (l : List (Nat × Nat)) : Nat := (l.map fun x => x.1 + x.2).sum

/-- The last byte that is not 0xFF, or the sentinel 0xFF (41_command.md R133). -/
def lastNonFiller (bs : List Byte) : Byte :=
  bs.foldl (fun last b => if b = 0xFF then last else b) 0xFF

/-- The outcome with its next state changed. -/
def mapNext (f : State → State) : Outcome → Outcome
  | .next s => .next (f s)
  | .fault r => .fault r
  | .refused r => .refused r

/-! ### Parameters -/

/-- The codes of an instance tell its rows apart: OPCODE_PREFIX leaves the index bits free (30_encoding.md R84), and the
three written tokens differ (R90). -/
abbrev codesDistinct (p : Params) : Prop :=
  p.opcodePrefix &&& 0x3F = 0 ∧
  p.tokenSingle ≠ p.tokenMulti ∧ p.tokenSingle ≠ p.tokenStop ∧ p.tokenMulti ≠ p.tokenStop

/-! ### Registers -/

/-- Reserved bits read 0 (10_state.md R24, R25, R27, R29, R33), RESULT holds a code of R26, and the counters hold no more
than TIMER_WIDTH bits (43_timer.md R210). -/
abbrev State.registersOk (s : State) : Prop :=
  s.ctrl &&& 0xFC = 0 ∧ s.stat &&& 0xFE = 0 ∧ s.dstatus &&& 0xF8 = 0 ∧ s.ctype &&& 0xFC = 0 ∧
  s.cmdidx &&& 0xC0 = 0 ∧ s.result ≤ 4 ∧
  s.tshort.toNat < 2 ^ s.params.timerWidth ∧ s.tlong.toNat < 2 ^ s.params.timerWidth

/-! ### BUSY and the sequencer -/

/-- BUSY is 1 exactly while the sequencer runs (R38), and then it runs the operation whose code OPR holds (R23). -/
abbrev State.coherent (s : State) : Prop :=
  (s.busy = true ↔ s.seq ≠ .idle) ∧
  match s.seq with
  | .idle => True
  | .running a => decodeOpr s.opr = a.instr s

/-! ### Positions within their bounds -/

/-- A byte waiting for the sample is not the ready byte (41_command.md R130). -/
abbrev WaitPos.ok : WaitPos → Prop
  | .load | .exchange => True
  | .sample b => b ≠ 0xFF

/-- The budgets of R132 and R133 (a poll of no exchanges still makes one); only the stop variant polls its budget, and it
never waits. -/
abbrev CmdPos.ok (c : Params) (idx : BitVec 6) : CmdPos → Prop
  | .wait p => idx ≠ 12 ∧ p.ok
  | .frame n => n < 6
  | .poll n => idx ≠ 12 ∧ n ≤ c.respPoll ∧ (1 ≤ n ∨ c.respPoll = 0)
  | .stopPoll n _ => idx = 12 ∧ 1 ≤ n ∧ n ≤ c.stopBudget
  | .record _ => True

/-- Payload bytes below SECTOR_SIZE (42_block_io.md R183). -/
abbrev RcvPos.ok (c : Params) : RcvPos → Prop
  | .payload i | .store i _ => i < c.sectorSize
  | .load | .token | .sample | .crc1 | .crc2 => True

/-- Payload bytes below SECTOR_SIZE (R184). -/
abbrev XmtPos.ok (c : Params) : XmtPos → Prop
  | .wait p => p.ok
  | .fetch i | .send i _ => i < c.sectorSize
  | .token | .crc1 | .crc2 | .response => True

/-- READ in its transaction: accepted by validation, the card selected (R181, R188). -/
abbrev State.reading (s : State) : Prop := s.readRejection = none ∧ s.csa = true

/-- WRITE in its transaction (R182, R189). -/
abbrev State.writing (s : State) : Prop := s.writeRejection = none ∧ s.csa = true

/-- READ's positions: the block count never passes CNT, and only a count above 1 stops the transmission (R188, R194). -/
abbrev ReadPos.ok (s : State) : ReadPos → Prop
  | .start | .finish _ => True
  | .command p => s.reading ∧ p.ok s.params s.readIndex
  | .block k p => s.reading ∧ k < s.cnt.toNat ∧ p.ok s.params
  | .stop k p => s.reading ∧ s.single = false ∧ k ≤ s.cnt.toNat ∧ p.ok s.params 12
  | .release k => s.reading ∧ k ≤ s.cnt.toNat
  | .trailer k n =>
    s.readRejection = none ∧ k ≤ s.cnt.toNat ∧ 1 ≤ n ∧ n ≤ s.params.deselectTrailer
  | .record k => s.readRejection = none ∧ k ≤ s.cnt.toNat

/-- WRITE's positions (R189, R194): an Ok verdict means that all blocks were accepted. -/
abbrev WritePos.ok (s : State) : WritePos → Prop
  | .start | .finish _ => True
  | .appPrefix p => s.writing ∧ s.single = false ∧ s.preErase = true ∧ p.ok s.params 55
  | .count p => s.writing ∧ s.single = false ∧ s.preErase = true ∧ p.ok s.params 23
  | .command p => s.writing ∧ p.ok s.params s.writeIndex
  | .block k p => s.writing ∧ k < s.cnt.toNat ∧ p.ok s.params
  | .stopWait k p => s.writing ∧ s.single = false ∧ k ≤ s.cnt.toNat ∧ p.ok
  | .stopToken k _ => s.writing ∧ s.single = false ∧ k ≤ s.cnt.toNat
  | .release k ok => s.writing ∧ k ≤ s.cnt.toNat ∧ (ok = true → k = s.cnt.toNat)
  | .trailer k ok n =>
    s.writeRejection = none ∧ k ≤ s.cnt.toNat ∧ (ok = true → k = s.cnt.toNat) ∧
    1 ≤ n ∧ n ≤ s.params.deselectTrailer
  | .record k ok => s.writeRejection = none ∧ k ≤ s.cnt.toNat ∧ (ok = true → k = s.cnt.toNat)

/-- The place of the running operation. -/
abbrev Activity.ok (s : State) : Activity → Prop
  | .nop | .reserved | .select _ | .xmit _ | .rcvr _ => True
  | .deselect (.trailer n) => 1 ≤ n ∧ n ≤ s.params.deselectTrailer
  | .deselect .release | .deselect .finish => True
  | .clktrain (.train n) => 1 ≤ n ∧ n ≤ s.params.trainBytes
  | .clktrain .release | .clktrain .finish => True
  | .waitready (.wait p) => p.ok
  | .waitready (.record _) | .waitready (.finish _) => True
  | .sendcmd (.command p) => p.ok s.params s.commandIndex
  | .sendcmd (.finish _) => True
  | .sendacmd (.appPrefix p) => p.ok s.params 55
  | .sendacmd (.command p) => p.ok s.params s.commandIndex
  | .sendacmd (.finish _) => True
  | .rcvrblk (.block p) => p.ok s.params
  | .rcvrblk (.record _) | .rcvrblk (.finish _) => True
  | .xmitblk (.block p) => p.ok s.params
  | .xmitblk (.record _) | .xmitblk (.finish _) => True
  | .read p => p.ok s
  | .write p => p.ok s

/-- The sequencer stands at a place its operation reaches. -/
abbrev State.placeOk (s : State) : Prop :=
  match s.seq with
  | .idle => True
  | .running a => a.ok s

/-! ### The chip-select line and the bus history -/

/-- The line after these events, from `l`. -/
def lineAfter : Bool → List BusEvent → Bool
  | l, [] => l
  | _, .cs v :: es => lineAfter v es
  | l, .xfer _ _ _ _ :: es => lineAfter l es

/-- Each exchange records the line as the events before it left it. -/
def recordsLine : Bool → List BusEvent → Bool
  | _, [] => true
  | _, .cs v :: es => recordsLine v es
  | l, .xfer c _ _ _ :: es => (c == l) && recordsLine l es

/-- CTRL.CSA is what the last `cs` event since reset left, and every exchange recorded it (00_scope.md R13, 10_state.md
R45). -/
abbrev State.lineOk (s : State) : Prop :=
  lineAfter false s.bus = s.csa ∧ recordsLine false s.bus = true

/-- All of it. -/
abbrev State.inv (s : State) : Prop :=
  s.registersOk ∧ s.coherent ∧ s.placeOk ∧ s.lineOk ∧ s.memoryOk

end Sys2Proof.Machine
end

