-- ==== Sys2Proof/Certificates/Slice0/Obligations.lean ====
section
/-! DEFINITION. The statements about the model, each with the rule of the spec it formalises. Their numbers are the
parameters of the state's instance (00_scope.md R8, R9); the spec's values are those of ResetValues. -/

open Sys2Proof Sys2Proof.Machine

/-! ### Encoding -/

/-- Decoding what a well-formed instruction encodes to, in its place, gives it back: all rows, all operands, in every
instance whose codes tell the rows apart. -/
def Obligations.DecodeOfEncodeIsTheInstruction : Prop :=
  ∀ (p : Params) (i : Instr), codesDistinct p → i.wf p = true → decode p i.space (encode p i) = .ok i

/-- The other direction: whatever the decoder accepts is the encoding of a well-formed row of that place, so no two byte
strings of a place mean the same instruction. -/
def Obligations.EncodeOfDecodeIsTheBytes : Prop :=
  ∀ (p : Params) (place : Space) (bs : List Byte) (i : Instr),
    decode p place bs = .ok i → encode p i = bs ∧ i.space = place ∧ i.wf p = true

/-- R61, R84, R86: the six bytes of the frame of every index and argument: the opcode byte, with bits 7:6 = 01 for the
hardware's prefix 0x40, the argument most significant byte first, the checksum byte by the index alone. -/
def Obligations.FrameLayout : Prop :=
  (∀ (p : Params) (idx : BitVec 6) (arg : Word), ∃ b0 b5 : Byte,
    encode p (commandRow idx arg) =
      [b0, arg.extractLsb' 24 8, arg.extractLsb' 16 8, arg.extractLsb' 8 8, arg.extractLsb' 0 8, b5] ∧
    b0 = p.opcodePrefix ||| idx.zeroExtend 8 ∧
    (p.opcodePrefix = 0x40 → b0.extractLsb' 6 2 = 1#2 ∧ b0.extractLsb' 0 6 = idx) ∧
    b5 = (if idx = 0 then p.cksumCmd0 else if idx = 8 then p.cksumCmd8 else p.fillerChecksum)) ∧
  Config.params.opcodePrefix = 0x40 ∧ Config.params.cksumCmd0 = 0x95 ∧ Config.params.cksumCmd8 = 0x87 ∧
  Config.params.fillerChecksum = 0x01

/-- Words written out from the spec's tables (R81, R90, R94 and the vectors E2, E3, E5, E6) decode, in the hardware's own
instance, to the rows they stand for. -/
def Obligations.SpecWordsDecode : Prop :=
  decode Config.params .opr [0x31] = .ok .write ∧ decode Config.params .opr [0x07] = .ok (.reserved 0x07) ∧
  decode Config.params .frame [0x40, 0x00, 0x00, 0x00, 0x00, 0x95] = .ok (.goIdle 0) ∧
  decode Config.params .frame [0x48, 0x00, 0x00, 0x01, 0xAA, 0x87] = .ok (.sendIfCond 0x1AA) ∧
  decode Config.params .frame [0x51, 0x12, 0x34, 0x56, 0x78, 0x01] = .ok (.readSingleBlock 0x12345678) ∧
  decode Config.params .frame [0x7F, 0xFF, 0xFF, 0xFF, 0xFF, 0x01] = .ok (.sdcmdOther 63 0xFFFFFFFF) ∧
  decode Config.params .token [0xFC] = .ok .tokenStartMulti ∧
  decode Config.params .dataResponse [0xE5] = .ok (.dataResponseAccepted 0xE5) ∧
  decode Config.params .r1 [0x01] = .ok (.r1Valid 1)

/-! ### Host access to the registers -/

/-- R41, with the offsets and widths of R22: a host load of any register returns its current value and changes nothing
else, whatever BUSY is. The last clause says the same by the names of the registers. -/
def Obligations.HostLoadReturnsTheRegister : Prop :=
  ∀ (s : State) (rest : List Action),
    let loads (w : Width) (off : BitVec 5) (value : Word) :=
      s.env = .load w off :: rest → step s = .next { s with env := rest, rdata := value }
    loads .b1 0x00 (s.opr.zeroExtend 32) ∧ loads .b1 0x01 (s.ctrl.zeroExtend 32) ∧
    loads .b1 0x02 (s.stat.zeroExtend 32) ∧ loads .b1 0x03 (s.result.zeroExtend 32) ∧
    loads .b1 0x04 (s.dstatus.zeroExtend 32) ∧ loads .b1 0x05 (s.ctype.zeroExtend 32) ∧
    loads .b1 0x06 (s.data.zeroExtend 32) ∧ loads .b1 0x07 (s.r1.zeroExtend 32) ∧
    loads .b1 0x08 (s.cmdidx.zeroExtend 32) ∧ loads .b1 0x09 (s.drv.zeroExtend 32) ∧
    loads .b1 0x0A (s.tshort.zeroExtend 32) ∧ loads .b1 0x0B (s.tlong.zeroExtend 32) ∧
    loads .b4 0x0C s.arg ∧ loads .b2 0x10 (s.buf.zeroExtend 32) ∧
    loads .b2 0x12 (s.cnt.zeroExtend 32) ∧ loads .b2 0x14 (s.blkdone.zeroExtend 32) ∧
    ∀ r : Reg, loads r.width r.offset (s.readReg r)

/-- R21 with R40: an access that is not at a register's own offset and full width faults; a store while BUSY faults as
WriteWhileBusy first (log entry 10). -/
def Obligations.MisplacedAccessFaults : Prop :=
  ∀ (s : State) (w : Width) (off : BitVec 5) (v : Word) (rest : List Action),
    (∀ r : Reg, ¬(r.offset = off ∧ r.width = w)) →
      (s.env = .load w off :: rest → step s = .fault .registerAccess) ∧
      (s.env = .store w off v :: rest →
        step s = .fault (if s.busy then .writeWhileBusy else .registerAccess))

/-- R40, with R24, R27, R29, R33, R210: a store while BUSY = 1 faults at any offset; while BUSY = 0 an RW register takes
the value with its reserved bits dropped and a store to an RO register changes nothing. OPR takes its value and sets BUSY;
the rest of that store is OprStoreStartsTheOperation. That a counter drops the bits above TIMER_WIDTH is read from R210
(DEDUCED, log entry 16), and that WriteWhileBusy comes first at an offset or width no register has is the model's choice
(DESIGN CHOICE, log entry 10). -/
def Obligations.HostStoreEffect : Prop :=
  ∀ (s : State) (v : Word) (rest : List Action),
    (s.busy = true → ∀ (w : Width) (off : BitVec 5), s.env = .store w off v :: rest →
      step s = .fault .writeWhileBusy) ∧
    (s.busy = false →
      (s.env = .store .b1 0x00 v :: rest →
        ∃ t, step s = .next t ∧ t.opr = v.truncate 8 ∧ t.busy = true ∧ t = { s with
          env := rest, opr := t.opr, stat := t.stat, seq := t.seq }) ∧
      (s.env = .store .b1 0x01 v :: rest →
        step s = .next { s with env := rest, ctrl := (s.ctrl &&& 0x01) ||| (v.truncate 8 &&& 0x02) }) ∧
      (∀ off : BitVec 5, (off = 0x02 ∨ off = 0x03 ∨ off = 0x07) → s.env = .store .b1 off v :: rest →
        step s = .next { s with env := rest }) ∧
      (s.env = .store .b1 0x04 v :: rest → step s = .next { s with env := rest, dstatus := v.truncate 8 &&& 0x07 }) ∧
      (s.env = .store .b1 0x05 v :: rest → step s = .next { s with env := rest, ctype := v.truncate 8 &&& 0x03 }) ∧
      (s.env = .store .b1 0x06 v :: rest → step s = .next { s with env := rest, data := v.truncate 8 }) ∧
      (s.env = .store .b1 0x08 v :: rest → step s = .next { s with env := rest, cmdidx := v.truncate 8 &&& 0x3F }) ∧
      (s.env = .store .b1 0x09 v :: rest → step s = .next { s with env := rest, drv := v.truncate 8 }) ∧
      (s.env = .store .b1 0x0A v :: rest →
        step s = .next { s with env := rest, tshort := BitVec.ofNat 8 (v.toNat % 2 ^ s.params.timerWidth) }) ∧
      (s.env = .store .b1 0x0B v :: rest →
        step s = .next { s with env := rest, tlong := BitVec.ofNat 8 (v.toNat % 2 ^ s.params.timerWidth) }) ∧
      (s.env = .store .b4 0x0C v :: rest → step s = .next { s with env := rest, arg := v }) ∧
      (s.env = .store .b2 0x10 v :: rest → step s = .next { s with env := rest, buf := v.truncate 16 }) ∧
      (s.env = .store .b2 0x12 v :: rest → step s = .next { s with env := rest, cnt := v.truncate 16 }) ∧
      (s.env = .store .b2 0x14 v :: rest → step s = .next { s with env := rest }))

/-- R23, R38: a host store of c to OPR with BUSY = 0 stores c, sets BUSY and starts the operation c decodes to at its first
position, in the same step, and changes nothing else; with BUSY = 1 it faults; OPR then reads c; no engine step writes
OPR. -/
def Obligations.OprStoreStartsTheOperation : Prop :=
  (∀ (s : State) (c : Byte) (rest : List Action), s.env = .store .b1 0x00 (c.zeroExtend 32) :: rest →
    (s.busy = true → step s = .fault .writeWhileBusy) ∧
    (s.busy = false → ∃ (t : State) (a : Activity), step s = .next t ∧
      firstPosition (decodeOpr c) s = some a ∧
      t = { s with env := rest, opr := c, stat := t.stat, seq := .running a } ∧
      t.busy = true ∧ t.stat &&& 0xFE = s.stat &&& 0xFE ∧
      a.instr t = decodeOpr c ∧ t.readReg .opr = c.zeroExtend 32)) ∧
  (∀ s t : State, engine s = .next t → t.opr = s.opr)

/-! ### Starting an operation, and the step that runs an instruction -/

/-- R23, R38: with BUSY = 0 every operation code's meaning answers the start of its operation, at the operation's first
position: OPR, BUSY and the sequencer change, nothing else. The 13 operations and RESERVED. That exec of an operation is
its OPR store while BUSY = 0 (and one engine step while it runs) is the model's choice (DESIGN CHOICE, log entry 15). -/
def Obligations.OperationsStart : Prop :=
  ∀ (i : Instr) (s : State), i.space = .opr → s.busy = false →
    ∃ (t : State) (a : Activity), exec i s = .next t ∧ encode s.params i = [t.opr] ∧ firstPosition i s = some a ∧
      t = { s with opr := t.opr, stat := t.stat, seq := .running a } ∧ t.busy = true ∧
      t.stat &&& 0xFE = s.stat &&& 0xFE ∧ a.instr t = i

/-- A step runs the decoded instruction. The host's store to OPR with BUSY = 0: exec of what the byte decodes to, on the
state with that action taken off. An engine turn with an operation running: exec of the row the sequencer stands at. The
actions of the environment, the row as what an engine step runs, and exec as one atomic step are the model's choices
(DESIGN CHOICE, log entries 1, 5, 15). -/
def Obligations.StepRunsTheDecodedInstruction : Prop :=
  (∀ (s : State) (c : Byte) (rest : List Action), s.busy = false →
    s.env = .store .b1 0x00 (c.zeroExtend 32) :: rest →
      step s = exec (decodeOpr c) { s with env := rest }) ∧
  (∀ (s : State) (a : Activity) (rest : List Action), s.busy = true → s.seq = .running a →
    s.env = .engine :: rest → step s = exec (fetch a { s with env := rest }) { s with env := rest })

/-! ### Transport operations, from the OPR store to finish -/

/-- R114. -/
def Obligations.NopRuns : Prop :=
  ∀ s : State, s.busy = false →
    runsTo .nop 1 s { s with opr := 0x00, result := 0x00, seq := .idle }

/-- R115, R116: whatever the line was, its `cs` event is recorded and CTRL.CSA follows it; SELECT exchanges no byte,
DESELECT the DESELECT_TRAILER fillers (none by default), the line released. -/
def Obligations.SelectAndDeselectRun : Prop :=
  ∀ s : State, s.busy = false →
    (∃ t, runsTo .select 2 s t ∧ t.csa = true ∧ t.ctrl &&& 0xFE = s.ctrl &&& 0xFE ∧
      t = { s with opr := 0x01, result := 0x00, seq := .idle, ctrl := t.ctrl, bus := s.bus ++ [.cs true] }) ∧
    (∃ t received, runsTo .deselect (s.params.deselectTrailer + 2) s t ∧
      received.length = s.params.deselectTrailer ∧ t.csa = false ∧ t.ctrl &&& 0xFE = s.ctrl &&& 0xFE ∧
      t = { s with
        opr := 0x02, result := 0x00, seq := .idle, ctrl := t.ctrl, card := s.card.drop s.params.deselectTrailer
        bus := s.bus ++ .cs false ::
          exchanges false s.clksel (fillers s.params s.params.deselectTrailer) received })

/-- R117, R118: XMIT exchanges DATA once, whatever the card answers, and keeps it; RCVR exchanges one filler and DATA
holds what the card answered. CS is not changed; the event carries the line and the clock select as they are. -/
def Obligations.XmitAndRcvrRun : Prop :=
  ∀ s : State, s.busy = false →
    runsTo .xmit 2 s { s with
      opr := 0x03, result := 0x00, seq := .idle, card := s.card.tail
      bus := s.bus ++ [.xfer s.csa s.clksel s.data s.nextByte] } ∧
    runsTo .rcvr 3 s { s with
      opr := 0x04, result := 0x00, seq := .idle, data := s.nextByte, card := s.card.tail
      bus := s.bus ++ [.xfer s.csa s.clksel s.params.filler s.nextByte] }

/-- R119: CS deasserted, then exactly TRAIN_BYTES (ten) fillers, whatever the card answers. -/
def Obligations.ClktrainRuns : Prop :=
  ∀ s : State, s.busy = false → ∃ (t : State) (received : List Byte),
    runsTo .clktrain (s.params.trainBytes + 2) s t ∧ received.length = s.params.trainBytes ∧
    t.csa = false ∧ t.ctrl &&& 0xFE = s.ctrl &&& 0xFE ∧
    t = { s with
      opr := 0x05, result := 0x00, seq := .idle, ctrl := t.ctrl, card := s.card.drop s.params.trainBytes
      bus := s.bus ++ .cs false :: exchanges false s.clksel (fillers s.params s.params.trainBytes) received }

/-- R82: exactly the codes of these ranges are reserved, and such a code finishes in one step with ParameterError and does
nothing else. -/
def Obligations.ReservedCodesRun : Prop :=
  ∀ c : Byte,
    (decodeOpr c = .reserved c ↔
      (0x06 ≤ c ∧ c ≤ 0x0F) ∨ (0x13 ≤ c ∧ c ≤ 0x1F) ∨ (0x22 ≤ c ∧ c ≤ 0x2F) ∨ 0x32 ≤ c) ∧
    (decodeOpr c = .reserved c → ∀ s : State, s.busy = false →
      runsTo (.reserved c) 1 s { s with opr := c, result := 0x04, seq := .idle })

/-! ### The ready wait -/

/-- R130, R135: each step of WAITREADY. The wait loads SHORT_BUDGET; an exchange of a filler ends it when 0xFF comes back,
whatever the counter holds; else the counter is sampled, and 0 ends it; then DATA and RESULT. And R183, R184: each step of
the ready wait before XMITBLK's token and of the wait for RCVRBLK's token, which a filler keeps going while the sample is not
0. (The samples of 0 of those two are WaitFailsWhenTheCounterIsZero.) -/
def Obligations.WaitReadySteps : Prop :=
  ∀ s : State, s.busy = true →
    (s.seq = .running (.waitready (.wait .load)) → exec .waitready s =
      .next { s with tshort := shortLoad s.params, seq := .running (.waitready (.wait .exchange)) }) ∧
    (s.seq = .running (.waitready (.wait .exchange)) → exec .waitready s =
      .next { s with
        card := s.card.tail, bus := s.bus ++ [.xfer s.csa s.clksel s.params.filler s.nextByte]
        seq := .running (.waitready
          (if s.nextByte = 0xFF then .record 0xFF else .wait (.sample s.nextByte))) }) ∧
    (∀ b, s.seq = .running (.waitready (.wait (.sample b))) → exec .waitready s =
      .next { s with seq := .running (.waitready (if s.tshort = 0 then .record b else .wait .exchange)) }) ∧
    (∀ b, s.seq = .running (.waitready (.record b)) → exec .waitready s =
      .next { s with
        data := b, seq := .running (.waitready (.finish (if b = 0xFF then .ok else .error))) }) ∧
    (∀ res, s.seq = .running (.waitready (.finish res)) → ∃ t, exec .waitready s = .next t ∧
      t.busy = false ∧ t = { s with result := res.code, seq := .idle, stat := t.stat }) ∧
    (s.seq = .running (.xmitblk (.block (.wait .load))) → exec .xmitblk s =
      .next { s with tshort := shortLoad s.params, seq := .running (.xmitblk (.block (.wait .exchange))) }) ∧
    (s.seq = .running (.xmitblk (.block (.wait .exchange))) → exec .xmitblk s =
      .next { s with
        card := s.card.tail, bus := s.bus ++ [.xfer s.csa s.clksel s.params.filler s.nextByte]
        seq := .running (.xmitblk (.block
          (if s.nextByte = 0xFF then .token else .wait (.sample s.nextByte)))) }) ∧
    (∀ b, s.tshort ≠ 0 → s.seq = .running (.xmitblk (.block (.wait (.sample b)))) → exec .xmitblk s =
      .next { s with seq := .running (.xmitblk (.block (.wait .exchange))) }) ∧
    (s.seq = .running (.rcvrblk (.block .load)) → exec .rcvrblk s =
      .next { s with tshort := shortLoad s.params, seq := .running (.rcvrblk (.block .token)) }) ∧
    (s.nextByte = 0xFF → s.seq = .running (.rcvrblk (.block .token)) → exec .rcvrblk s =
      .next { s with
        card := s.card.tail, bus := s.bus ++ [.xfer s.csa s.clksel s.params.filler 0xFF]
        seq := .running (.rcvrblk (.block .sample)) }) ∧
    (s.tshort ≠ 0 → s.seq = .running (.rcvrblk (.block .sample)) → exec .rcvrblk s =
      .next { s with seq := .running (.rcvrblk (.block .token)) })

/-- R135, vectors C1 and C2: with no ticks, a card that is busy for some bytes and then ready ends the wait with Ok (the
budget being no 0 tick). -/
def Obligations.WaitReadySucceeds : Prop :=
  ∀ (s : State) (notReady rest : List Byte), s.busy = false →
    shortLoad s.params ≠ 0 → s.card = notReady ++ 0xFF :: rest → (∀ b ∈ notReady, b ≠ 0xFF) →
      runsTo .waitready (2 * notReady.length + 4) s { s with
        opr := 0x10, tshort := shortLoad s.params, data := 0xFF, result := 0x00, seq := .idle, card := rest
        bus := s.bus ++ exchanges s.csa s.clksel (fillers s.params (notReady.length + 1)) (notReady ++ [0xFF]) }

/-- R130, R132, R135, R183, R184, R187 to R189, R213: once T_SHORT is 0 at the sample of a wait, the wait fails. WAITREADY
ends with Error and the last byte in DATA, SENDCMD with Error and 0xFF in R1 and no frame sent, RCVRBLK with Error and
nothing written, XMITBLK with Error and no token sent. READ's wait for a token and WRITE's ready wait before a token stop
their loop: with CNT = 1 the card is released, no block counted; else READ goes on to its stop command and WRITE to its
stop token. -/
def Obligations.WaitFailsWhenTheCounterIsZero : Prop :=
  ∀ (s : State) (b : Byte), s.busy = true → s.tshort = 0 → b ≠ 0xFF →
    (s.seq = .running (.waitready (.wait (.sample b))) → ∃ t, engineRun 3 s = .next t ∧ t.busy = false ∧
      t = { s with data := b, result := 0x01, seq := .idle, stat := t.stat }) ∧
    (s.seq = .running (.sendcmd (.command (.wait (.sample b)))) → ∃ t, engineRun 3 s = .next t ∧ t.busy = false ∧
      t = { s with r1 := 0xFF, result := 0x01, seq := .idle, stat := t.stat }) ∧
    (s.seq = .running (.rcvrblk (.block .sample)) → ∃ t, engineRun 3 s = .next t ∧ t.busy = false ∧
      t = { s with blkdone := 0, result := 0x01, seq := .idle, stat := t.stat }) ∧
    (s.seq = .running (.xmitblk (.block (.wait (.sample b)))) → ∃ t, engineRun 3 s = .next t ∧ t.busy = false ∧
      t = { s with blkdone := 0, result := 0x01, seq := .idle, stat := t.stat }) ∧
    (∀ k, s.seq = .running (.read (.block k .sample)) → exec .read s = .next { s with
      seq := .running (.read (if s.cnt = 1 then .release 0 else .stop k (.frame 0))) }) ∧
    (∀ k, s.seq = .running (.write (.block k (.wait (.sample b)))) → exec .write s = .next { s with
      seq := .running (.write (if s.cnt = 1 then .release 0 false else .stopWait k .load)) })

/-! ### Commands -/

/-- R132, R136: SENDCMD of an index other than 12 to a card that is ready at once: the frame goes out, the response is
the first byte with bit 7 clear, or the RESP_POLL-th (tenth); R1 holds it, and RESULT says whether it is valid. -/
def Obligations.SendcmdTransaction : Prop :=
  ∀ (s : State) (junk invalid rest : List Byte) (r : Byte), s.busy = false → s.commandIndex ≠ 12 →
    s.card = 0xFF :: (junk ++ (invalid ++ r :: rest)) → junk.length = 6 → (∀ b ∈ invalid, b.getLsbD 7 = true) →
    (r.getLsbD 7 = false ∧ invalid.length < s.params.respPoll ∨ invalid.length + 1 = s.params.respPoll) →
      runsTo .sendcmd (invalid.length + 11) s { s with
        opr := 0x11, tshort := shortLoad s.params, r1 := r, result := (if r.getLsbD 7 then 0x01 else 0x00)
        seq := .idle, card := rest
        bus := s.bus ++ exchanges s.csa s.clksel
          (s.params.filler ::
            (encode s.params (commandRow s.commandIndex s.arg) ++ fillers s.params (invalid.length + 1)))
          (0xFF :: (junk ++ (invalid ++ [r]))) }

/-- R133, R136: SENDCMD of index 12 waits for nothing, sends the stop frame, reads exactly STOP_BUDGET (ten) bytes and
keeps the last one that is not 0xFF; T_SHORT is not touched. -/
def Obligations.SendcmdStopTransaction : Prop :=
  ∀ (s : State) (junk polled rest : List Byte), s.busy = false → s.commandIndex = 12 →
    s.card = junk ++ (polled ++ rest) → junk.length = 6 → polled.length = s.params.stopBudget →
      runsTo .sendcmd (s.params.stopBudget + 8) s { s with
        opr := 0x11, r1 := lastNonFiller polled, seq := .idle, card := rest
        result := (if (lastNonFiller polled).getLsbD 7 then 0x01 else 0x00)
        bus := s.bus ++ exchanges s.csa s.clksel
          (encode s.params (.stopTransmission s.arg) ++ fillers s.params s.params.stopBudget) (junk ++ polled) }

/-- R134, R137, R139: after the prefix's response p, SENDACMD goes on with its command when p is at most IDLE_R1 (0x00 or
0x01), and otherwise finishes with that response, Ok exactly when its bit 7 is clear. -/
def Obligations.SendacmdPrefixDecides : Prop :=
  ∀ (s : State) (p : Byte), s.busy = true → s.seq = .running (.sendacmd (.appPrefix (.record p))) →
    exec .sendacmd s = .next { s with
      r1 := p
      seq := .running (.sendacmd
        (if p ≤ s.params.idleR1 then .command (if s.commandIndex = 12 then .frame 0 else .wait .load)
         else .finish (if p.getLsbD 7 then .error else .ok))) }

/-- R134, R137, vector C10: SENDACMD to a card that is ready at once and answers both frames at once sends the index-55
frame with argument 0, then its own. -/
def Obligations.SendacmdTransaction : Prop :=
  ∀ (s : State) (junk junk' rest : List Byte) (p r : Byte), s.busy = false → s.commandIndex ≠ 12 →
    s.params.respPoll ≠ 0 → s.card = 0xFF :: (junk ++ p :: 0xFF :: (junk' ++ r :: rest)) → junk.length = 6 → junk'.length = 6 →
    p ≤ s.params.idleR1 → p.getLsbD 7 = false → r.getLsbD 7 = false →
      runsTo .sendacmd 21 s { s with
        opr := 0x12, tshort := shortLoad s.params, r1 := r, result := 0x00, seq := .idle, card := rest
        bus := s.bus ++ exchanges s.csa s.clksel
          (s.params.filler :: (encode s.params (.appCmd 0) ++ s.params.filler :: s.params.filler ::
            (encode s.params (commandRow s.commandIndex s.arg) ++ [s.params.filler])))
          (0xFF :: (junk ++ p :: 0xFF :: (junk' ++ [r]))) }

/-- R130 to R133: every command row, where the sequencer stands in its command, answers the step its sub-sequence has
there. All sixteen rows with an index and an argument. That a command row is the engine step at the place it stands is the
model's choice (DESIGN CHOICE, log entry 5). -/
def Obligations.CommandRowsStep : Prop :=
  ∀ (i : Instr) (idx : BitVec 6) (arg : Word) (a : Activity) (p : CmdPos) (s : State),
    i.frame? = some (idx, arg) → s.busy = true → s.seq = .running a → a.command? s = some (idx, arg, p) →
      (p = .wait .load →
        exec i s = .next { s with tshort := shortLoad s.params, seq := .running (a.withCommand (.wait .exchange)) }) ∧
      (p = .wait .exchange → exec i s = .next { s with
        card := s.card.tail, bus := s.bus ++ [.xfer s.csa s.clksel s.params.filler s.nextByte]
        seq := .running (a.withCommand
          (if s.nextByte = 0xFF then .frame 0 else .wait (.sample s.nextByte))) }) ∧
      (∀ b, b ≠ 0xFF → p = .wait (.sample b) → exec i s = .next { s with
        seq := .running (a.withCommand (if s.tshort = 0 then .record 0xFF else .wait .exchange)) }) ∧
      (∀ n, n < 6 → p = .frame n → exec i s = .next { s with
        card := s.card.tail
        bus := s.bus ++ [.xfer s.csa s.clksel ((frameBytes s.params idx arg).getD n 0) s.nextByte]
        seq := .running (a.withCommand
          (if n < 5 then .frame (n + 1)
           else if idx = 12 then
             (if s.params.stopBudget = 0 then .record 0xFF else .stopPoll s.params.stopBudget 0xFF)
           else .poll s.params.respPoll)) }) ∧
      (∀ n, 1 ≤ n → p = .poll n → exec i s = .next { s with
        card := s.card.tail, bus := s.bus ++ [.xfer s.csa s.clksel s.params.filler s.nextByte]
        seq := .running (a.withCommand
          (if s.nextByte.getLsbD 7 = false ∨ n = 1 then .record s.nextByte else .poll (n - 1))) }) ∧
      (∀ n last, 1 ≤ n → p = .stopPoll n last → exec i s = .next { s with
        card := s.card.tail, bus := s.bus ++ [.xfer s.csa s.clksel s.params.filler s.nextByte]
        seq := .running (a.withCommand
          (if n = 1 then .record (if s.nextByte = 0xFF then last else s.nextByte)
           else .stopPoll (n - 1) (if s.nextByte = 0xFF then last else s.nextByte))) }) ∧
      (∀ r, p = .record r → exec i s = .next { s with
        r1 := r, seq := .running (a.afterCommand r s) })

/-- R88, R132: where a command polls for its response and the card's next byte has bit 7 clear, the R1 row answers the
step that takes it. That the R1 row is the poll step that receives it is the model's choice (DESIGN CHOICE, log entry
5). -/
def Obligations.ValidResponseIsTaken : Prop :=
  ∀ (e : BitVec 7) (idx : BitVec 6) (arg : Word) (a : Activity) (n : Nat) (s : State),
    s.busy = true → s.seq = .running a → a.command? s = some (idx, arg, .poll n) → s.nextByte = 0#1 ++ e →
      exec (.r1Valid e) s = .next { s with
        card := s.card.tail, bus := s.bus ++ [.xfer s.csa s.clksel s.params.filler (0#1 ++ e)]
        seq := .running (a.withCommand (.record (0#1 ++ e))) }

/-! ### Tokens and data responses -/

/-- R90, R184, R185, R187, R189: each written token's row, where the sequencer is about to send that token, answers the
exchange of it; a start token is followed by the payload, the stop token by none. That a token row is the step that sends
it is the model's choice (DESIGN CHOICE, log entry 5). -/
def Obligations.WrittenTokensAreSent : Prop :=
  ∀ s : State, s.busy = true → codesDistinct s.params → s.params.sectorSize ≠ 0 →
    (s.data = s.params.tokenSingle → s.seq = .running (.xmitblk (.block .token)) →
      exec .tokenStartSingle s = .next { s with
        card := s.card.tail, bus := s.bus ++ [.xfer s.csa s.clksel s.params.tokenSingle s.nextByte]
        seq := .running (.xmitblk (.block (.fetch 0))) }) ∧
    (s.data = s.params.tokenMulti → s.seq = .running (.xmitblk (.block .token)) →
      exec .tokenStartMulti s = .next { s with
        card := s.card.tail, bus := s.bus ++ [.xfer s.csa s.clksel s.params.tokenMulti s.nextByte]
        seq := .running (.xmitblk (.block (.fetch 0))) }) ∧
    (∀ k, s.cnt = 1 → s.seq = .running (.write (.block k .token)) → exec .tokenStartSingle s = .next { s with
      card := s.card.tail, bus := s.bus ++ [.xfer s.csa s.clksel s.params.tokenSingle s.nextByte]
      seq := .running (.write (.block k (.fetch 0))) }) ∧
    (∀ k, s.cnt ≠ 1 → s.seq = .running (.write (.block k .token)) → exec .tokenStartMulti s = .next { s with
      card := s.card.tail, bus := s.bus ++ [.xfer s.csa s.clksel s.params.tokenMulti s.nextByte]
      seq := .running (.write (.block k (.fetch 0))) }) ∧
    (∀ k ready, s.seq = .running (.write (.stopToken k ready)) → exec .tokenStop s = .next { s with
      card := s.card.tail, bus := s.bus ++ [.xfer s.csa s.clksel s.params.tokenStop s.nextByte]
      seq := .running (.write (.release k (decide (k = s.cnt.toNat) && ready))) }) ∧
    (s.data = s.params.tokenStop → s.seq = .running (.xmitblk (.block .token)) → exec .tokenStop s = .next { s with
      card := s.card.tail, bus := s.bus ++ [.xfer s.csa s.clksel s.params.tokenStop s.nextByte]
      seq := .running (.xmitblk (.record true)) })

/-- R183, R90, R92, R184: where a block is awaited and the card sends the read token, the payload follows; where a data
response is awaited and the card sends an accepted one, the block counts as accepted. That these rows are the steps that
receive the byte is the model's choice (DESIGN CHOICE, log entry 5). -/
def Obligations.CardTokensAreTaken : Prop :=
  ∀ s : State, s.busy = true →
    (s.params.readToken ≠ 0xFF → s.params.sectorSize ≠ 0 → s.nextByte = s.params.readToken →
      (s.seq = .running (.rcvrblk (.block .token)) → exec .tokenReadStart s = .next { s with
        card := s.card.tail, bus := s.bus ++ [.xfer s.csa s.clksel s.params.filler s.params.readToken]
        seq := .running (.rcvrblk (.block (.payload 0))) }) ∧
      (∀ k, s.seq = .running (.read (.block k .token)) → exec .tokenReadStart s = .next { s with
        card := s.card.tail, bus := s.bus ++ [.xfer s.csa s.clksel s.params.filler s.params.readToken]
        seq := .running (.read (.block k (.payload 0))) })) ∧
    (∀ d : Byte, s.nextByte = d → d &&& s.params.drespMask = s.params.drespOk →
      (s.seq = .running (.xmitblk (.block .response)) → exec (.dataResponseAccepted d) s = .next { s with
        card := s.card.tail, bus := s.bus ++ [.xfer s.csa s.clksel s.params.filler d]
        seq := .running (.xmitblk (.record true)) }) ∧
      (∀ k, s.seq = .running (.write (.block k .response)) → exec (.dataResponseAccepted d) s = .next { s with
        card := s.card.tail, bus := s.bus ++ [.xfer s.csa s.clksel s.params.filler d]
        seq := .running (.write (s.afterWriteBlock k true)) }))

/-! ### Blocks -/

/-- R183, R186: RCVRBLK with n leading fillers (0xFF, as the card sends them), then the read token, and an admitted
buffer, with no ticks: n + SECTOR_SIZE + 3 = n + 515 exchanges (517 in R186's example), the 512 payload bytes at BUF in
order, every other byte of host memory as before, BLKDONE = 1, Ok (the budget being no 0 tick where a filler leads). -/
def Obligations.RcvrblkTransaction : Prop :=
  ∀ (s : State) (n : Nat) (payload rest : List Byte) (c1 c2 : Byte), s.busy = false → Memory.wf s.mem →
    (n = 0 ∨ shortLoad s.params ≠ 0) → s.params.readToken ≠ 0xFF →
    s.card = List.replicate n 0xFF ++ s.params.readToken :: (payload ++ c1 :: c2 :: rest) →
    payload.length = s.params.sectorSize →
    (∀ i, i < s.params.sectorSize → s.admits (s.buf.toNat + i) = true) →
      ∃ t, runsTo .rcvrblk (2 * n + 2 * s.params.sectorSize + 6) s t ∧
        t = { s with
          opr := 0x20, tshort := shortLoad s.params, blkdone := 1, result := 0x00, seq := .idle, card := rest
          mem := t.mem
          bus := s.bus ++ exchanges s.csa s.clksel (fillers s.params (n + s.params.sectorSize + 3))
            (List.replicate n 0xFF ++ s.params.readToken :: (payload ++ [c1, c2])) } ∧
        (∀ i, i < s.params.sectorSize → Memory.read t.mem (s.buf.toNat + i) = payload.getD i 0) ∧
        (∀ a, (a < s.buf.toNat ∨ s.buf.toNat + s.params.sectorSize ≤ a) →
          Memory.read t.mem a = Memory.read s.mem a)

/-- R183, R186: a first byte that is neither the filler nor the read token fails the block, with no memory written. -/
def Obligations.RcvrblkBadToken : Prop :=
  ∀ (s : State) (t : Byte) (rest : List Byte), s.busy = false → s.card = t :: rest → t ≠ 0xFF →
    t ≠ s.params.readToken →
    runsTo .rcvrblk 4 s { s with
      opr := 0x20, tshort := shortLoad s.params, blkdone := 0, result := 0x01, seq := .idle, card := rest
      bus := s.bus ++ [.xfer s.csa s.clksel s.params.filler t] }

/-- R184, R187: XMITBLK with a token other than TOKEN_STOP, a card ready after any number of busy bytes and an admitted
buffer, with no ticks: the token, the 512 bytes at BUF in order, two CRC bytes CRC_FILL; the data response decides BLKDONE
and RESULT; host memory is only read (the budget being no 0 tick where a busy byte leads). -/
def Obligations.XmitblkTransaction : Prop :=
  ∀ (s : State) (x c1 c2 d : Byte) (notReady junk rest : List Byte), s.busy = false →
    s.data ≠ s.params.tokenStop → (notReady = [] ∨ shortLoad s.params ≠ 0) → (∀ b ∈ notReady, b ≠ 0xFF) →
    s.card = notReady ++ 0xFF :: x :: (junk ++ c1 :: c2 :: d :: rest) → junk.length = s.params.sectorSize →
    (∀ i, i < s.params.sectorSize → s.admits (s.buf.toNat + i) = true) →
      runsTo .xmitblk (2 * notReady.length + 2 * s.params.sectorSize + 8) s { s with
        opr := 0x21, tshort := shortLoad s.params, seq := .idle, card := rest
        blkdone := (if d &&& s.params.drespMask = s.params.drespOk then 1 else 0)
        result := (if d &&& s.params.drespMask = s.params.drespOk then 0x00 else 0x01)
        bus := s.bus ++ exchanges s.csa s.clksel
          (fillers s.params (notReady.length + 1) ++ s.data ::
            ((List.range s.params.sectorSize).map (fun i => Memory.read s.mem (s.buf.toNat + i)) ++
              [s.params.crcFill, s.params.crcFill, s.params.filler]))
          (notReady ++ 0xFF :: x :: (junk ++ [c1, c2, d])) }

/-- R187: with DATA = TOKEN_STOP (0xFD) only the token goes out after the ready wait; BLKDONE is 0 and the result Ok. -/
def Obligations.XmitblkStopToken : Prop :=
  ∀ (s : State) (x : Byte) (rest : List Byte), s.busy = false → s.data = s.params.tokenStop →
    s.card = 0xFF :: x :: rest →
      runsTo .xmitblk 5 s { s with
        opr := 0x21, tshort := shortLoad s.params, blkdone := 0, result := 0x00, seq := .idle, card := rest
        bus := s.bus ++ exchanges s.csa s.clksel [s.params.filler, s.params.tokenStop] [0xFF, x] }

/-- R64, R67, R192: where the sequencer is about to store or fetch payload byte i of block k, the access is made exactly
when its address BUF + SECTOR_SIZE k + i lies below 2^HOST_ADDR_WIDTH, HostMemOK admits it and it is outside the register
block; otherwise the step is HostAddress. -/
def Obligations.InadmissibleAccessFaults : Prop :=
  ∀ (s : State) (k i : Nat) (v : Byte), s.busy = true →
    let a := s.buf.toNat + s.params.sectorSize * k + i
    let admitted := a < 2 ^ s.params.hostAddrWidth ∧ (∃ r ∈ s.params.hostMemory, r.lo ≤ a ∧ a ≤ r.hi) ∧
      ¬(s.params.sdspiBase ≤ a ∧ a ≤ s.params.sdspiBase + 0x1F)
    (s.seq = .running (.read (.block k (.store i v))) →
      (¬admitted → exec .read s = .fault .hostAddress) ∧
      (admitted → ∃ t, exec .read s = .next t ∧ t.mem = Memory.write s.mem a v)) ∧
    (s.seq = .running (.write (.block k (.fetch i))) →
      (¬admitted → exec .write s = .fault .hostAddress) ∧
      (admitted → exec .write s = .next { s with
        seq := .running (.write (.block k (.send i (Memory.read s.mem a)))) })) ∧
    (k = 0 → s.seq = .running (.rcvrblk (.block (.store i v))) →
      (¬admitted → exec .rcvrblk s = .fault .hostAddress) ∧
      (admitted → ∃ t, exec .rcvrblk s = .next t ∧ t.mem = Memory.write s.mem a v)) ∧
    (k = 0 → s.seq = .running (.xmitblk (.block (.fetch i))) →
      (¬admitted → exec .xmitblk s = .fault .hostAddress) ∧
      (admitted → exec .xmitblk s = .next { s with
        seq := .running (.xmitblk (.block (.send i (Memory.read s.mem a)))) }))

/-! ### READ and WRITE -/

/-- R180: the card address of a sector, the rule's 512 read as SECTOR_SIZE (R8, R9; log entry 16). -/
def Obligations.CardAddressOfSector : Prop :=
  ∀ s : State,
    (s.ctype &&& 0x03 = 0x03 → s.cardAddress = s.arg) ∧
    (s.ctype &&& 0x03 ≠ 0x03 → s.cardAddress.toNat = s.arg.toNat * s.params.sectorSize % 2 ^ 32)

/-- R181: READ's validation, in its order; a rejected READ changes only OPR, BLKDONE and RESULT; any other proceeds, the
card selected. -/
def Obligations.ReadValidation : Prop :=
  ∀ s : State, s.busy = false →
    (s.drv ≠ 0 ∨ s.cnt = 0 →
      runsTo .read 2 s { s with opr := 0x30, blkdone := 0, result := 0x04, seq := .idle }) ∧
    (s.drv = 0 → s.cnt ≠ 0 → s.noInit = true →
      runsTo .read 2 s { s with opr := 0x30, blkdone := 0, result := 0x03, seq := .idle }) ∧
    (s.drv = 0 → s.cnt ≠ 0 → s.noInit = false →
      ∃ t, runsTo .read 1 s t ∧ t.csa = true ∧ t.seq = .running (.read (.command (.wait .load))))

/-- R182: WRITE's validation, in its order; a rejected WRITE changes only OPR, BLKDONE and RESULT; any other proceeds, the
card selected. -/
def Obligations.WriteValidation : Prop :=
  ∀ s : State, s.busy = false →
    (s.drv ≠ 0 ∨ s.cnt = 0 →
      runsTo .write 2 s { s with opr := 0x31, blkdone := 0, result := 0x04, seq := .idle }) ∧
    (s.drv = 0 → s.cnt ≠ 0 → s.noInit = true →
      runsTo .write 2 s { s with opr := 0x31, blkdone := 0, result := 0x03, seq := .idle }) ∧
    (s.drv = 0 → s.cnt ≠ 0 → s.noInit = false → s.protect = true →
      runsTo .write 2 s { s with opr := 0x31, blkdone := 0, result := 0x02, seq := .idle }) ∧
    (s.drv = 0 → s.cnt ≠ 0 → s.noInit = false → s.protect = false →
      ∃ t, runsTo .write 1 s t ∧ t.csa = true ∧
        (t.seq = .running (.write (.command (.wait .load))) ∨
          t.seq = .running (.write (.appPrefix (.wait .load)))))

/-- R188, R183: READ's own steps. Accepted, it selects the card and begins read-single-block or read-multi-block; R1 = 0x00
alone leads to the data; block k, whichever it is, waits for its token and takes its payload byte by byte and two CRC
bytes; each block leads to the next, or to the stop command (CNT above 1), or to the end; at the end CS is released, the
trailer (none by default) exchanged, BLKDONE holds the count, and RESULT is Ok exactly when it is CNT. The token itself is
CardTokensAreTaken, a token wait that times out WaitFailsWhenTheCounterIsZero. -/
def Obligations.ReadSteps : Prop :=
  ∀ s : State, s.busy = true →
    (s.seq = .running (.read .start) → s.drv = 0 → s.cnt ≠ 0 → s.noInit = false →
      ∃ t, exec .read s = .next t ∧ t.csa = true ∧
        t = { s with ctrl := t.ctrl, bus := s.bus ++ [.cs true], seq := .running (.read (.command (.wait .load))) } ∧
        fetch (.read (.command (.wait .load))) t =
          (if s.cnt = 1 then .readSingleBlock s.cardAddress else .readMultipleBlock s.cardAddress)) ∧
    (∀ r, s.seq = .running (.read (.command (.record r))) → exec .read s = .next { s with
      r1 := r
      seq := .running (.read (if r = 0x00 then .block 0 .load
        else if s.cnt = 1 then .release 0 else .stop 0 (.frame 0))) }) ∧
    (∀ k, s.seq = .running (.read (.block k .load)) → exec .read s = .next { s with
      tshort := shortLoad s.params, seq := .running (.read (.block k .token)) }) ∧
    (∀ k, s.seq = .running (.read (.block k .token)) → s.nextByte = 0xFF → exec .read s = .next { s with
      card := s.card.tail, bus := s.bus ++ [.xfer s.csa s.clksel s.params.filler 0xFF]
      seq := .running (.read (.block k .sample)) }) ∧
    (∀ k, s.seq = .running (.read (.block k .sample)) → s.tshort ≠ 0 → exec .read s = .next { s with
      seq := .running (.read (.block k .token)) }) ∧
    (∀ k i, s.seq = .running (.read (.block k (.payload i))) → exec .read s = .next { s with
      card := s.card.tail, bus := s.bus ++ [.xfer s.csa s.clksel s.params.filler s.nextByte]
      seq := .running (.read (.block k (.store i s.nextByte))) }) ∧
    (∀ k i v, s.seq = .running (.read (.block k (.store i v))) →
      s.admits (s.buf.toNat + s.params.sectorSize * k + i) = true → exec .read s = .next { s with
        mem := Memory.write s.mem (s.buf.toNat + s.params.sectorSize * k + i) v
        seq := .running (.read (.block k (if i + 1 < s.params.sectorSize then .payload (i + 1) else .crc1))) }) ∧
    (∀ k, s.seq = .running (.read (.block k .crc1)) → exec .read s = .next { s with
      card := s.card.tail, bus := s.bus ++ [.xfer s.csa s.clksel s.params.filler s.nextByte]
      seq := .running (.read (.block k .crc2)) }) ∧
    (∀ k, s.seq = .running (.read (.block k .crc2)) → exec .read s = .next { s with
      card := s.card.tail, bus := s.bus ++ [.xfer s.csa s.clksel s.params.filler s.nextByte]
      seq := .running (.read (if s.cnt = 1 then .release 1
        else if k + 1 < s.cnt.toNat then .block (k + 1) .load else .stop (k + 1) (.frame 0))) }) ∧
    (∀ k, s.seq = .running (.read (.block k .token)) → s.nextByte ≠ 0xFF → s.nextByte ≠ s.params.readToken →
      exec .read s = .next { s with
        card := s.card.tail, bus := s.bus ++ [.xfer s.csa s.clksel s.params.filler s.nextByte]
        seq := .running (.read (if s.cnt = 1 then .release 0 else .stop k (.frame 0))) }) ∧
    (∀ k r, s.seq = .running (.read (.stop k (.record r))) → exec .read s = .next { s with
      r1 := r, seq := .running (.read (.release k)) }) ∧
    (∀ k, s.seq = .running (.read (.release k)) → ∃ t, exec .read s = .next t ∧ t.csa = false ∧
      t = { s with
        ctrl := t.ctrl, bus := s.bus ++ [.cs false]
        seq := .running (.read (if s.params.deselectTrailer = 0 then .record k
          else .trailer k s.params.deselectTrailer)) }) ∧
    (∀ k n, 1 ≤ n → s.seq = .running (.read (.trailer k n)) → exec .read s = .next { s with
      card := s.card.tail, bus := s.bus ++ [.xfer s.csa s.clksel s.params.filler s.nextByte]
      seq := .running (.read (if n = 1 then .record k else .trailer k (n - 1))) }) ∧
    (∀ k, s.seq = .running (.read (.record k)) → exec .read s = .next { s with
      blkdone := BitVec.ofNat 16 k
      seq := .running (.read (.finish (if k = s.cnt.toNat then .ok else .error))) }) ∧
    (∀ res, s.seq = .running (.read (.finish res)) → ∃ t, exec .read s = .next t ∧ t.busy = false ∧
      t = { s with result := res.code, seq := .idle, stat := t.stat })

/-- R189, R184, R185: WRITE's own steps: the pre-command only for several blocks and CTYPE 2 or 3, its response ignored;
the command; block k, whichever it is: its ready wait, its payload byte by byte and two CRC bytes, its data response; for
several blocks the stop token after its ready wait, sent also when the wait timed out; the release of CS, the trailer (none
by default), BLKDONE, RESULT. The tokens themselves are WrittenTokensAreSent, a fetched byte InadmissibleAccessFaults, a
block's ready wait that times out WaitFailsWhenTheCounterIsZero. -/
def Obligations.WriteSteps : Prop :=
  ∀ s : State, s.busy = true →
    (s.seq = .running (.write .start) → s.drv = 0 → s.cnt ≠ 0 → s.noInit = false → s.protect = false →
      ∃ t p, exec .write s = .next t ∧ t.csa = true ∧
        t = { s with ctrl := t.ctrl, bus := s.bus ++ [.cs true], seq := .running (.write p) } ∧
        p = (if s.cnt ≠ 1 ∧ (s.ctype &&& 0x03 = 0x02 ∨ s.ctype &&& 0x03 = 0x03) then .appPrefix (.wait .load)
          else .command (.wait .load)) ∧
        fetch (.write (.appPrefix (.wait .load))) t = .appCmd 0 ∧
        fetch (.write (.count (.wait .load))) t = .acmdSetBlockCount (s.cnt.zeroExtend 32) ∧
        fetch (.write (.command (.wait .load))) t =
          (if s.cnt = 1 then .writeBlock s.cardAddress else .writeMultipleBlock s.cardAddress)) ∧
    (∀ r, s.seq = .running (.write (.appPrefix (.record r))) → exec .write s = .next { s with
      r1 := r
      seq := .running (.write (if r ≤ s.params.idleR1 then .count (.wait .load) else .command (.wait .load))) }) ∧
    (∀ r, s.seq = .running (.write (.count (.record r))) → exec .write s = .next { s with
      r1 := r, seq := .running (.write (.command (.wait .load))) }) ∧
    (∀ r, s.seq = .running (.write (.command (.record r))) → exec .write s = .next { s with
      r1 := r
      seq := .running (.write (if r = 0x00 then .block 0 (.wait .load)
        else if s.cnt = 1 then .release 0 false else .stopWait 0 .load)) }) ∧
    (∀ k, s.seq = .running (.write (.block k (.wait .load))) → exec .write s = .next { s with
      tshort := shortLoad s.params, seq := .running (.write (.block k (.wait .exchange))) }) ∧
    (∀ k, s.seq = .running (.write (.block k (.wait .exchange))) → exec .write s = .next { s with
      card := s.card.tail, bus := s.bus ++ [.xfer s.csa s.clksel s.params.filler s.nextByte]
      seq := .running (.write (.block k
        (if s.nextByte = 0xFF then .token else .wait (.sample s.nextByte)))) }) ∧
    (∀ k b, s.tshort ≠ 0 → s.seq = .running (.write (.block k (.wait (.sample b)))) → exec .write s = .next { s with
      seq := .running (.write (.block k (.wait .exchange))) }) ∧
    (∀ k i v, s.seq = .running (.write (.block k (.send i v))) → exec .write s = .next { s with
      card := s.card.tail, bus := s.bus ++ [.xfer s.csa s.clksel v s.nextByte]
      seq := .running (.write (.block k (if i + 1 < s.params.sectorSize then .fetch (i + 1) else .crc1))) }) ∧
    (∀ k, s.seq = .running (.write (.block k .crc1)) → exec .write s = .next { s with
      card := s.card.tail, bus := s.bus ++ [.xfer s.csa s.clksel s.params.crcFill s.nextByte]
      seq := .running (.write (.block k .crc2)) }) ∧
    (∀ k, s.seq = .running (.write (.block k .crc2)) → exec .write s = .next { s with
      card := s.card.tail, bus := s.bus ++ [.xfer s.csa s.clksel s.params.crcFill s.nextByte]
      seq := .running (.write (.block k .response)) }) ∧
    (∀ k, s.seq = .running (.write (.block k .response)) → exec .write s = .next { s with
      card := s.card.tail, bus := s.bus ++ [.xfer s.csa s.clksel s.params.filler s.nextByte]
      seq := .running (.write (if s.nextByte &&& s.params.drespMask = s.params.drespOk
        then (if s.cnt = 1 then .release 1 true
          else if k + 1 < s.cnt.toNat then .block (k + 1) (.wait .load) else .stopWait (k + 1) .load)
        else (if s.cnt = 1 then .release 0 false else .stopWait k .load))) }) ∧
    (∀ k, s.seq = .running (.write (.stopWait k .load)) → exec .write s = .next { s with
      tshort := shortLoad s.params, seq := .running (.write (.stopWait k .exchange)) }) ∧
    (∀ k, s.seq = .running (.write (.stopWait k .exchange)) → exec .write s = .next { s with
      card := s.card.tail, bus := s.bus ++ [.xfer s.csa s.clksel s.params.filler s.nextByte]
      seq := .running (.write
        (if s.nextByte = 0xFF then .stopToken k true else .stopWait k (.sample s.nextByte))) }) ∧
    (∀ k b, b ≠ 0xFF → s.seq = .running (.write (.stopWait k (.sample b))) → exec .write s = .next { s with
      seq := .running (.write (if s.tshort = 0 then .stopToken k false else .stopWait k .exchange)) }) ∧
    (∀ k ok, s.seq = .running (.write (.release k ok)) → ∃ t, exec .write s = .next t ∧ t.csa = false ∧
      t = { s with
        ctrl := t.ctrl, bus := s.bus ++ [.cs false]
        seq := .running (.write (if s.params.deselectTrailer = 0 then .record k ok
          else .trailer k ok s.params.deselectTrailer)) }) ∧
    (∀ k ok n, 1 ≤ n → s.seq = .running (.write (.trailer k ok n)) → exec .write s = .next { s with
      card := s.card.tail, bus := s.bus ++ [.xfer s.csa s.clksel s.params.filler s.nextByte]
      seq := .running (.write (if n = 1 then .record k ok else .trailer k ok (n - 1))) }) ∧
    (∀ k ok, s.seq = .running (.write (.record k ok)) → exec .write s = .next { s with
      blkdone := BitVec.ofNat 16 k
      seq := .running (.write (.finish (if ok then .ok else .error))) }) ∧
    (∀ res, s.seq = .running (.write (.finish res)) → ∃ t, exec .write s = .next t ∧ t.busy = false ∧
      t = { s with result := res.code, seq := .idle, stat := t.stat })

/-- R188 with R132 and R183, program P2: a single-block READ of a card that answers: select, the read-single-block frame,
the response 0x00 after some invalid poll bytes, the read token and 512 bytes into the buffer, deselect with its trailer
(none by default); Ok, BLKDONE = 1. -/
def Obligations.ReadSingleTransaction : Prop :=
  ∀ (s : State) (junk invalid payload trailer rest : List Byte) (c1 c2 : Byte), s.busy = false → Memory.wf s.mem →
    s.drv = 0 → s.cnt = 1 → s.noInit = false → s.params.readToken ≠ 0xFF →
    s.card = 0xFF ::
      (junk ++ (invalid ++ 0x00 :: s.params.readToken :: (payload ++ c1 :: c2 :: (trailer ++ rest)))) →
    junk.length = 6 → invalid.length < s.params.respPoll → (∀ b ∈ invalid, b.getLsbD 7 = true) →
    payload.length = s.params.sectorSize → trailer.length = s.params.deselectTrailer →
    (∀ i, i < s.params.sectorSize → s.admits (s.buf.toNat + i) = true) →
      ∃ t, runsTo .read (invalid.length + 2 * s.params.sectorSize + trailer.length + 18) s t ∧
        t.csa = false ∧ t.ctrl &&& 0xFE = s.ctrl &&& 0xFE ∧
        t = { s with
          opr := 0x30, ctrl := t.ctrl, tshort := shortLoad s.params, r1 := 0x00, blkdone := 1, result := 0x00
          seq := .idle, card := rest, mem := t.mem
          bus := s.bus ++ .cs true :: (exchanges true s.clksel
            (s.params.filler :: (encode s.params (.readSingleBlock s.cardAddress) ++
              fillers s.params (invalid.length + s.params.sectorSize + 4)))
            (0xFF :: (junk ++ (invalid ++ 0x00 :: s.params.readToken :: (payload ++ [c1, c2])))) ++
            .cs false :: exchanges false s.clksel (fillers s.params trailer.length) trailer) } ∧
        (∀ i, i < s.params.sectorSize → Memory.read t.mem (s.buf.toNat + i) = payload.getD i 0) ∧
        (∀ a, (a < s.buf.toNat ∨ s.buf.toNat + s.params.sectorSize ≤ a) →
          Memory.read t.mem a = Memory.read s.mem a)

/-- R189 with R132 and R184: a single-block WRITE of a card that answers: select, the write-block frame, the response 0x00
after some invalid poll bytes, the ready wait, TOKEN_SINGLE, the 512 bytes of the buffer, two CRC bytes CRC_FILL, the data
response, deselect with its trailer (none by default); the data response decides BLKDONE and RESULT. -/
def Obligations.WriteSingleTransaction : Prop :=
  ∀ (s : State) (junk invalid junk' trailer rest : List Byte) (x c1 c2 d : Byte), s.busy = false →
    s.drv = 0 → s.cnt = 1 → s.noInit = false → s.protect = false → s.params.tokenSingle ≠ s.params.tokenStop →
    s.card = 0xFF ::
      (junk ++ (invalid ++ 0x00 :: 0xFF :: x :: (junk' ++ c1 :: c2 :: d :: (trailer ++ rest)))) →
    junk.length = 6 → invalid.length < s.params.respPoll → (∀ b ∈ invalid, b.getLsbD 7 = true) →
    junk'.length = s.params.sectorSize → trailer.length = s.params.deselectTrailer →
    (∀ i, i < s.params.sectorSize → s.admits (s.buf.toNat + i) = true) →
      ∃ t, runsTo .write (invalid.length + 2 * s.params.sectorSize + trailer.length + 20) s t ∧
        t.csa = false ∧ t.ctrl &&& 0xFE = s.ctrl &&& 0xFE ∧
        t = { s with
          opr := 0x31, ctrl := t.ctrl, tshort := shortLoad s.params, r1 := 0x00, seq := .idle, card := rest
          blkdone := (if d &&& s.params.drespMask = s.params.drespOk then 1 else 0)
          result := (if d &&& s.params.drespMask = s.params.drespOk then 0x00 else 0x01)
          bus := s.bus ++ .cs true :: (exchanges true s.clksel
            (s.params.filler :: (encode s.params (.writeBlock s.cardAddress) ++
              (fillers s.params (invalid.length + 2) ++ s.params.tokenSingle ::
                ((List.range s.params.sectorSize).map (fun i => Memory.read s.mem (s.buf.toNat + i)) ++
                  [s.params.crcFill, s.params.crcFill, s.params.filler]))))
            (0xFF :: (junk ++ (invalid ++ 0x00 :: 0xFF :: x :: (junk' ++ [c1, c2, d])))) ++
            .cs false :: exchanges false s.clksel (fillers s.params trailer.length) trailer) }

/-- R188, R190, R233: a READ of several blocks releases the card only out of the last step of its stop-transmission
command, whatever happened before. -/
def Obligations.MultiBlockReadEndsInStop : Prop :=
  ∀ (s t : State) (p : ReadPos) (k : Nat), s.busy = true → s.cnt ≠ 1 → s.seq = .running (.read p) →
    engine s = .next t → t.seq = .running (.read (.release k)) → ∃ r, p = .stop k (.record r)

/-- R189, R191, R233: a WRITE of several blocks releases the card only out of the step that sends the stop token. -/
def Obligations.MultiBlockWriteEndsInStopToken : Prop :=
  ∀ (s t : State) (p : WritePos) (k : Nat) (ok : Bool), s.busy = true → s.cnt ≠ 1 → s.seq = .running (.write p) →
    engine s = .next t → t.seq = .running (.write (.release k ok)) →
      (∃ ready, p = .stopToken k ready) ∧ t.bus = s.bus ++ [.xfer s.csa s.clksel s.params.tokenStop s.nextByte]

/-! ### Counters -/

/-- R211: one tick decrements both counters, each stopping at 0, and changes nothing else. -/
def Obligations.TickDecrementsBothCounters : Prop :=
  ∀ (s : State) (rest : List Action), s.env = .tick :: rest →
    step s = .next { s with
      env := rest
      tshort := if s.tshort = 0 then 0 else s.tshort - 1
      tlong := if s.tlong = 0 then 0 else s.tlong - 1 }

/-- R214: n ticks decrement a counter holding v to max(v - n, 0), and change nothing else. R216, with R130 and R183: a
wait armed with SHORT_BUDGET and seeing no awaited byte, in WAITREADY and in RCVRBLK, whatever ticks fall where. Over some
iterations it makes one exchange and one sample each; while the ticks so far are fewer than SHORT_BUDGET it goes on, and
the first iteration that brings them to SHORT_BUDGET ends it, its sample being 0. R216's bound, at most one sample more than
ticks, holds where a tick falls in every iteration but the first: that premise is the model's reading (DEDUCED, log entry
23). -/
def Obligations.TicksSaturateAndEndTheWaits : Prop :=
  (∀ (n : Nat) (s : State),
    (ticks n s).tshort.toNat = s.tshort.toNat - n ∧ (ticks n s).tlong.toNat = s.tlong.toNat - n ∧
    ticks n s = { s with tshort := (ticks n s).tshort, tlong := (ticks n s).tlong }) ∧
  (∀ (s : State) (l : List (Nat × Nat)) (last : Nat × Nat) (bytes rest : List Byte) (b : Byte) (later : List Action)
      (waiting failed : Activity), s.busy = true → s.tshort = shortLoad s.params →
    (waiting = .waitready (.wait .exchange) ∧ failed = .waitready (.record b) ∧ (∀ x ∈ bytes ++ [b], x ≠ 0xFF) ∨
      waiting = .rcvrblk (.block .token) ∧ failed = .rcvrblk (.record false) ∧ ∀ x ∈ bytes ++ [b], x = 0xFF) →
    s.seq = .running waiting → s.card = bytes ++ b :: rest → bytes.length = l.length →
    s.env = waitSchedule l ++ waitSchedule [last] ++ later → ticksIn l < (shortLoad s.params).toNat →
      (∃ t, steps (waitSchedule l).length s = .next t ∧ t.tshort.toNat = (shortLoad s.params).toNat - ticksIn l ∧
        t = { s with
          tshort := t.tshort, tlong := t.tlong, env := waitSchedule [last] ++ later, card := b :: rest
          bus := s.bus ++ exchanges s.csa s.clksel (fillers s.params l.length) bytes }) ∧
      ((shortLoad s.params).toNat ≤ ticksIn (l ++ [last]) →
        (∃ t, steps (waitSchedule (l ++ [last])).length s = .next t ∧
          t = { s with
            tshort := 0, tlong := t.tlong, env := later, card := rest, seq := .running failed
            bus := s.bus ++ exchanges s.csa s.clksel (fillers s.params (l.length + 1)) (bytes ++ [b]) }) ∧
        ((∀ x ∈ (l ++ [last]).tail, 1 ≤ x.1 + x.2) → (l ++ [last]).length ≤ ticksIn (l ++ [last]) + 1)))

/-! ### Rules of the whole machine -/

/-- R22, R28, R30, R212: the registers whose engine column says never are written by no engine step, T_SHORT only with
SHORT_BUDGET. That the parameters, SDSPI_BASE and HostMemOK among them, are fields of the state that no step of any kind
changes is the model's choice (DESIGN CHOICE, log entry 4). -/
def Obligations.EngineNeverWritesHostRegisters : Prop :=
  (∀ s t : State, engine s = .next t →
    t.opr = s.opr ∧ t.dstatus = s.dstatus ∧ t.ctype = s.ctype ∧ t.cmdidx = s.cmdidx ∧ t.drv = s.drv ∧
    t.tlong = s.tlong ∧ t.arg = s.arg ∧ t.buf = s.buf ∧ t.cnt = s.cnt ∧ t.clksel = s.clksel ∧
    (t.tshort = s.tshort ∨ t.tshort = shortLoad s.params)) ∧
  (∀ s t : State, step s = .next t → t.params = s.params)

/-- R42 with R40: while BUSY = 1, no step but a reset changes an operand register, whatever the environment does; DATA,
which RCVR and WAITREADY write, keeps its value under every other operation. -/
def Obligations.OperandsStableWhileBusy : Prop :=
  ∀ s t : State, s.busy = true → s.nextAction ≠ .reset → step s = .next t →
    t.cmdidx = s.cmdidx ∧ t.drv = s.drv ∧ t.arg = s.arg ∧ t.buf = s.buf ∧ t.cnt = s.cnt ∧
    t.ctype = s.ctype ∧ t.dstatus = s.dstatus ∧ t.opr = s.opr ∧
    ((∀ p, s.seq ≠ .running (.rcvr p)) → (∀ p, s.seq ≠ .running (.waitready p)) → t.data = s.data)

/-- R45, R262: no step takes an event back. A reset moves the events before it to the record of earlier events (log entry
8); any other step adds at most one event. -/
def Obligations.EventsAreNeverLost : Prop :=
  ∀ s t : State, step s = .next t →
    ∃ new : List BusEvent, t.past ++ t.bus = (s.past ++ s.bus) ++ new ∧ new.length ≤ 1

/-- The model's own fault: no step of the machine answers outOfPlace (log entry 5), and none refuses. -/
def Obligations.NoStepIsOutOfPlace : Prop :=
  ∀ s : State, step s ≠ .fault .outOfPlace ∧ ∀ r, step s ≠ .refused r

/-- R235: with BUSY = 1 and an operation running, the engine step answers a next state, unless the sequencer is about to
access a host byte that is not admitted, and then it is HostAddress. -/
def Obligations.EngineIsNeverStuck : Prop :=
  ∀ (s : State) (a : Activity), s.busy = true → s.seq = .running a →
    (∃ t, engine s = .next t) ∨
    (engine s = .fault .hostAddress ∧ ∃ k i,
      s.admits (s.buf.toNat + s.params.sectorSize * k + i) = false ∧
      ((∃ v, a = .read (.block k (.store i v))) ∨ a = .write (.block k (.fetch i)) ∨
       (k = 0 ∧ ∃ v, a = .rcvrblk (.block (.store i v))) ∨ (k = 0 ∧ a = .xmitblk (.block (.fetch i)))))

/-- R28, R213: the engine reads neither NODISK nor T_LONG: change them, and it makes the same step. -/
def Obligations.EngineIgnoresNodiskAndTlong : Prop :=
  ∀ (s : State) (v : Byte),
    engine { s with tlong := v, dstatus := s.dstatus ^^^ 0x02 } =
      mapNext (fun t => { t with tlong := v, dstatus := t.dstatus ^^^ 0x02 }) (engine s)

/-- R70, R66, R60: a host access to a byte of host memory outside the register block. A byte of the running operation's
buffer is BufferRace (n blocks: CNT for READ and WRITE, 1 for RCVRBLK and XMITBLK). Any other byte below
2^HOST_ADDR_WIDTH is ordinary memory: after a store it reads as the value, with every other byte and everything else as
before; a load answers what the byte reads as and changes nothing else. The access of one byte, and the fault at an
address that host memory does not have, are the model's choice (DESIGN CHOICE, log entry 20), and so is a register access
for an address inside the register block (log entry 12). -/
def Obligations.HostMemoryAccess : Prop :=
  ∀ (s : State) (a : Nat) (v : Byte) (rest : List Action),
    let running (f : Activity → Prop) := s.busy = true ∧ ∃ x, s.seq = .running x ∧ f x
    let inBuffer (n : Nat) := s.buf.toNat ≤ a ∧ a < s.buf.toNat + s.params.sectorSize * n
    let racing :=
      running (fun x => (∃ p, x = .read p) ∨ ∃ p, x = .write p) ∧ inBuffer s.cnt.toNat ∨
      running (fun x => (∃ p, x = .rcvrblk p) ∨ ∃ p, x = .xmitblk p) ∧ inBuffer 1
    ¬(s.params.sdspiBase ≤ a ∧ a ≤ s.params.sdspiBase + 0x1F) →
      (s.env = .memStore a v :: rest →
        (racing → step s = .fault .bufferRace) ∧
        (¬racing → 2 ^ s.params.hostAddrWidth ≤ a → step s = .fault .noSuchAddress) ∧
        (¬racing → a < 2 ^ s.params.hostAddrWidth → ∃ t, step s = .next t ∧ t = { s with env := rest, mem := t.mem } ∧
          (Memory.wf s.mem → ∀ b, Memory.read t.mem b = if b = a then v else Memory.read s.mem b))) ∧
      (s.env = .memLoad a :: rest →
        (racing → step s = .fault .bufferRace) ∧
        (¬racing → 2 ^ s.params.hostAddrWidth ≤ a → step s = .fault .noSuchAddress) ∧
        (¬racing → a < 2 ^ s.params.hostAddrWidth →
          step s = .next { s with env := rest, rdata := (Memory.read s.mem a).zeroExtend 32 }))

/-! ### Reset -/

/-- R260: what reset leaves, at power-up and later; it ends no run and leaves host memory alone. And R8: the parameters of
the hardware's own instance, whose SDSPI_BASE and HostMemOK stay open. -/
def Obligations.ResetValues : Prop :=
  State.reset.opr = 0x00 ∧ State.reset.ctrl = 0x00 ∧ State.reset.stat = 0x00 ∧ State.reset.result = 0x00 ∧
  State.reset.dstatus = 0x01 ∧ State.reset.ctype = 0x00 ∧ State.reset.data = 0x00 ∧ State.reset.r1 = 0xFF ∧
  State.reset.cmdidx = 0x00 ∧ State.reset.drv = 0x00 ∧ State.reset.tshort = 0x00 ∧ State.reset.tlong = 0x00 ∧
  State.reset.arg = 0 ∧ State.reset.buf = 0 ∧ State.reset.cnt = 0 ∧ State.reset.blkdone = 0 ∧
  State.reset.seq = .idle ∧ State.reset.bus = [] ∧
  (∀ s : State, ∃ t, perform .reset s = .next t ∧ t.mem = s.mem ∧ t.seq = .idle ∧ t.bus = [] ∧
    ∀ r : Reg, t.readReg r = State.reset.readReg r) ∧
  State.reset.params = {
    sectorSize := 512, filler := 0xFF, respPoll := 10, tokenSingle := 0xFE, tokenMulti := 0xFC, tokenStop := 0xFD
    readToken := 0xFE, drespOk := 0x05, drespMask := 0x0F, idleR1 := 0x01, trainBytes := 10, opcodePrefix := 0x40
    cksumCmd0 := 0x95, cksumCmd8 := 0x87, fillerChecksum := 0x01, crcFill := 0xFF, stopBudget := 10
    shortBudget := 50, longBudget := 100, timerWidth := 8, deselectTrailer := 0, hostAddrWidth := 16
    sdspiBase := Config.sdspiBase, hostMemory := Config.hostMemory }

/-- R262: a reset in whatever state, an operation running or not, sets every block register, the sequencer and the bus
history to their reset values, makes no bus event and leaves host memory as it was. (The record of earlier events is the
model's own, log entry 8.) -/
def Obligations.ResetBetweenSteps : Prop :=
  ∀ (s : State) (rest : List Action), s.env = .reset :: rest →
    step s = .next { State.reset with
      env := rest, past := s.past ++ s.bus, mem := s.mem, params := s.params, card := s.card, turn := s.turn
      rdata := s.rdata }

/-! ### Frames -/

/-- What the transport operations, RESERVED and WAITREADY leave unchanged: every register but OPR, STAT, RESULT (and CTRL
for SELECT, DESELECT, CLKTRAIN; DATA for RCVR; DATA and TSHORT for WAITREADY), and all of host memory. -/
def Obligations.TransportFrame : Prop :=
  ∀ (i : Instr) (s t : State),
    (i = .nop ∨ i = .select ∨ i = .deselect ∨ i = .xmit ∨ i = .rcvr ∨ i = .clktrain ∨ i = .waitready ∨
      ∃ c, i = .reserved c) →
    exec i s = .next t →
      (∀ a, Memory.read t.mem a = Memory.read s.mem a) ∧
      t.dstatus = s.dstatus ∧ t.ctype = s.ctype ∧ t.r1 = s.r1 ∧ t.cmdidx = s.cmdidx ∧ t.drv = s.drv ∧
      t.tlong = s.tlong ∧ t.arg = s.arg ∧ t.buf = s.buf ∧ t.cnt = s.cnt ∧ t.blkdone = s.blkdone ∧
      (i ≠ .select → i ≠ .deselect → i ≠ .clktrain → t.ctrl = s.ctrl) ∧
      (i ≠ .rcvr → i ≠ .waitready → t.data = s.data) ∧ (i ≠ .waitready → t.tshort = s.tshort) ∧
      t.ctrl &&& 0xFE = s.ctrl &&& 0xFE ∧ t.stat &&& 0xFE = s.stat &&& 0xFE ∧ (s.busy = true → t.opr = s.opr)

/-- What SENDCMD, SENDACMD, every command row and the R1 row leave unchanged: every register but OPR, STAT, RESULT,
TSHORT and R1, and all of host memory; a command row and the R1 row also leave OPR, STAT and RESULT. -/
def Obligations.CommandFrame : Prop :=
  ∀ (i : Instr) (s t : State),
    (i = .sendcmd ∨ i = .sendacmd ∨ (∃ f, i.frame? = some f) ∨ ∃ e, i = .r1Valid e) → exec i s = .next t →
      (∀ a, Memory.read t.mem a = Memory.read s.mem a) ∧
      t.ctrl = s.ctrl ∧ t.dstatus = s.dstatus ∧ t.ctype = s.ctype ∧ t.data = s.data ∧ t.cmdidx = s.cmdidx ∧
      t.drv = s.drv ∧ t.tlong = s.tlong ∧ t.arg = s.arg ∧ t.buf = s.buf ∧ t.cnt = s.cnt ∧ t.blkdone = s.blkdone ∧
      t.stat &&& 0xFE = s.stat &&& 0xFE ∧ (s.busy = true → t.opr = s.opr) ∧
      (i ≠ .sendcmd → i ≠ .sendacmd → t.stat = s.stat ∧ t.result = s.result)

/-- What the block operations, the tokens and the data response leave unchanged: every register but OPR, STAT, RESULT,
TSHORT, BLKDONE (and CTRL and R1 for READ and WRITE, and for tokens and responses R1 too), and every byte of host memory
but the one the sequencer is about to store: payload byte i of block k, at BUF + SECTOR_SIZE k + i. -/
def Obligations.BlockFrame : Prop :=
  ∀ (i : Instr) (s t : State),
    (i = .rcvrblk ∨ i = .xmitblk ∨ i = .read ∨ i = .write ∨ i = .tokenStartSingle ∨ i = .tokenStartMulti ∨
      i = .tokenStop ∨ i = .tokenReadStart ∨ ∃ e, i = .dataResponseAccepted e) → exec i s = .next t →
      (∀ a, (∀ j v, s.busy = true → s.seq = .running (.rcvrblk (.block (.store j v))) → a ≠ s.blockBase 0 + j) →
        (∀ k j v, s.busy = true → s.seq = .running (.read (.block k (.store j v))) → a ≠ s.blockBase k + j) →
        Memory.read t.mem a = Memory.read s.mem a) ∧
      t.dstatus = s.dstatus ∧ t.ctype = s.ctype ∧ t.data = s.data ∧ t.cmdidx = s.cmdidx ∧ t.drv = s.drv ∧
      t.tlong = s.tlong ∧ t.arg = s.arg ∧ t.buf = s.buf ∧ t.cnt = s.cnt ∧
      (i ≠ .read → i ≠ .write → t.ctrl = s.ctrl ∧ t.r1 = s.r1) ∧
      t.ctrl &&& 0xFE = s.ctrl &&& 0xFE ∧ t.stat &&& 0xFE = s.stat &&& 0xFE ∧ (s.busy = true → t.opr = s.opr)

/-! ### Invariants -/

/-- All the invariants hold after reset. -/
def Obligations.InvariantsAtReset : Prop := State.reset.inv

/-- R24, R25, R26, R27, R29, R33, R210: every step keeps the reserved bits at 0, RESULT a result code, and the counters
within TIMER_WIDTH bits. -/
def Obligations.ReservedBitsStayZero : Prop :=
  ∀ s t : State, s.registersOk → step s = .next t → t.registersOk

/-- R38, R23: every step keeps BUSY = 1 exactly while the sequencer runs, the running operation being the one OPR's code
selects. -/
def Obligations.BusyMatchesTheSequencer : Prop :=
  ∀ s t : State, s.coherent → step s = .next t → t.coherent

/-- R130 to R133, R181 to R184, R188, R189, R194: every step keeps the sequencer at a place its operation reaches, with
every loop counter within its bound, BLKDONE's count within CNT, and the card selected throughout a transaction. -/
def Obligations.SequencerStaysInPlace : Prop :=
  ∀ s t : State, s.coherent → s.placeOk → step s = .next t → t.placeOk

/-- R13, R24, R45: every step keeps CTRL.CSA the line the bus history gives, every exchange having recorded it. -/
def Obligations.ChipSelectMatchesTheHistory : Prop :=
  ∀ s t : State, s.lineOk → step s = .next t → t.lineOk

/-- R60, R64: every step keeps host memory in its one form, all its addresses below 2^HOST_ADDR_WIDTH (the form is the
model's own, log entry 3). -/
def Obligations.MemoryKeepsItsForm : Prop :=
  ∀ s t : State, s.memoryOk → step s = .next t → t.memoryOk
end

