-- ==== Sys2Proof/Laws/State.lean ====
section
/-! SUPPORT. What each update of the state leaves in each field, one lemma per field per update, so that no proof unfolds
a record update; and the same for the flags read from a field. -/

namespace Sys2Proof.Machine

/-! ### exchange -/

@[simp] theorem State.exchange_opr (m : Byte) (s : State) : (s.exchange m).opr = s.opr := rfl
@[simp] theorem State.exchange_ctrl (m : Byte) (s : State) : (s.exchange m).ctrl = s.ctrl := rfl
@[simp] theorem State.exchange_stat (m : Byte) (s : State) : (s.exchange m).stat = s.stat := rfl
@[simp] theorem State.exchange_result (m : Byte) (s : State) : (s.exchange m).result = s.result := rfl
@[simp] theorem State.exchange_dstatus (m : Byte) (s : State) : (s.exchange m).dstatus = s.dstatus := rfl
@[simp] theorem State.exchange_ctype (m : Byte) (s : State) : (s.exchange m).ctype = s.ctype := rfl
@[simp] theorem State.exchange_data (m : Byte) (s : State) : (s.exchange m).data = s.data := rfl
@[simp] theorem State.exchange_r1 (m : Byte) (s : State) : (s.exchange m).r1 = s.r1 := rfl
@[simp] theorem State.exchange_cmdidx (m : Byte) (s : State) : (s.exchange m).cmdidx = s.cmdidx := rfl
@[simp] theorem State.exchange_drv (m : Byte) (s : State) : (s.exchange m).drv = s.drv := rfl
@[simp] theorem State.exchange_tshort (m : Byte) (s : State) : (s.exchange m).tshort = s.tshort := rfl
@[simp] theorem State.exchange_tlong (m : Byte) (s : State) : (s.exchange m).tlong = s.tlong := rfl
@[simp] theorem State.exchange_arg (m : Byte) (s : State) : (s.exchange m).arg = s.arg := rfl
@[simp] theorem State.exchange_buf (m : Byte) (s : State) : (s.exchange m).buf = s.buf := rfl
@[simp] theorem State.exchange_cnt (m : Byte) (s : State) : (s.exchange m).cnt = s.cnt := rfl
@[simp] theorem State.exchange_blkdone (m : Byte) (s : State) : (s.exchange m).blkdone = s.blkdone := rfl
@[simp] theorem State.exchange_seq (m : Byte) (s : State) : (s.exchange m).seq = s.seq := rfl
@[simp] theorem State.exchange_bus (m : Byte) (s : State) : (s.exchange m).bus = s.bus ++ [.xfer s.csa s.clksel m s.nextByte] := rfl
@[simp] theorem State.exchange_past (m : Byte) (s : State) : (s.exchange m).past = s.past := rfl
@[simp] theorem State.exchange_mem (m : Byte) (s : State) : (s.exchange m).mem = s.mem := rfl
@[simp] theorem State.exchange_params (m : Byte) (s : State) : (s.exchange m).params = s.params := rfl
@[simp] theorem State.exchange_card (m : Byte) (s : State) : (s.exchange m).card = s.card.tail := rfl
@[simp] theorem State.exchange_env (m : Byte) (s : State) : (s.exchange m).env = s.env := rfl
@[simp] theorem State.exchange_turn (m : Byte) (s : State) : (s.exchange m).turn = s.turn := rfl
@[simp] theorem State.exchange_rdata (m : Byte) (s : State) : (s.exchange m).rdata = s.rdata := rfl

/-! ### setCs -/

@[simp] theorem State.setCs_opr (v : Bool) (s : State) : (s.setCs v).opr = s.opr := rfl
@[simp] theorem State.setCs_ctrl (v : Bool) (s : State) : (s.setCs v).ctrl = setBit0 s.ctrl v := rfl
@[simp] theorem State.setCs_stat (v : Bool) (s : State) : (s.setCs v).stat = s.stat := rfl
@[simp] theorem State.setCs_result (v : Bool) (s : State) : (s.setCs v).result = s.result := rfl
@[simp] theorem State.setCs_dstatus (v : Bool) (s : State) : (s.setCs v).dstatus = s.dstatus := rfl
@[simp] theorem State.setCs_ctype (v : Bool) (s : State) : (s.setCs v).ctype = s.ctype := rfl
@[simp] theorem State.setCs_data (v : Bool) (s : State) : (s.setCs v).data = s.data := rfl
@[simp] theorem State.setCs_r1 (v : Bool) (s : State) : (s.setCs v).r1 = s.r1 := rfl
@[simp] theorem State.setCs_cmdidx (v : Bool) (s : State) : (s.setCs v).cmdidx = s.cmdidx := rfl
@[simp] theorem State.setCs_drv (v : Bool) (s : State) : (s.setCs v).drv = s.drv := rfl
@[simp] theorem State.setCs_tshort (v : Bool) (s : State) : (s.setCs v).tshort = s.tshort := rfl
@[simp] theorem State.setCs_tlong (v : Bool) (s : State) : (s.setCs v).tlong = s.tlong := rfl
@[simp] theorem State.setCs_arg (v : Bool) (s : State) : (s.setCs v).arg = s.arg := rfl
@[simp] theorem State.setCs_buf (v : Bool) (s : State) : (s.setCs v).buf = s.buf := rfl
@[simp] theorem State.setCs_cnt (v : Bool) (s : State) : (s.setCs v).cnt = s.cnt := rfl
@[simp] theorem State.setCs_blkdone (v : Bool) (s : State) : (s.setCs v).blkdone = s.blkdone := rfl
@[simp] theorem State.setCs_seq (v : Bool) (s : State) : (s.setCs v).seq = s.seq := rfl
@[simp] theorem State.setCs_bus (v : Bool) (s : State) : (s.setCs v).bus = s.bus ++ [.cs v] := rfl
@[simp] theorem State.setCs_past (v : Bool) (s : State) : (s.setCs v).past = s.past := rfl
@[simp] theorem State.setCs_mem (v : Bool) (s : State) : (s.setCs v).mem = s.mem := rfl
@[simp] theorem State.setCs_params (v : Bool) (s : State) : (s.setCs v).params = s.params := rfl
@[simp] theorem State.setCs_card (v : Bool) (s : State) : (s.setCs v).card = s.card := rfl
@[simp] theorem State.setCs_env (v : Bool) (s : State) : (s.setCs v).env = s.env := rfl
@[simp] theorem State.setCs_turn (v : Bool) (s : State) : (s.setCs v).turn = s.turn := rfl
@[simp] theorem State.setCs_rdata (v : Bool) (s : State) : (s.setCs v).rdata = s.rdata := rfl

/-! ### loadShort -/

@[simp] theorem State.loadShort_opr (s : State) : s.loadShort.opr = s.opr := rfl
@[simp] theorem State.loadShort_ctrl (s : State) : s.loadShort.ctrl = s.ctrl := rfl
@[simp] theorem State.loadShort_stat (s : State) : s.loadShort.stat = s.stat := rfl
@[simp] theorem State.loadShort_result (s : State) : s.loadShort.result = s.result := rfl
@[simp] theorem State.loadShort_dstatus (s : State) : s.loadShort.dstatus = s.dstatus := rfl
@[simp] theorem State.loadShort_ctype (s : State) : s.loadShort.ctype = s.ctype := rfl
@[simp] theorem State.loadShort_data (s : State) : s.loadShort.data = s.data := rfl
@[simp] theorem State.loadShort_r1 (s : State) : s.loadShort.r1 = s.r1 := rfl
@[simp] theorem State.loadShort_cmdidx (s : State) : s.loadShort.cmdidx = s.cmdidx := rfl
@[simp] theorem State.loadShort_drv (s : State) : s.loadShort.drv = s.drv := rfl
@[simp] theorem State.loadShort_tshort (s : State) : s.loadShort.tshort = shortLoad s.params := rfl
@[simp] theorem State.loadShort_tlong (s : State) : s.loadShort.tlong = s.tlong := rfl
@[simp] theorem State.loadShort_arg (s : State) : s.loadShort.arg = s.arg := rfl
@[simp] theorem State.loadShort_buf (s : State) : s.loadShort.buf = s.buf := rfl
@[simp] theorem State.loadShort_cnt (s : State) : s.loadShort.cnt = s.cnt := rfl
@[simp] theorem State.loadShort_blkdone (s : State) : s.loadShort.blkdone = s.blkdone := rfl
@[simp] theorem State.loadShort_seq (s : State) : s.loadShort.seq = s.seq := rfl
@[simp] theorem State.loadShort_bus (s : State) : s.loadShort.bus = s.bus := rfl
@[simp] theorem State.loadShort_past (s : State) : s.loadShort.past = s.past := rfl
@[simp] theorem State.loadShort_mem (s : State) : s.loadShort.mem = s.mem := rfl
@[simp] theorem State.loadShort_params (s : State) : s.loadShort.params = s.params := rfl
@[simp] theorem State.loadShort_card (s : State) : s.loadShort.card = s.card := rfl
@[simp] theorem State.loadShort_env (s : State) : s.loadShort.env = s.env := rfl
@[simp] theorem State.loadShort_turn (s : State) : s.loadShort.turn = s.turn := rfl
@[simp] theorem State.loadShort_rdata (s : State) : s.loadShort.rdata = s.rdata := rfl

/-! ### tick -/

@[simp] theorem State.tick_opr (s : State) : s.tick.opr = s.opr := rfl
@[simp] theorem State.tick_ctrl (s : State) : s.tick.ctrl = s.ctrl := rfl
@[simp] theorem State.tick_stat (s : State) : s.tick.stat = s.stat := rfl
@[simp] theorem State.tick_result (s : State) : s.tick.result = s.result := rfl
@[simp] theorem State.tick_dstatus (s : State) : s.tick.dstatus = s.dstatus := rfl
@[simp] theorem State.tick_ctype (s : State) : s.tick.ctype = s.ctype := rfl
@[simp] theorem State.tick_data (s : State) : s.tick.data = s.data := rfl
@[simp] theorem State.tick_r1 (s : State) : s.tick.r1 = s.r1 := rfl
@[simp] theorem State.tick_cmdidx (s : State) : s.tick.cmdidx = s.cmdidx := rfl
@[simp] theorem State.tick_drv (s : State) : s.tick.drv = s.drv := rfl
@[simp] theorem State.tick_tshort (s : State) : s.tick.tshort = countDown s.tshort := rfl
@[simp] theorem State.tick_tlong (s : State) : s.tick.tlong = countDown s.tlong := rfl
@[simp] theorem State.tick_arg (s : State) : s.tick.arg = s.arg := rfl
@[simp] theorem State.tick_buf (s : State) : s.tick.buf = s.buf := rfl
@[simp] theorem State.tick_cnt (s : State) : s.tick.cnt = s.cnt := rfl
@[simp] theorem State.tick_blkdone (s : State) : s.tick.blkdone = s.blkdone := rfl
@[simp] theorem State.tick_seq (s : State) : s.tick.seq = s.seq := rfl
@[simp] theorem State.tick_bus (s : State) : s.tick.bus = s.bus := rfl
@[simp] theorem State.tick_past (s : State) : s.tick.past = s.past := rfl
@[simp] theorem State.tick_mem (s : State) : s.tick.mem = s.mem := rfl
@[simp] theorem State.tick_params (s : State) : s.tick.params = s.params := rfl
@[simp] theorem State.tick_card (s : State) : s.tick.card = s.card := rfl
@[simp] theorem State.tick_env (s : State) : s.tick.env = s.env := rfl
@[simp] theorem State.tick_turn (s : State) : s.tick.turn = s.turn := rfl
@[simp] theorem State.tick_rdata (s : State) : s.tick.rdata = s.rdata := rfl

/-! ### setR1 -/

@[simp] theorem State.setR1_opr (r : Byte) (s : State) : (s.setR1 r).opr = s.opr := rfl
@[simp] theorem State.setR1_ctrl (r : Byte) (s : State) : (s.setR1 r).ctrl = s.ctrl := rfl
@[simp] theorem State.setR1_stat (r : Byte) (s : State) : (s.setR1 r).stat = s.stat := rfl
@[simp] theorem State.setR1_result (r : Byte) (s : State) : (s.setR1 r).result = s.result := rfl
@[simp] theorem State.setR1_dstatus (r : Byte) (s : State) : (s.setR1 r).dstatus = s.dstatus := rfl
@[simp] theorem State.setR1_ctype (r : Byte) (s : State) : (s.setR1 r).ctype = s.ctype := rfl
@[simp] theorem State.setR1_data (r : Byte) (s : State) : (s.setR1 r).data = s.data := rfl
@[simp] theorem State.setR1_r1 (r : Byte) (s : State) : (s.setR1 r).r1 = r := rfl
@[simp] theorem State.setR1_cmdidx (r : Byte) (s : State) : (s.setR1 r).cmdidx = s.cmdidx := rfl
@[simp] theorem State.setR1_drv (r : Byte) (s : State) : (s.setR1 r).drv = s.drv := rfl
@[simp] theorem State.setR1_tshort (r : Byte) (s : State) : (s.setR1 r).tshort = s.tshort := rfl
@[simp] theorem State.setR1_tlong (r : Byte) (s : State) : (s.setR1 r).tlong = s.tlong := rfl
@[simp] theorem State.setR1_arg (r : Byte) (s : State) : (s.setR1 r).arg = s.arg := rfl
@[simp] theorem State.setR1_buf (r : Byte) (s : State) : (s.setR1 r).buf = s.buf := rfl
@[simp] theorem State.setR1_cnt (r : Byte) (s : State) : (s.setR1 r).cnt = s.cnt := rfl
@[simp] theorem State.setR1_blkdone (r : Byte) (s : State) : (s.setR1 r).blkdone = s.blkdone := rfl
@[simp] theorem State.setR1_seq (r : Byte) (s : State) : (s.setR1 r).seq = s.seq := rfl
@[simp] theorem State.setR1_bus (r : Byte) (s : State) : (s.setR1 r).bus = s.bus := rfl
@[simp] theorem State.setR1_past (r : Byte) (s : State) : (s.setR1 r).past = s.past := rfl
@[simp] theorem State.setR1_mem (r : Byte) (s : State) : (s.setR1 r).mem = s.mem := rfl
@[simp] theorem State.setR1_params (r : Byte) (s : State) : (s.setR1 r).params = s.params := rfl
@[simp] theorem State.setR1_card (r : Byte) (s : State) : (s.setR1 r).card = s.card := rfl
@[simp] theorem State.setR1_env (r : Byte) (s : State) : (s.setR1 r).env = s.env := rfl
@[simp] theorem State.setR1_turn (r : Byte) (s : State) : (s.setR1 r).turn = s.turn := rfl
@[simp] theorem State.setR1_rdata (r : Byte) (s : State) : (s.setR1 r).rdata = s.rdata := rfl

/-! ### setData -/

@[simp] theorem State.setData_opr (b : Byte) (s : State) : (s.setData b).opr = s.opr := rfl
@[simp] theorem State.setData_ctrl (b : Byte) (s : State) : (s.setData b).ctrl = s.ctrl := rfl
@[simp] theorem State.setData_stat (b : Byte) (s : State) : (s.setData b).stat = s.stat := rfl
@[simp] theorem State.setData_result (b : Byte) (s : State) : (s.setData b).result = s.result := rfl
@[simp] theorem State.setData_dstatus (b : Byte) (s : State) : (s.setData b).dstatus = s.dstatus := rfl
@[simp] theorem State.setData_ctype (b : Byte) (s : State) : (s.setData b).ctype = s.ctype := rfl
@[simp] theorem State.setData_data (b : Byte) (s : State) : (s.setData b).data = b := rfl
@[simp] theorem State.setData_r1 (b : Byte) (s : State) : (s.setData b).r1 = s.r1 := rfl
@[simp] theorem State.setData_cmdidx (b : Byte) (s : State) : (s.setData b).cmdidx = s.cmdidx := rfl
@[simp] theorem State.setData_drv (b : Byte) (s : State) : (s.setData b).drv = s.drv := rfl
@[simp] theorem State.setData_tshort (b : Byte) (s : State) : (s.setData b).tshort = s.tshort := rfl
@[simp] theorem State.setData_tlong (b : Byte) (s : State) : (s.setData b).tlong = s.tlong := rfl
@[simp] theorem State.setData_arg (b : Byte) (s : State) : (s.setData b).arg = s.arg := rfl
@[simp] theorem State.setData_buf (b : Byte) (s : State) : (s.setData b).buf = s.buf := rfl
@[simp] theorem State.setData_cnt (b : Byte) (s : State) : (s.setData b).cnt = s.cnt := rfl
@[simp] theorem State.setData_blkdone (b : Byte) (s : State) : (s.setData b).blkdone = s.blkdone := rfl
@[simp] theorem State.setData_seq (b : Byte) (s : State) : (s.setData b).seq = s.seq := rfl
@[simp] theorem State.setData_bus (b : Byte) (s : State) : (s.setData b).bus = s.bus := rfl
@[simp] theorem State.setData_past (b : Byte) (s : State) : (s.setData b).past = s.past := rfl
@[simp] theorem State.setData_mem (b : Byte) (s : State) : (s.setData b).mem = s.mem := rfl
@[simp] theorem State.setData_params (b : Byte) (s : State) : (s.setData b).params = s.params := rfl
@[simp] theorem State.setData_card (b : Byte) (s : State) : (s.setData b).card = s.card := rfl
@[simp] theorem State.setData_env (b : Byte) (s : State) : (s.setData b).env = s.env := rfl
@[simp] theorem State.setData_turn (b : Byte) (s : State) : (s.setData b).turn = s.turn := rfl
@[simp] theorem State.setData_rdata (b : Byte) (s : State) : (s.setData b).rdata = s.rdata := rfl

/-! ### setBlkdone -/

@[simp] theorem State.setBlkdone_opr (k : Nat) (s : State) : (s.setBlkdone k).opr = s.opr := rfl
@[simp] theorem State.setBlkdone_ctrl (k : Nat) (s : State) : (s.setBlkdone k).ctrl = s.ctrl := rfl
@[simp] theorem State.setBlkdone_stat (k : Nat) (s : State) : (s.setBlkdone k).stat = s.stat := rfl
@[simp] theorem State.setBlkdone_result (k : Nat) (s : State) : (s.setBlkdone k).result = s.result := rfl
@[simp] theorem State.setBlkdone_dstatus (k : Nat) (s : State) : (s.setBlkdone k).dstatus = s.dstatus := rfl
@[simp] theorem State.setBlkdone_ctype (k : Nat) (s : State) : (s.setBlkdone k).ctype = s.ctype := rfl
@[simp] theorem State.setBlkdone_data (k : Nat) (s : State) : (s.setBlkdone k).data = s.data := rfl
@[simp] theorem State.setBlkdone_r1 (k : Nat) (s : State) : (s.setBlkdone k).r1 = s.r1 := rfl
@[simp] theorem State.setBlkdone_cmdidx (k : Nat) (s : State) : (s.setBlkdone k).cmdidx = s.cmdidx := rfl
@[simp] theorem State.setBlkdone_drv (k : Nat) (s : State) : (s.setBlkdone k).drv = s.drv := rfl
@[simp] theorem State.setBlkdone_tshort (k : Nat) (s : State) : (s.setBlkdone k).tshort = s.tshort := rfl
@[simp] theorem State.setBlkdone_tlong (k : Nat) (s : State) : (s.setBlkdone k).tlong = s.tlong := rfl
@[simp] theorem State.setBlkdone_arg (k : Nat) (s : State) : (s.setBlkdone k).arg = s.arg := rfl
@[simp] theorem State.setBlkdone_buf (k : Nat) (s : State) : (s.setBlkdone k).buf = s.buf := rfl
@[simp] theorem State.setBlkdone_cnt (k : Nat) (s : State) : (s.setBlkdone k).cnt = s.cnt := rfl
@[simp] theorem State.setBlkdone_blkdone (k : Nat) (s : State) : (s.setBlkdone k).blkdone = BitVec.ofNat 16 k := rfl
@[simp] theorem State.setBlkdone_seq (k : Nat) (s : State) : (s.setBlkdone k).seq = s.seq := rfl
@[simp] theorem State.setBlkdone_bus (k : Nat) (s : State) : (s.setBlkdone k).bus = s.bus := rfl
@[simp] theorem State.setBlkdone_past (k : Nat) (s : State) : (s.setBlkdone k).past = s.past := rfl
@[simp] theorem State.setBlkdone_mem (k : Nat) (s : State) : (s.setBlkdone k).mem = s.mem := rfl
@[simp] theorem State.setBlkdone_params (k : Nat) (s : State) : (s.setBlkdone k).params = s.params := rfl
@[simp] theorem State.setBlkdone_card (k : Nat) (s : State) : (s.setBlkdone k).card = s.card := rfl
@[simp] theorem State.setBlkdone_env (k : Nat) (s : State) : (s.setBlkdone k).env = s.env := rfl
@[simp] theorem State.setBlkdone_turn (k : Nat) (s : State) : (s.setBlkdone k).turn = s.turn := rfl
@[simp] theorem State.setBlkdone_rdata (k : Nat) (s : State) : (s.setBlkdone k).rdata = s.rdata := rfl

/-! ### goto -/

@[simp] theorem State.goto_opr (a : Activity) (s : State) : (s.goto a).opr = s.opr := rfl
@[simp] theorem State.goto_ctrl (a : Activity) (s : State) : (s.goto a).ctrl = s.ctrl := rfl
@[simp] theorem State.goto_stat (a : Activity) (s : State) : (s.goto a).stat = s.stat := rfl
@[simp] theorem State.goto_result (a : Activity) (s : State) : (s.goto a).result = s.result := rfl
@[simp] theorem State.goto_dstatus (a : Activity) (s : State) : (s.goto a).dstatus = s.dstatus := rfl
@[simp] theorem State.goto_ctype (a : Activity) (s : State) : (s.goto a).ctype = s.ctype := rfl
@[simp] theorem State.goto_data (a : Activity) (s : State) : (s.goto a).data = s.data := rfl
@[simp] theorem State.goto_r1 (a : Activity) (s : State) : (s.goto a).r1 = s.r1 := rfl
@[simp] theorem State.goto_cmdidx (a : Activity) (s : State) : (s.goto a).cmdidx = s.cmdidx := rfl
@[simp] theorem State.goto_drv (a : Activity) (s : State) : (s.goto a).drv = s.drv := rfl
@[simp] theorem State.goto_tshort (a : Activity) (s : State) : (s.goto a).tshort = s.tshort := rfl
@[simp] theorem State.goto_tlong (a : Activity) (s : State) : (s.goto a).tlong = s.tlong := rfl
@[simp] theorem State.goto_arg (a : Activity) (s : State) : (s.goto a).arg = s.arg := rfl
@[simp] theorem State.goto_buf (a : Activity) (s : State) : (s.goto a).buf = s.buf := rfl
@[simp] theorem State.goto_cnt (a : Activity) (s : State) : (s.goto a).cnt = s.cnt := rfl
@[simp] theorem State.goto_blkdone (a : Activity) (s : State) : (s.goto a).blkdone = s.blkdone := rfl
@[simp] theorem State.goto_seq (a : Activity) (s : State) : (s.goto a).seq = .running a := rfl
@[simp] theorem State.goto_bus (a : Activity) (s : State) : (s.goto a).bus = s.bus := rfl
@[simp] theorem State.goto_past (a : Activity) (s : State) : (s.goto a).past = s.past := rfl
@[simp] theorem State.goto_mem (a : Activity) (s : State) : (s.goto a).mem = s.mem := rfl
@[simp] theorem State.goto_params (a : Activity) (s : State) : (s.goto a).params = s.params := rfl
@[simp] theorem State.goto_card (a : Activity) (s : State) : (s.goto a).card = s.card := rfl
@[simp] theorem State.goto_env (a : Activity) (s : State) : (s.goto a).env = s.env := rfl
@[simp] theorem State.goto_turn (a : Activity) (s : State) : (s.goto a).turn = s.turn := rfl
@[simp] theorem State.goto_rdata (a : Activity) (s : State) : (s.goto a).rdata = s.rdata := rfl

/-! ### launch -/

@[simp] theorem State.launch_opr (c : Byte) (a : Activity) (s : State) : (s.launch c a).opr = c := rfl
@[simp] theorem State.launch_ctrl (c : Byte) (a : Activity) (s : State) : (s.launch c a).ctrl = s.ctrl := rfl
@[simp] theorem State.launch_stat (c : Byte) (a : Activity) (s : State) : (s.launch c a).stat = setBit0 s.stat true := rfl
@[simp] theorem State.launch_result (c : Byte) (a : Activity) (s : State) : (s.launch c a).result = s.result := rfl
@[simp] theorem State.launch_dstatus (c : Byte) (a : Activity) (s : State) : (s.launch c a).dstatus = s.dstatus := rfl
@[simp] theorem State.launch_ctype (c : Byte) (a : Activity) (s : State) : (s.launch c a).ctype = s.ctype := rfl
@[simp] theorem State.launch_data (c : Byte) (a : Activity) (s : State) : (s.launch c a).data = s.data := rfl
@[simp] theorem State.launch_r1 (c : Byte) (a : Activity) (s : State) : (s.launch c a).r1 = s.r1 := rfl
@[simp] theorem State.launch_cmdidx (c : Byte) (a : Activity) (s : State) : (s.launch c a).cmdidx = s.cmdidx := rfl
@[simp] theorem State.launch_drv (c : Byte) (a : Activity) (s : State) : (s.launch c a).drv = s.drv := rfl
@[simp] theorem State.launch_tshort (c : Byte) (a : Activity) (s : State) : (s.launch c a).tshort = s.tshort := rfl
@[simp] theorem State.launch_tlong (c : Byte) (a : Activity) (s : State) : (s.launch c a).tlong = s.tlong := rfl
@[simp] theorem State.launch_arg (c : Byte) (a : Activity) (s : State) : (s.launch c a).arg = s.arg := rfl
@[simp] theorem State.launch_buf (c : Byte) (a : Activity) (s : State) : (s.launch c a).buf = s.buf := rfl
@[simp] theorem State.launch_cnt (c : Byte) (a : Activity) (s : State) : (s.launch c a).cnt = s.cnt := rfl
@[simp] theorem State.launch_blkdone (c : Byte) (a : Activity) (s : State) : (s.launch c a).blkdone = s.blkdone := rfl
@[simp] theorem State.launch_seq (c : Byte) (a : Activity) (s : State) : (s.launch c a).seq = .running a := rfl
@[simp] theorem State.launch_bus (c : Byte) (a : Activity) (s : State) : (s.launch c a).bus = s.bus := rfl
@[simp] theorem State.launch_past (c : Byte) (a : Activity) (s : State) : (s.launch c a).past = s.past := rfl
@[simp] theorem State.launch_mem (c : Byte) (a : Activity) (s : State) : (s.launch c a).mem = s.mem := rfl
@[simp] theorem State.launch_params (c : Byte) (a : Activity) (s : State) : (s.launch c a).params = s.params := rfl
@[simp] theorem State.launch_card (c : Byte) (a : Activity) (s : State) : (s.launch c a).card = s.card := rfl
@[simp] theorem State.launch_env (c : Byte) (a : Activity) (s : State) : (s.launch c a).env = s.env := rfl
@[simp] theorem State.launch_turn (c : Byte) (a : Activity) (s : State) : (s.launch c a).turn = s.turn := rfl
@[simp] theorem State.launch_rdata (c : Byte) (a : Activity) (s : State) : (s.launch c a).rdata = s.rdata := rfl

/-! ### finish -/

@[simp] theorem State.finish_opr (res : Result) (s : State) : (s.finish res).opr = s.opr := rfl
@[simp] theorem State.finish_ctrl (res : Result) (s : State) : (s.finish res).ctrl = s.ctrl := rfl
@[simp] theorem State.finish_stat (res : Result) (s : State) : (s.finish res).stat = setBit0 s.stat false := rfl
@[simp] theorem State.finish_result (res : Result) (s : State) : (s.finish res).result = res.code := rfl
@[simp] theorem State.finish_dstatus (res : Result) (s : State) : (s.finish res).dstatus = s.dstatus := rfl
@[simp] theorem State.finish_ctype (res : Result) (s : State) : (s.finish res).ctype = s.ctype := rfl
@[simp] theorem State.finish_data (res : Result) (s : State) : (s.finish res).data = s.data := rfl
@[simp] theorem State.finish_r1 (res : Result) (s : State) : (s.finish res).r1 = s.r1 := rfl
@[simp] theorem State.finish_cmdidx (res : Result) (s : State) : (s.finish res).cmdidx = s.cmdidx := rfl
@[simp] theorem State.finish_drv (res : Result) (s : State) : (s.finish res).drv = s.drv := rfl
@[simp] theorem State.finish_tshort (res : Result) (s : State) : (s.finish res).tshort = s.tshort := rfl
@[simp] theorem State.finish_tlong (res : Result) (s : State) : (s.finish res).tlong = s.tlong := rfl
@[simp] theorem State.finish_arg (res : Result) (s : State) : (s.finish res).arg = s.arg := rfl
@[simp] theorem State.finish_buf (res : Result) (s : State) : (s.finish res).buf = s.buf := rfl
@[simp] theorem State.finish_cnt (res : Result) (s : State) : (s.finish res).cnt = s.cnt := rfl
@[simp] theorem State.finish_blkdone (res : Result) (s : State) : (s.finish res).blkdone = s.blkdone := rfl
@[simp] theorem State.finish_seq (res : Result) (s : State) : (s.finish res).seq = .idle := rfl
@[simp] theorem State.finish_bus (res : Result) (s : State) : (s.finish res).bus = s.bus := rfl
@[simp] theorem State.finish_past (res : Result) (s : State) : (s.finish res).past = s.past := rfl
@[simp] theorem State.finish_mem (res : Result) (s : State) : (s.finish res).mem = s.mem := rfl
@[simp] theorem State.finish_params (res : Result) (s : State) : (s.finish res).params = s.params := rfl
@[simp] theorem State.finish_card (res : Result) (s : State) : (s.finish res).card = s.card := rfl
@[simp] theorem State.finish_env (res : Result) (s : State) : (s.finish res).env = s.env := rfl
@[simp] theorem State.finish_turn (res : Result) (s : State) : (s.finish res).turn = s.turn := rfl
@[simp] theorem State.finish_rdata (res : Result) (s : State) : (s.finish res).rdata = s.rdata := rfl

end Sys2Proof.Machine
end

