-- ==== Sys2Proof/Laws/Bits.lean ====
section
/-! SUPPORT. Bit lemmas: writing bit 0 of a register, BUSY and CSA after an update, counting down, the bytes of a word. -/

namespace Sys2Proof.Machine

@[simp] theorem setBit0_getElem_zero (r : Byte) (v : Bool) : (setBit0 r v)[0] = v := by
  cases v <;> simp [setBit0]

theorem setBit0_getLsbD_zero (r : Byte) (v : Bool) : (setBit0 r v).getLsbD 0 = v := by
  simp

theorem setBit0_getLsbD_pos (r : Byte) (v : Bool) {i : Nat} (h : 0 < i) :
    (setBit0 r v).getLsbD i = r.getLsbD i := by
  by_cases hi : i < 8
  · interval_cases i <;> cases v <;> simp [setBit0]
  · simp [BitVec.getLsbD_of_ge _ _ (Nat.le_of_not_lt hi)]

@[simp] theorem setBit0_setBit0 (r : Byte) (v w : Bool) : setBit0 (setBit0 r v) w = setBit0 r w := by
  revert r; cases v <;> cases w <;> decide

/-- Writing the value bit 0 already has changes nothing. -/
theorem setBit0_self {r : Byte} {v : Bool} (h : r.getLsbD 0 = v) : setBit0 r v = r := by
  revert r; cases v <;> decide

@[simp] theorem State.launch_busy (c : Byte) (a : Activity) (s : State) : (s.launch c a).busy = true := by
  simp [State.busy]

@[simp] theorem State.finish_busy (res : Result) (s : State) : (s.finish res).busy = false := by
  simp [State.busy]

@[simp] theorem State.goto_busy (a : Activity) (s : State) : (s.goto a).busy = s.busy := rfl
@[simp] theorem State.exchange_busy (m : Byte) (s : State) : (s.exchange m).busy = s.busy := rfl
@[simp] theorem State.setCs_busy (v : Bool) (s : State) : (s.setCs v).busy = s.busy := rfl
@[simp] theorem State.loadShort_busy (s : State) : s.loadShort.busy = s.busy := rfl
@[simp] theorem State.tick_busy (s : State) : s.tick.busy = s.busy := rfl
@[simp] theorem State.setR1_busy (r : Byte) (s : State) : (s.setR1 r).busy = s.busy := rfl
@[simp] theorem State.setData_busy (b : Byte) (s : State) : (s.setData b).busy = s.busy := rfl
@[simp] theorem State.setBlkdone_busy (k : Nat) (s : State) : (s.setBlkdone k).busy = s.busy := rfl

@[simp] theorem State.setCs_csa (v : Bool) (s : State) : (s.setCs v).csa = v := by
  simp [State.csa]

@[simp] theorem State.setCs_clksel (v : Bool) (s : State) : (s.setCs v).clksel = s.clksel := by
  simp only [State.clksel, State.setCs_ctrl, setBit0_getLsbD_pos _ _ Nat.one_pos]

/-- A counter after one tick, as a number. -/
theorem countDown_toNat (c : Byte) : (countDown c).toNat = c.toNat - 1 := by
  revert c; decide

/-- A counter never holds more than TIMER_WIDTH bits (43_timer.md R210). -/
theorem counterValue_lt (p : Params) (n : Nat) : (counterValue p n).toNat < 2 ^ p.timerWidth := by
  rw [counterValue, BitVec.toNat_ofNat]
  exact Nat.lt_of_le_of_lt (Nat.mod_le _ _) (Nat.mod_lt _ (Nat.two_pow_pos _))

/-- The OPR codes of R81 and the rest of them. -/
theorem decodeOpr_encode (p : Params) (c : Byte) : encode p (decodeOpr c) = [c] ∧ (decodeOpr c).wf p = true := by
  revert c; exact of_decide_eq_true rfl

theorem bytes_concat (b1 b2 b3 b4 : Byte) :
    (b1 ++ b2 ++ b3 ++ b4).extractLsb' 24 8 = b1 ∧ (b1 ++ b2 ++ b3 ++ b4).extractLsb' 16 8 = b2 ∧
    (b1 ++ b2 ++ b3 ++ b4).extractLsb' 8 8 = b3 ∧ (b1 ++ b2 ++ b3 ++ b4).extractLsb' 0 8 = b4 := by
  refine ⟨?_, ?_, ?_, ?_⟩ <;> apply BitVec.eq_of_getLsbD_eq <;> intro i hi <;> interval_cases i <;>
    simp only [BitVec.getLsbD_extractLsb', BitVec.getLsbD_append] <;> simp

/-- A word is its four bytes, and four bytes are the bytes of their word (30_encoding.md R85). -/
theorem word_bytes (w : Word) :
    w.extractLsb' 24 8 ++ w.extractLsb' 16 8 ++ w.extractLsb' 8 8 ++ w.extractLsb' 0 8 = w := by
  apply BitVec.eq_of_getLsbD_eq
  intro i hi
  have : (w.extractLsb' 24 8 ++ w.extractLsb' 16 8 ++ w.extractLsb' 8 8 ++ w.extractLsb' 0 8).getLsbD i =
      w.getLsbD i := by
    simp only [BitVec.getLsbD_append, BitVec.getLsbD_extractLsb']
    interval_cases i <;> simp
  exact this

theorem bytes_word (b1 b2 b3 b4 : Byte) :
    (b1 ++ b2 ++ b3 ++ b4 : Word).extractLsb' 24 8 = b1 ∧ (b1 ++ b2 ++ b3 ++ b4 : Word).extractLsb' 16 8 = b2 ∧
    (b1 ++ b2 ++ b3 ++ b4 : Word).extractLsb' 8 8 = b3 ∧ (b1 ++ b2 ++ b3 ++ b4 : Word).extractLsb' 0 8 = b4 :=
  bytes_concat b1 b2 b3 b4

end Sys2Proof.Machine
end

