-- ==== Sys2Proof/Laws/Memory.lean ====
section
/-! SUPPORT. Host memory: reading after writing, and the one form of the list is kept. -/

namespace Sys2Proof.Machine

/-- A read after a write to the same address gives the byte written. -/
theorem Memory.read_write_same (m : List Host.Cell) (hm : m.Pairwise (fun x y => x.1 < y.1)) (a : Nat) (v : Byte) :
    Memory.read (Memory.write m a v) a = v := by
  induction m with
  | nil => by_cases h : v = Memory.blank <;> simp [Memory.write, Memory.read, h]
  | cons c m ih =>
    obtain ⟨b, w⟩ := c
    obtain ⟨hb, hm'⟩ := List.pairwise_cons.mp hm
    have absent : ∀ n : List Host.Cell, (∀ c ∈ n, a < c.1) → Memory.read n a = Memory.blank := by
      intro n hn
      induction n with
      | nil => rfl
      | cons d n ihn =>
        have hd := hn d (by simp)
        simp [Memory.read, Nat.ne_of_lt hd, ihn (fun c hc => hn c (by simp [hc]))]
    by_cases h1 : a < b
    · have hall : ∀ c ∈ ((b, w) :: m), a < c.1 := by
        intro c hc
        rcases List.mem_cons.mp hc with rfl | hc
        · exact h1
        · exact Nat.lt_trans h1 (hb c hc)
      by_cases h : v = Memory.blank
      · simp only [Memory.write, h1, h, if_true]; exact absent _ hall
      · simp [Memory.write, h1, h, Memory.read]
    · by_cases h2 : a = b
      · subst h2
        by_cases h : v = Memory.blank
        · simp only [Memory.write, h1, h, if_true, if_false]; exact absent m hb
        · simp [Memory.write, h, Memory.read]
      · simp [Memory.write, h1, h2, Memory.read, ih hm']

/-- A write leaves every other address alone. -/
theorem Memory.read_write_other (m : List Host.Cell) {a b : Nat} (v : Byte) (h : b ≠ a) :
    Memory.read (Memory.write m a v) b = Memory.read m b := by
  induction m with
  | nil => by_cases hv : v = Memory.blank <;> simp [Memory.write, Memory.read, hv, h]
  | cons c m ih =>
    obtain ⟨d, w⟩ := c
    by_cases h1 : a < d
    · by_cases hv : v = Memory.blank <;> simp [Memory.write, h1, hv, Memory.read, h]
    · by_cases h2 : a = d
      · subst h2
        by_cases hv : v = Memory.blank <;> simp [Memory.write, hv, Memory.read, h]
      · simp [Memory.write, h1, h2, Memory.read, ih]

/-- The addresses of a written list: those of the list, and the one written. -/
theorem Memory.mem_write {m : List Host.Cell} {a : Nat} {v : Byte} {c : Host.Cell}
    (h : c ∈ Memory.write m a v) : c ∈ m ∨ (c = (a, v) ∧ v ≠ Memory.blank) := by
  induction m with
  | nil =>
    by_cases hv : v = Memory.blank
    · simp [Memory.write, hv] at h
    · simp [Memory.write, hv] at h; exact .inr ⟨h, hv⟩
  | cons d m ih =>
    obtain ⟨b, w⟩ := d
    simp only [Memory.write] at h
    split_ifs at h with h1 hv h2 hv
    · exact .inl h
    · rcases List.mem_cons.mp h with rfl | h
      · exact .inr ⟨rfl, hv⟩
      · exact .inl h
    · exact .inl (List.mem_cons_of_mem _ h)
    · rcases List.mem_cons.mp h with rfl | h
      · exact .inr ⟨rfl, hv⟩
      · exact .inl (List.mem_cons_of_mem _ h)
    · rcases List.mem_cons.mp h with rfl | h
      · exact .inl (by simp)
      · exact (ih h).imp (List.mem_cons_of_mem _) id

/-- Every memory operation keeps the form (a read changes nothing). -/
theorem Memory.write_wf {m : List Host.Cell} (hm : Memory.wf m) (a : Nat) (v : Byte) :
    Memory.wf (Memory.write m a v) := by
  refine ⟨?_, fun c hc => ?_⟩
  · have hs := hm.1
    clear hm
    induction m with
    | nil => by_cases hv : v = Memory.blank <;> simp [Memory.write, hv]
    | cons d m ih =>
      obtain ⟨b, w⟩ := d
      obtain ⟨hb, hs'⟩ := List.pairwise_cons.mp hs
      by_cases h1 : a < b
      · by_cases hv : v = Memory.blank
        · simpa [Memory.write, h1, hv] using hs
        · simp only [Memory.write, h1, hv, if_true, if_false]
          refine List.pairwise_cons.mpr ⟨fun c hc => ?_, hs⟩
          rcases List.mem_cons.mp hc with rfl | hc
          · exact h1
          · exact Nat.lt_trans h1 (hb c hc)
      · by_cases h2 : a = b
        · subst h2
          by_cases hv : v = Memory.blank
          · simpa [Memory.write, hv] using hs'
          · simp only [Memory.write, h1, hv, if_false, if_true]
            exact List.pairwise_cons.mpr ⟨hb, hs'⟩
        · simp only [Memory.write, h1, h2, if_false]
          refine List.pairwise_cons.mpr ⟨fun c hc => ?_, ih hs'⟩
          rcases Memory.mem_write hc with hc | ⟨rfl, -⟩
          · exact hb c hc
          · show b < a
            omega
  · rcases Memory.mem_write hc with hc | ⟨rfl, hv⟩
    · exact hm.2 c hc
    · exact hv

/-- A write below the top of host memory keeps every listed byte below it. -/
theorem Memory.write_lt {m : List Host.Cell} {n : Nat} (hm : ∀ c ∈ m, c.1 < n) {a : Nat} (ha : a < n) (v : Byte) :
    ∀ c ∈ Memory.write m a v, c.1 < n := fun c hc => by
  rcases Memory.mem_write hc with hc | ⟨rfl, -⟩
  · exact hm c hc
  · exact ha

/-- A write of a byte host memory has keeps the memory of a state as it should be. -/
theorem State.memoryOk_write {s : State} (hm : s.memoryOk) {a : Nat} (ha : a < s.hostSpace) (v : Byte) :
    State.memoryOk { s with mem := Memory.write s.mem a v } :=
  ⟨Memory.write_wf hm.1 a v, Memory.write_lt hm.2 ha v⟩

/-- The memory after reset has the form. -/
theorem State.memoryOk_reset : State.reset.memoryOk := by
  simp [State.reset, State.powerUp, Memory.wf, State.memoryOk]

/-- What the block may access lies in host memory. -/
theorem State.admits_lt {s : State} {a : Nat} (h : s.admits a = true) : a < s.hostSpace := by
  simp [State.admits] at h; exact h.1.1

end Sys2Proof.Machine
end

