-- ==== Sys2Proof/Laws/Sequences.lean ====
section
/-! SUPPORT. What one step of a shared sub-sequence can do to the state: one primitive of 10_state.md R39. -/

namespace Sys2Proof.Machine

/-- One primitive of the engine (R39), the sequencer not moved: a sample or a memory read leaves the state as it is. -/
inductive Primitive (s : State) : State → Prop where
  | observe : Primitive s s
  | exchange (m : Byte) : Primitive s (s.exchange m)
  | chipSelect (v : Bool) : Primitive s (s.setCs v)
  | load : Primitive s s.loadShort
  | store (a : Nat) (v : Byte) (h : s.admits a = true) : Primitive s { s with mem := Memory.write s.mem a v }
  | r1 (r : Byte) : Primitive s (s.setR1 r)
  | data (b : Byte) : Primitive s (s.setData b)
  | blkdone (k : Nat) : Primitive s (s.setBlkdone k)

theorem waitStep_primitive (p : WaitPos) (s : State) : Primitive s (waitStep p s).2 := by
  cases p <;> simp only [waitStep] <;> constructor

/-- A ready wait returns only after its exchange or its sample. -/
theorem waitStep_done {p : WaitPos} {s s' : State} {b : Byte} (h : waitStep p s = (.done b, s')) :
    (p = .exchange ∧ s.nextByte = 0xFF ∧ b = 0xFF ∧ s' = s.exchange s.params.filler) ∨
    (p = .sample b ∧ s.tshort = 0 ∧ s' = s) := by
  cases p with
  | load => simp [waitStep] at h
  | exchange =>
    simp only [waitStep, Prod.mk.injEq] at h
    obtain ⟨h1, rfl⟩ := h
    split at h1
    · next hb => cases h1; exact .inl ⟨rfl, hb, rfl, rfl⟩
    · cases h1
  | sample c =>
    simp only [waitStep, Prod.mk.injEq, State.sampleShort] at h
    obtain ⟨h1, rfl⟩ := h
    by_cases hb : s.tshort = 0
    · rw [if_pos hb] at h1; cases h1; exact .inr ⟨rfl, hb, rfl⟩
    · rw [if_neg hb] at h1; cases h1

theorem commandStep_primitive (idx : BitVec 6) (arg : Word) (p : CmdPos) (s : State) :
    Primitive s (commandStep idx arg p s).2 := by
  cases p with
  | wait w =>
    have hw := waitStep_primitive w s
    simp only [commandStep]
    split <;> simp_all
  | frame n => exact .exchange _
  | poll n => exact .exchange _
  | stopPoll n last => exact .exchange _
  | record r => exact .r1 r

/-- A command returns only by writing R1, and returns what it wrote. -/
theorem commandStep_done {idx : BitVec 6} {arg : Word} {p : CmdPos} {s s' : State} {r : Byte}
    (h : commandStep idx arg p s = (.done r, s')) : p = .record r ∧ s' = s.setR1 r := by
  cases p with
  | wait w => simp only [commandStep] at h; split at h <;> cases h
  | frame n => cases h
  | poll n => cases h
  | stopPoll n last => cases h
  | record r' => cases h; exact ⟨rfl, rfl⟩

theorem receiveStep_primitive {base : Nat} {p : RcvPos} {s s' : State} {x : Turn RcvPos Bool}
    (h : receiveStep base p s = .ok (x, s')) : Primitive s s' := by
  cases p with
  | store i v =>
    simp only [receiveStep, State.memWrite] at h
    by_cases ha : s.admits (base + i) = true
    · simp only [ha, if_true] at h; cases h; exact .store _ _ ha
    · simp [ha] at h
  | load => cases h; exact .load
  | token => cases h; exact .exchange _
  | sample => cases h; exact .observe
  | payload i => cases h; exact .exchange _
  | crc1 => cases h; exact .exchange _
  | crc2 => cases h; exact .exchange _

/-- A receive step fails only at a payload byte whose address is not admitted. -/
theorem receiveStep_error {base : Nat} {p : RcvPos} {s : State} {f : Fault}
    (h : receiveStep base p s = .error f) :
    f = .hostAddress ∧ ∃ i v, p = .store i v ∧ s.admits (base + i) = false := by
  cases p with
  | store i v =>
    simp only [receiveStep, State.memWrite] at h
    by_cases ha : s.admits (base + i) = true
    · simp [ha] at h
    · simp only [ha, Bool.false_eq_true, if_false] at h
      cases h
      exact ⟨rfl, i, v, rfl, by simpa using ha⟩
  | load | token | sample | payload i | crc1 | crc2 => cases h

theorem transmitStep_primitive {base : Nat} {token : Byte} {p : XmtPos} {s s' : State} {x : Turn XmtPos Bool}
    (h : transmitStep base token p s = .ok (x, s')) : Primitive s s' ∧ s'.mem = s.mem := by
  cases p with
  | wait w =>
    have hw := waitStep_primitive w s
    have hm : (waitStep w s).2.mem = s.mem := by cases w <;> rfl
    simp only [transmitStep] at h
    split at h <;> cases h <;> simp_all
  | fetch i =>
    simp only [transmitStep, State.memRead] at h
    by_cases ha : s.admits (base + i) = true
    · simp only [ha, if_true] at h; cases h; exact ⟨.observe, rfl⟩
    · simp [ha] at h
  | token => cases h; exact ⟨.exchange _, rfl⟩
  | send i v => cases h; exact ⟨.exchange _, rfl⟩
  | crc1 => cases h; exact ⟨.exchange _, rfl⟩
  | crc2 => cases h; exact ⟨.exchange _, rfl⟩
  | response => cases h; exact ⟨.exchange _, rfl⟩

/-- A transmit step fails only at a payload byte whose address is not admitted. -/
theorem transmitStep_error {base : Nat} {token : Byte} {p : XmtPos} {s : State} {f : Fault}
    (h : transmitStep base token p s = .error f) :
    f = .hostAddress ∧ ∃ i, p = .fetch i ∧ s.admits (base + i) = false := by
  cases p with
  | wait w => simp only [transmitStep] at h; split at h <;> cases h
  | fetch i =>
    simp only [transmitStep, State.memRead] at h
    by_cases ha : s.admits (base + i) = true
    · simp [ha] at h
    · simp only [ha, Bool.false_eq_true, if_false] at h
      cases h
      exact ⟨rfl, i, rfl, by simpa using ha⟩
  | token | send i v | crc1 | crc2 | response => cases h

/-- Everything a step of the ready wait can change. -/
theorem waitStep_frame (p : WaitPos) (s : State) : ∃ (ts : Byte) (c : List Byte) (b : List BusEvent),
    (waitStep p s).2 = { s with tshort := ts, card := c, bus := b } := by
  cases p <;> exact ⟨_, _, _, rfl⟩

/-- Everything a step of a command can change. -/
theorem commandStep_frame (idx : BitVec 6) (arg : Word) (p : CmdPos) (s : State) :
    ∃ (ts r : Byte) (c : List Byte) (b : List BusEvent),
      (commandStep idx arg p s).2 = { s with tshort := ts, card := c, bus := b, r1 := r } := by
  cases p with
  | wait w =>
    obtain ⟨ts, c, b, hw⟩ := waitStep_frame w s
    simp only [commandStep]
    split <;> (next h => rw [h] at hw; cases hw; exact ⟨_, _, _, _, rfl⟩)
  | frame n => exact ⟨_, _, _, _, rfl⟩
  | poll n => exact ⟨_, _, _, _, rfl⟩
  | stopPoll n last => exact ⟨_, _, _, _, rfl⟩
  | record r => exact ⟨_, _, _, _, rfl⟩

/-- Everything an operation standing in a command can change in one step. -/
theorem commandTurn_frame (a : Activity) (idx : BitVec 6) (arg : Word) (p : CmdPos) (s : State) :
    ∃ (ts r : Byte) (c : List Byte) (b : List BusEvent) (q : Seq),
      s.commandTurn a idx arg p = { s with tshort := ts, card := c, bus := b, r1 := r, seq := q } := by
  obtain ⟨ts, r, c, b, h⟩ := commandStep_frame idx arg p s
  unfold State.commandTurn
  split <;> (next h' => rw [h'] at h; cases h; exact ⟨_, _, _, _, _, rfl⟩)

end Sys2Proof.Machine
end

