-- ==== Sys2Proof/Laws/Exec.lean ====
section
/-! SUPPORT. The engine step of a running operation, whichever row of the table the fetch names, and what it can do. -/

namespace Sys2Proof.Machine

/-- The engine step of an activity, by operation: what the operation's own meaning makes of it. -/
def advance (a : Activity) (s : State) : Outcome :=
  match a with
  | .nop => .next (s.finish .ok)
  | .select p => .next (s.selectTurn p)
  | .deselect p => .next (s.deselectTurn p)
  | .xmit p => .next (s.xmitTurn p)
  | .rcvr p => .next (s.rcvrTurn p)
  | .clktrain p => .next (s.clktrainTurn p)
  | .waitready p => .next (s.waitreadyTurn p)
  | .sendcmd p => .next (s.sendcmdTurn p)
  | .sendacmd p => .next (s.sendacmdTurn p)
  | .rcvrblk p => s.rcvrblkTurn p
  | .xmitblk p => s.xmitblkTurn p
  | .read p => s.readTurn p
  | .write p => s.writeTurn p
  | .reserved => .next (s.finish .parameter)

/-- The running operation's own meaning makes its engine step. -/
theorem exec_instr {a : Activity} {s : State} (hb : s.busy = true) (hs : s.seq = .running a) :
    exec (a.instr s) s = advance a s := by
  cases a <;> simp only [Activity.instr, exec, execNop, execSelect, execDeselect, execXmit, execRcvr, execClktrain,
    execWaitready, execSendcmd, execSendacmd, execRcvrblk, execXmitblk, execRead, execWrite, execReserved, hb, hs,
    if_true, advance]

/-- Where an operation stands in a command, its engine step is that command's. -/
theorem advance_command {a : Activity} {s : State} {idx : BitVec 6} {arg : Word} {p : CmdPos}
    (h : a.command? s = some (idx, arg, p)) : advance a s = .next (s.commandTurn a idx arg p) := by
  unfold Activity.command? at h
  split at h <;> cases h <;> rfl

/-- The meaning of a command row, by index. -/
theorem exec_commandRow (idx : BitVec 6) (arg : Word) (s : State) :
    exec (commandRow idx arg) s = s.wireCommand idx arg := by
  by_cases h0 : idx = 0
  · subst h0; rfl
  by_cases h1 : idx = 1
  · subst h1; rfl
  by_cases h8 : idx = 8
  · subst h8; rfl
  by_cases h9 : idx = 9
  · subst h9; rfl
  by_cases h10 : idx = 10
  · subst h10; rfl
  by_cases h12 : idx = 12
  · subst h12; rfl
  by_cases h16 : idx = 16
  · subst h16; rfl
  by_cases h17 : idx = 17
  · subst h17; rfl
  by_cases h18 : idx = 18
  · subst h18; rfl
  by_cases h23 : idx = 23
  · subst h23; rfl
  by_cases h24 : idx = 24
  · subst h24; rfl
  by_cases h25 : idx = 25
  · subst h25; rfl
  by_cases h41 : idx = 41
  · subst h41; rfl
  by_cases h55 : idx = 55
  · subst h55; rfl
  by_cases h58 : idx = 58
  · subst h58; rfl
  rw [commandRow, if_neg h0, if_neg h1, if_neg h8, if_neg h9, if_neg h10, if_neg h12, if_neg h16, if_neg h17, if_neg h18, if_neg h23, if_neg h24, if_neg h25, if_neg h41, if_neg h55, if_neg h58]
  rfl

/-- A command row runs the command the sequencer stands in. -/
theorem wireCommand_at {a : Activity} {s : State} {idx : BitVec 6} {arg : Word} {p : CmdPos}
    (hb : s.busy = true) (hs : s.seq = .running a) (h : a.command? s = some (idx, arg, p)) :
    s.wireCommand idx arg = .next (s.commandTurn a idx arg p) := by
  simp [State.wireCommand, hb, hs, h]

theorem decodeR1_ok {r : Byte} {i : Instr} (h : decodeR1 r = .ok i) :
    ∃ e : BitVec 7, i = .r1Valid e ∧ r = 0#1 ++ e := by
  unfold decodeR1 at h
  split at h
  · next hv =>
    cases h
    refine ⟨_, rfl, ?_⟩
    revert hv; revert r; decide
  · cases h

theorem decodeResponse_ok {p : Params} {d : Byte} {i : Instr} (h : decodeResponse p d = .ok i) :
    i = .dataResponseAccepted d ∧ responseAccepted p d = true := by
  unfold decodeResponse at h
  split at h
  · next hv => cases h; exact ⟨rfl, hv⟩
  · cases h

theorem decodeReadToken_ok {p : Params} {t : Byte} {i : Instr} (h : decodeReadToken p t = .ok i) :
    i = .tokenReadStart ∧ t = p.readToken := by
  unfold decodeReadToken at h
  split at h
  · next ht => cases h; exact ⟨rfl, ht⟩
  · cases h

/-- A written token's row sends that token. -/
theorem exec_decodeToken {t : Byte} {i : Instr} {s : State} (h : decodeToken s.params t = .ok i) :
    exec i s = s.sendToken t := by
  unfold decodeToken at h
  split_ifs at h <;> cases h <;> subst_vars <;> rfl

/-- Where an operation stands at a token or a response, its engine step is the block step. -/
theorem blockTurn_eq_advance {a : Activity} {s : State}
    (h : a.outToken? s ≠ none ∨ a.awaitsToken = true ∨ a.awaitsResponse = true) : s.blockTurn a = advance a s := by
  cases a <;> first | rfl | simp [Activity.outToken?, Activity.awaitsToken, Activity.awaitsResponse] at h

/-- Whichever row the fetch names, it makes the running operation's engine step. -/
theorem exec_fetch {a : Activity} {s : State} (hb : s.busy = true) (hs : s.seq = .running a) :
    exec (fetch a s) s = advance a s := by
  unfold fetch
  split
  · next idx arg p hc =>
    rw [advance_command hc]
    unfold commandFetch
    split
    · next n i hr =>
      obtain ⟨e, rfl, hn⟩ := decodeR1_ok hr
      simp [exec, execR1Valid, hb, hs, hc, hn]
    · rw [exec_commandRow, wireCommand_at hb hs hc]
  · split
    · next t ht =>
      split
      · next i hi =>
        rw [exec_decodeToken hi, ← blockTurn_eq_advance (.inl (by simp [ht]))]
        simp [State.sendToken, hb, hs, ht]
      · exact exec_instr hb hs
    · split_ifs with h1 h2
      · split
        · next i hi =>
          obtain ⟨rfl, hn⟩ := decodeReadToken_ok hi
          rw [← blockTurn_eq_advance (.inr (.inl h1))]
          simp [exec, execTokenReadStart, hb, hs, hn, h1]
        · exact exec_instr hb hs
      · split
        · next i hi =>
          obtain ⟨rfl, hn⟩ := decodeResponse_ok hi
          rw [← blockTurn_eq_advance (.inr (.inr h2))]
          simp [exec, execDataResponseAccepted, hb, hs, hn, h2]
        · exact exec_instr hb hs
      · exact exec_instr hb hs

/-- The engine steps the running operation. -/
theorem engine_running {a : Activity} {s : State} (hb : s.busy = true) (hs : s.seq = .running a) :
    engine s = advance a s := by
  simp only [engine, hb, hs, if_true, exec_fetch hb hs]

/-- The engine does nothing while the block is Idle. -/
theorem engine_idle {s : State} (h : s.busy = false ∨ s.seq = .idle) : engine s = .next s := by
  rcases h with h | h
  · simp [engine, h]
  · by_cases hb : s.busy <;> simp [engine, h, hb]

/-- A command's step is one primitive and a move of the sequencer. -/
theorem commandTurn_primitive (a : Activity) (idx : BitVec 6) (arg : Word) (p : CmdPos) (s : State) :
    ∃ u b, Primitive s u ∧ s.commandTurn a idx arg p = u.goto b := by
  have h := commandStep_primitive idx arg p s
  unfold State.commandTurn
  split <;> exact ⟨_, _, by simp_all, rfl⟩

/-- Everything an engine step can do (10_state.md R39): one primitive and a move of the sequencer, or `finish`. -/
theorem advance_cases {a : Activity} {s t : State} (h : advance a s = .next t) :
    (∃ u b, Primitive s u ∧ t = u.goto b) ∨ ∃ res, t = s.finish res := by
  cases a with
  | nop => cases h; exact .inr ⟨_, rfl⟩
  | reserved => cases h; exact .inr ⟨_, rfl⟩
  | select p =>
    cases p <;> cases h
    · exact .inl ⟨_, _, .chipSelect _, rfl⟩
    · exact .inr ⟨_, rfl⟩
  | deselect p =>
    cases p <;> cases h
    · exact .inl ⟨_, _, .chipSelect _, rfl⟩
    · exact .inl ⟨_, _, .exchange _, rfl⟩
    · exact .inr ⟨_, rfl⟩
  | xmit p =>
    cases p <;> cases h
    · exact .inl ⟨_, _, .exchange _, rfl⟩
    · exact .inr ⟨_, rfl⟩
  | rcvr p =>
    cases p <;> cases h
    · exact .inl ⟨_, _, .exchange _, rfl⟩
    · exact .inl ⟨_, _, .data _, rfl⟩
    · exact .inr ⟨_, rfl⟩
  | clktrain p =>
    cases p <;> cases h
    · exact .inl ⟨_, _, .chipSelect _, rfl⟩
    · exact .inl ⟨_, _, .exchange _, rfl⟩
    · exact .inr ⟨_, rfl⟩
  | waitready p =>
    cases p with
    | wait w =>
      have hw := waitStep_primitive w s
      simp only [advance, State.waitreadyTurn] at h
      split at h <;> cases h <;> exact .inl ⟨_, _, by simp_all, rfl⟩
    | record b => cases h; exact .inl ⟨_, _, .data _, rfl⟩
    | finish res => cases h; exact .inr ⟨_, rfl⟩
  | sendcmd p =>
    cases p <;> cases h
    · exact .inl (commandTurn_primitive ..)
    · exact .inr ⟨_, rfl⟩
  | sendacmd p =>
    cases p <;> cases h
    · exact .inl (commandTurn_primitive ..)
    · exact .inl (commandTurn_primitive ..)
    · exact .inr ⟨_, rfl⟩
  | rcvrblk p =>
    cases p with
    | block q =>
      simp only [advance, State.rcvrblkTurn] at h
      split at h <;> cases h
      · exact .inl ⟨_, _, receiveStep_primitive ‹_›, rfl⟩
      · exact .inl ⟨_, _, receiveStep_primitive ‹_›, rfl⟩
    | record ok => cases h; exact .inl ⟨_, _, .blkdone _, rfl⟩
    | finish res => cases h; exact .inr ⟨_, rfl⟩
  | xmitblk p =>
    cases p with
    | block q =>
      simp only [advance, State.xmitblkTurn] at h
      split at h <;> cases h
      · exact .inl ⟨_, _, (transmitStep_primitive ‹_›).1, rfl⟩
      · exact .inl ⟨_, _, (transmitStep_primitive ‹_›).1, rfl⟩
    | record ok => cases h; exact .inl ⟨_, _, .blkdone _, rfl⟩
    | finish res => cases h; exact .inr ⟨_, rfl⟩
  | read p =>
    cases p with
    | start =>
      simp only [advance, State.readTurn] at h
      split at h <;> cases h
      · exact .inl ⟨_, _, .blkdone _, rfl⟩
      · exact .inl ⟨_, _, .chipSelect _, rfl⟩
    | command q => cases h; exact .inl (commandTurn_primitive ..)
    | block k q =>
      simp only [advance, State.readTurn] at h
      split at h <;> cases h
      · exact .inl ⟨_, _, receiveStep_primitive ‹_›, rfl⟩
      · exact .inl ⟨_, _, receiveStep_primitive ‹_›, rfl⟩
    | stop k q => cases h; exact .inl (commandTurn_primitive ..)
    | release k => cases h; exact .inl ⟨_, _, .chipSelect _, rfl⟩
    | trailer k n => cases h; exact .inl ⟨_, _, .exchange _, rfl⟩
    | record k => cases h; exact .inl ⟨_, _, .blkdone _, rfl⟩
    | finish res => cases h; exact .inr ⟨_, rfl⟩
  | write p =>
    cases p with
    | start =>
      simp only [advance, State.writeTurn] at h
      split at h <;> cases h
      · exact .inl ⟨_, _, .blkdone _, rfl⟩
      · exact .inl ⟨_, _, .chipSelect _, rfl⟩
    | appPrefix q => cases h; exact .inl (commandTurn_primitive ..)
    | count q => cases h; exact .inl (commandTurn_primitive ..)
    | command q => cases h; exact .inl (commandTurn_primitive ..)
    | block k q =>
      simp only [advance, State.writeTurn] at h
      split at h <;> cases h
      · exact .inl ⟨_, _, (transmitStep_primitive ‹_›).1, rfl⟩
      · exact .inl ⟨_, _, (transmitStep_primitive ‹_›).1, rfl⟩
    | stopWait k w =>
      have hw := waitStep_primitive w s
      simp only [advance, State.writeTurn] at h
      split at h <;> cases h <;> exact .inl ⟨_, _, by simp_all, rfl⟩
    | stopToken k ready => cases h; exact .inl ⟨_, _, .exchange _, rfl⟩
    | release k ok => cases h; exact .inl ⟨_, _, .chipSelect _, rfl⟩
    | trailer k ok n => cases h; exact .inl ⟨_, _, .exchange _, rfl⟩
    | record k ok => cases h; exact .inl ⟨_, _, .blkdone _, rfl⟩
    | finish res => cases h; exact .inr ⟨_, rfl⟩

/-- Everything the engine can do. -/
theorem engine_cases {s t : State} (h : engine s = .next t) :
    (t = s ∧ (s.busy = false ∨ s.seq = .idle)) ∨
    (s.busy = true ∧ ((∃ u b, Primitive s u ∧ t = u.goto b) ∨ ∃ res, t = s.finish res)) := by
  by_cases hb : s.busy = true
  · cases hs : s.seq with
    | idle => rw [engine_idle (.inr hs)] at h; cases h; exact .inl ⟨rfl, .inr rfl⟩
    | running a =>
      rw [engine_running hb hs] at h
      exact .inr ⟨hb, advance_cases h⟩
  · rw [engine_idle (.inl (by simpa using hb))] at h; cases h; exact .inl ⟨rfl, .inl (by simpa using hb)⟩

/-- With BUSY = 0 an operation row starts at its first position, under its code (R23, R38). -/
theorem exec_operation_idle {i : Instr} {s : State} (hi : i.space = .opr) (hb : s.busy = false) :
    ∃ c a, encode s.params i = [c] ∧ firstPosition i s = some a ∧ exec i s = .next (s.launch c a) := by
  cases i <;> first | (cases hi; done) | skip
  all_goals
    simp only [exec, execNop, execSelect, execDeselect, execXmit, execRcvr, execClktrain, execWaitready, execSendcmd,
      execSendacmd, execRcvrblk, execXmitblk, execRead, execWrite, execReserved, hb, Bool.false_eq_true, if_false]
    exact ⟨_, _, rfl, rfl, rfl⟩

/-- Every OPR value decodes to an operation row. -/
theorem decodeOpr_space (c : Byte) : (decodeOpr c).space = .opr := by
  revert c; decide

/-- With BUSY = 0 an operation code starts its operation at its first position (R23, R38). -/
theorem exec_decodeOpr_idle (c : Byte) {s : State} (hb : s.busy = false) :
    ∃ a, firstPosition (decodeOpr c) s = some a ∧ exec (decodeOpr c) s = .next (s.launch c a) := by
  obtain ⟨c', a, hc, ha, h⟩ := exec_operation_idle (decodeOpr_space c) hb
  rw [(decodeOpr_encode s.params c).1] at hc
  cases hc
  exact ⟨a, ha, h⟩

/-- The operation at its first position is the one the code decodes to. -/
theorem firstPosition_instr {c : Byte} {s t : State} {a : Activity} (h : firstPosition (decodeOpr c) s = some a)
    (ht : t.opr = c) : a.instr t = decodeOpr c := by
  have he := (decodeOpr_encode s.params c).1
  generalize decodeOpr c = i at *
  cases i <;> cases h <;> first | rfl | skip
  next d =>
    have : d = c := List.head_eq_of_cons_eq he
    subst this; subst ht; rfl

/-- Moving inside an operation keeps the operation. -/
theorem withCommand_instr (a : Activity) (p : CmdPos) (s : State) : (a.withCommand p).instr s = a.instr s := by
  cases a with
  | sendcmd x => cases x <;> rfl
  | sendacmd x => cases x <;> rfl
  | read x => cases x <;> rfl
  | write x => cases x <;> rfl
  | _ => rfl

theorem afterCommand_instr (a : Activity) (r : Byte) (u s : State) : (a.afterCommand r u).instr s = a.instr s := by
  unfold Activity.afterCommand
  split <;> (try split_ifs) <;> rfl

theorem commandTurn_instr (a : Activity) (idx : BitVec 6) (arg : Word) (p : CmdPos) (s : State) :
    ∃ (u : State) (b : Activity), s.commandTurn a idx arg p = u.goto b ∧ ∀ s', b.instr s' = a.instr s' := by
  unfold State.commandTurn
  split
  · exact ⟨_, _, rfl, fun _ => withCommand_instr ..⟩
  · exact ⟨_, _, rfl, fun _ => afterCommand_instr ..⟩

/-- An engine step never turns one operation into another. -/
theorem advance_instr {a b : Activity} {s t : State} (h : advance a s = .next t) (hb : t.seq = .running b) :
    ∀ s', b.instr s' = a.instr s' := by
  have ct : ∀ {idx arg p}, t = s.commandTurn a idx arg p → ∀ s', b.instr s' = a.instr s' := by
    intro idx arg p h
    obtain ⟨u, b', h1, h2⟩ := commandTurn_instr a idx arg p s
    rw [h, h1] at hb; cases hb; exact h2
  cases a with
  | nop => cases h; cases hb
  | reserved => cases h; cases hb
  | select p => cases p <;> cases h <;> cases hb <;> exact fun _ => rfl
  | deselect p => cases p <;> cases h <;> cases hb <;> exact fun _ => rfl
  | xmit p => cases p <;> cases h <;> cases hb <;> exact fun _ => rfl
  | rcvr p => cases p <;> cases h <;> cases hb <;> exact fun _ => rfl
  | clktrain p => cases p <;> cases h <;> cases hb <;> exact fun _ => rfl
  | waitready p =>
    cases p with
    | wait w => simp only [advance, State.waitreadyTurn] at h; split at h <;> cases h <;> cases hb <;> exact fun _ => rfl
    | record b => cases h; cases hb; exact fun _ => rfl
    | finish res => cases h; cases hb
  | sendcmd p =>
    cases p with
    | command q => exact ct (Host.Outcome.next.inj h).symm
    | finish res => cases h; cases hb
  | sendacmd p =>
    cases p with
    | appPrefix q => exact ct (Host.Outcome.next.inj h).symm
    | command q => exact ct (Host.Outcome.next.inj h).symm
    | finish res => cases h; cases hb
  | rcvrblk p =>
    cases p with
    | block q => simp only [advance, State.rcvrblkTurn] at h; split at h <;> cases h <;> cases hb <;> exact fun _ => rfl
    | record ok => cases h; cases hb; exact fun _ => rfl
    | finish res => cases h; cases hb
  | xmitblk p =>
    cases p with
    | block q => simp only [advance, State.xmitblkTurn] at h; split at h <;> cases h <;> cases hb <;> exact fun _ => rfl
    | record ok => cases h; cases hb; exact fun _ => rfl
    | finish res => cases h; cases hb
  | read p =>
    cases p with
    | start => simp only [advance, State.readTurn] at h; split at h <;> cases h <;> cases hb <;> exact fun _ => rfl
    | command q => exact ct (Host.Outcome.next.inj h).symm
    | stop k q => exact ct (Host.Outcome.next.inj h).symm
    | block k q => simp only [advance, State.readTurn] at h; split at h <;> cases h <;> cases hb <;> exact fun _ => rfl
    | finish res => cases h; cases hb
    | _ => cases h; cases hb; exact fun _ => rfl
  | write p =>
    cases p with
    | start => simp only [advance, State.writeTurn] at h; split at h <;> cases h <;> cases hb <;> exact fun _ => rfl
    | command q => exact ct (Host.Outcome.next.inj h).symm
    | appPrefix q => exact ct (Host.Outcome.next.inj h).symm
    | count q => exact ct (Host.Outcome.next.inj h).symm
    | block k q => simp only [advance, State.writeTurn] at h; split at h <;> cases h <;> cases hb <;> exact fun _ => rfl
    | stopWait k q => simp only [advance, State.writeTurn] at h; split at h <;> cases h <;> cases hb <;> exact fun _ => rfl
    | finish res => cases h; cases hb
    | _ => cases h; cases hb; exact fun _ => rfl

/-- A frame, token or response row answers a next state only as the engine step of the operation that runs. -/
theorem exec_row {i : Instr} {s t : State} (h : exec i s = .next t) (hi : i.space ≠ .opr) :
    s.busy = true ∧ ∃ a, s.seq = .running a ∧ advance a s = .next t := by
  have wc : ∀ {idx arg}, s.wireCommand idx arg = .next t →
      s.busy = true ∧ ∃ a, s.seq = .running a ∧ advance a s = .next t := by
    intro idx arg h
    unfold State.wireCommand at h
    split_ifs at h with hb
    refine ⟨hb, ?_⟩
    split at h
    · next a hs =>
      split at h
      · next hc => split_ifs at h with h1; obtain ⟨rfl, rfl⟩ := h1; exact ⟨a, hs, (advance_command hc).trans h⟩
      · cases h
    · cases h
  have bt : ∀ {a : Activity}, s.blockTurn a = .next t → advance a s = .next t := by
    intro a h; cases a <;> first | exact h | cases h
  have st : ∀ {tk}, s.sendToken tk = .next t →
      s.busy = true ∧ ∃ a, s.seq = .running a ∧ advance a s = .next t := by
    intro tk h
    unfold State.sendToken at h
    split_ifs at h with hb
    refine ⟨hb, ?_⟩
    split at h
    · next a hs => split_ifs at h; exact ⟨a, hs, bt h⟩
    · cases h
  cases i <;> first | exact wc h | exact st h | exact absurd rfl hi | skip
  · simp only [exec, execTokenReadStart] at h
    split_ifs at h with hb
    simp only [Bool.and_eq_true] at hb
    refine ⟨hb.1, ?_⟩
    split at h
    · next a hs => split_ifs at h; exact ⟨a, hs, bt h⟩
    · cases h
  · simp only [exec, execDataResponseAccepted] at h
    split_ifs at h with hb
    simp only [Bool.and_eq_true] at hb
    refine ⟨hb.1.1, ?_⟩
    split at h
    · next a hs => split_ifs at h; exact ⟨a, hs, bt h⟩
    · cases h
  · simp only [exec, execR1Valid] at h
    split_ifs at h with hb
    simp only [Bool.and_eq_true] at hb
    refine ⟨hb.1, ?_⟩
    split at h
    · next a hs =>
      split at h
      · next hc => exact ⟨a, hs, (advance_command hc).trans h⟩
      · cases h
    · cases h

/-- An operation's row answers a next state as its start, with BUSY = 0, or as its own engine step. -/
theorem exec_operation {i : Instr} {s t : State} (h : exec i s = .next t) (hi : i.space = .opr) :
    (s.busy = false ∧ ∃ c a, t = s.launch c a) ∨
    (s.busy = true ∧ ∃ a, s.seq = .running a ∧ advance a s = .next t ∧ ∃ u, i = a.instr u) := by
  by_cases hb : s.busy = true
  · refine .inr ⟨hb, ?_⟩
    cases i <;> first | (cases hi; done) | skip
    all_goals
      simp only [exec, execNop, execSelect, execDeselect, execXmit, execRcvr, execClktrain, execWaitready, execSendcmd,
        execSendacmd, execRcvrblk, execXmitblk, execRead, execWrite, execReserved, hb, if_true] at h
      split at h
      · next hs => exact ⟨_, hs, h, by first | exact ⟨s, rfl⟩ | exact ⟨{ s with opr := ‹Byte› }, rfl⟩⟩
      · cases h
  · refine .inl ⟨by simpa using hb, ?_⟩
    cases i <;> first | (cases hi; done) | skip
    all_goals
      simp only [exec, execNop, execSelect, execDeselect, execXmit, execRcvr, execClktrain, execWaitready, execSendcmd,
        execSendacmd, execRcvrblk, execXmitblk, execRead, execWrite, execReserved, hb] at h
      cases h; exact ⟨_, _, rfl⟩

end Sys2Proof.Machine
end

