-- ==== Sys2Proof/Laws/Step.lean ====
section
/-! SUPPORT. Everything one step of the machine can do, and the step of a placed instruction. -/

namespace Sys2Proof.Machine

/-- Taking an action off touches only the list of pending actions and the count of free ones. -/
theorem takeAction_eq (s : State) : ∃ e n, s.takeAction = { s with env := e, turn := n } := by
  unfold State.takeAction
  split
  · exact ⟨_, _, rfl⟩
  · exact ⟨s.env, _, rfl⟩

@[simp] theorem takeAction_busy (s : State) : s.takeAction.busy = s.busy := by
  obtain ⟨e, n, h⟩ := takeAction_eq s; rw [h]; rfl

/-- The step of a pending action. -/
theorem step_env {s : State} {a : Action} {rest : List Action} (h : s.env = a :: rest) :
    step s = perform a { s with env := rest } := by
  simp only [step, State.nextAction, State.takeAction, h]

/-- What a host store to the register block can do (10_state.md R23, R40). -/
theorem hostStore_cases {w : Width} {off : BitVec 5} {v : Word} {s t : State} (h : hostStore w off v s = .next t) :
    s.busy = false ∧ ((∃ c a, firstPosition (decodeOpr c) s = some a ∧ t = s.launch c a) ∨
      ∃ r v, r ≠ .opr ∧ t = s.writeReg v r) := by
  unfold hostStore at h
  split at h
  · cases h
  · next hb =>
    have hb : s.busy = false := by simpa using hb
    refine ⟨hb, ?_⟩
    split at h
    · cases h
    · obtain ⟨a, ha, e⟩ := exec_decodeOpr_idle (v.truncate 8) hb
      rw [e] at h; cases h; exact .inl ⟨_, a, ha, rfl⟩
    · next r hr _ => cases h; exact .inr ⟨r, v, hr, rfl⟩

/-- What a host load can do (R41). -/
theorem hostLoad_cases {w : Width} {off : BitVec 5} {s t : State} (h : hostLoad w off s = .next t) :
    ∃ r, regAt w off = some r ∧ t = { s with rdata := s.readReg r } := by
  unfold hostLoad at h
  split at h
  · cases h
  · next r hr => cases h; exact ⟨r, hr, rfl⟩

/-- What one action of a run can do. -/
theorem perform_cases {a : Action} {s t : State} (h : perform a s = .next t) :
    (a = .engine ∧ engine s = .next t) ∨ (a = .tick ∧ t = s.tick) ∨
    (s.busy = false ∧ ∃ c a, firstPosition (decodeOpr c) s = some a ∧ t = s.launch c a) ∨
    (s.busy = false ∧ ∃ r v, r ≠ .opr ∧ t = s.writeReg v r) ∨
    (∃ v, t = { s with rdata := v }) ∨
    (∃ b v, b < s.hostSpace ∧ t = { s with mem := Memory.write s.mem b v }) ∨
    (a = .poll ∧ t = hostPoll s) ∨ (a = .reset ∧ t = s.applyReset) := by
  cases a with
  | engine => exact .inl ⟨rfl, h⟩
  | tick => cases h; exact .inr (.inl ⟨rfl, rfl⟩)
  | store w off v =>
    obtain ⟨hb, h | h⟩ := hostStore_cases h
    · exact .inr (.inr (.inl ⟨hb, h⟩))
    · exact .inr (.inr (.inr (.inl ⟨hb, h⟩)))
  | load w off =>
    obtain ⟨r, -, h⟩ := hostLoad_cases h
    exact .inr (.inr (.inr (.inr (.inl ⟨_, h⟩))))
  | memStore b v =>
    simp only [perform, hostMemStore] at h
    split at h
    · obtain ⟨hb, h | h⟩ := hostStore_cases h
      · exact .inr (.inr (.inl ⟨hb, h⟩))
      · exact .inr (.inr (.inr (.inl ⟨hb, h⟩)))
    · split_ifs at h with h1 h2
      cases h; exact .inr (.inr (.inr (.inr (.inr (.inl ⟨b, v, Nat.lt_of_not_le h2, rfl⟩)))))
  | memLoad b =>
    simp only [perform, hostMemLoad] at h
    split at h
    · obtain ⟨r, -, h⟩ := hostLoad_cases h
      exact .inr (.inr (.inr (.inr (.inl ⟨_, h⟩))))
    · split_ifs at h
      cases h; exact .inr (.inr (.inr (.inr (.inl ⟨_, rfl⟩))))
  | poll => cases h; exact .inr (.inr (.inr (.inr (.inr (.inr (.inl ⟨rfl, rfl⟩))))))
  | reset => cases h; exact .inr (.inr (.inr (.inr (.inr (.inr (.inr ⟨rfl, rfl⟩))))))

/-- The step of an engine action pending at a place. -/
theorem step_placeAt (code : Byte) (a : Activity) (s : State) :
    step (s.placeAt code a) = exec (fetch a (s.launch code a)) (s.launch code a) := by
  have h : step (s.placeAt code a) = engine (s.launch code a) :=
    step_env (s := s.placeAt code a) (rest := s.env) rfl
  rw [h, engine, if_pos (State.launch_busy code a s)]
  rfl

/-- The step of a pending store of an operation code to an Idle block. -/
theorem step_placeOpr (c : Byte) {s : State} {rest : List Action} (hb : s.busy = false)
    (h : s.env = wr .opr (c.zeroExtend 32) :: rest) : step s = exec (decodeOpr c) { s with env := rest } := by
  rw [step_env h]
  have hb' : ({ s with env := rest } : State).busy = false := hb
  have hc : (c.zeroExtend 32).truncate 8 = c := by clear h; revert c; decide
  simp only [perform, wr, Reg.width, Reg.offset, hostStore, hb']
  rw [show regAt .b1 0x00 = some .opr from rfl]
  simp only [hc, Bool.false_eq_true, if_false]

/-- The row of an unnamed index. -/
theorem commandRow_other {p : Params} {idx : BitVec 6} {arg : Word} (h : (Instr.sdcmdOther idx arg).wf p = true) :
    commandRow idx arg = .sdcmdOther idx arg := by
  have key : ∀ idx : BitVec 6, namedIndices.contains idx = false →
      idx ≠ 0 ∧ idx ≠ 1 ∧ idx ≠ 8 ∧ idx ≠ 9 ∧ idx ≠ 10 ∧ idx ≠ 12 ∧ idx ≠ 16 ∧ idx ≠ 17 ∧ idx ≠ 18 ∧ idx ≠ 23 ∧
      idx ≠ 24 ∧ idx ≠ 25 ∧ idx ≠ 41 ∧ idx ≠ 55 ∧ idx ≠ 58 := by decide
  obtain ⟨h0, h1, h2, h3, h4, h5, h6, h7, h8, h9, h10, h11, h12, h13, h14⟩ := key idx (by simpa [Instr.wf] using h)
  rw [commandRow, if_neg h0, if_neg h1, if_neg h2, if_neg h3, if_neg h4, if_neg h5, if_neg h6, if_neg h7, if_neg h8,
    if_neg h9, if_neg h10, if_neg h11, if_neg h12, if_neg h13, if_neg h14]

/-- The code of a reserved operation. -/
theorem decodeOpr_reserved {p : Params} {c : Byte} (h : (Instr.reserved c).wf p = true) :
    decodeOpr c = .reserved c := by
  have key : ∀ c : Byte, (!assignedCodes.contains c) = true → decodeOpr c = .reserved c := by decide
  exact key c h

theorem decodeResponse_accepted {p : Params} {d : Byte} (h : (Instr.dataResponseAccepted d).wf p = true) :
    decodeResponse p d = .ok (.dataResponseAccepted d) :=
  if_pos h

/-- Each written token decodes to its own row, where the instance keeps them apart. -/
theorem decodeToken_written {p : Params} (h : codesDistinct p) :
    decodeToken p p.tokenSingle = .ok .tokenStartSingle ∧ decodeToken p p.tokenMulti = .ok .tokenStartMulti ∧
    decodeToken p p.tokenStop = .ok .tokenStop := by
  obtain ⟨-, h1, h2, h3⟩ := h
  simp [decodeToken, h1.symm, h2.symm, h3.symm]

theorem decodeR1_valid (e : BitVec 7) : decodeR1 (0#1 ++ e) = .ok (.r1Valid e) := by
  revert e; decide

/-- The fetch at the start of a command gives the command's row. -/
theorem fetch_commandStart {a : Activity} {s : State} {idx : BitVec 6} {arg : Word}
    (h : a.command? s = some (idx, arg, commandStart idx)) : fetch a s = commandRow idx arg := by
  have hp : commandStart idx = .frame 0 ∨ commandStart idx = .wait .load := by
    unfold commandStart; split
    · exact .inl rfl
    · exact .inr rfl
  rcases hp with hp | hp <;> rw [hp] at h <;> simp only [fetch, h, commandFetch]

/-- The place SENDCMD is put at for a command frame. -/
theorem fetch_sendcmdStart (idx : BitVec 6) (arg : Word) (code : Byte) (s : State) :
    fetch (.sendcmd (.command (commandStart idx)))
      (State.launch code (.sendcmd (.command (commandStart idx))) { s with cmdidx := idx.zeroExtend 8, arg := arg }) =
        commandRow idx arg := by
  have hc : (idx.zeroExtend 8).truncate 6 = idx := by revert idx; decide
  refine fetch_commandStart ?_
  simp only [Activity.command?, State.commandIndex, State.launch_cmdidx, hc]
  rfl

/-- The step of a placed operation code. -/
theorem step_placedOpr {i : Instr} (c : Byte) (s : State)
    (hp : s.place i = { s with stat := setBit0 s.stat false, seq := .idle, env := wr .opr (c.zeroExtend 32) :: s.env })
    (hd : decodeOpr c = i) : step (s.place i) = exec i (s.place i).takeAction := by
  rw [hp, step_placeOpr c (by simp [State.busy]) rfl, hd]
  rfl

/-- The step of a placed instruction is its meaning (log entry 7). -/
theorem step_place {i : Instr} (s : State) (hc : codesDistinct s.params) (hi : i.wf s.params = true) :
    step (s.place i) = exec i (s.place i).takeAction := by
  cases i with
  | nop => exact step_placedOpr 0x00 s rfl rfl
  | select => exact step_placedOpr 0x01 s rfl rfl
  | deselect => exact step_placedOpr 0x02 s rfl rfl
  | xmit => exact step_placedOpr 0x03 s rfl rfl
  | rcvr => exact step_placedOpr 0x04 s rfl rfl
  | clktrain => exact step_placedOpr 0x05 s rfl rfl
  | waitready => exact step_placedOpr 0x10 s rfl rfl
  | sendcmd => exact step_placedOpr 0x11 s rfl rfl
  | sendacmd => exact step_placedOpr 0x12 s rfl rfl
  | rcvrblk => exact step_placedOpr 0x20 s rfl rfl
  | xmitblk => exact step_placedOpr 0x21 s rfl rfl
  | read => exact step_placedOpr 0x30 s rfl rfl
  | write => exact step_placedOpr 0x31 s rfl rfl
  | reserved code => exact step_placedOpr code s rfl (decodeOpr_reserved hi)
  | acmdSetBlockCount arg | acmdOpCond arg =>
    refine (step_placeAt _ _ _).trans ?_
    rw [fetch_commandStart (by rfl)]
    rfl
  | goIdle arg | opCondMmc arg | sendIfCond arg | sendCsd arg | sendCid arg | stopTransmission arg | setBlocklen arg
  | readSingleBlock arg | readMultipleBlock arg | writeBlock arg | writeMultipleBlock arg | appCmd arg
  | readOcr arg =>
    refine (step_placeAt _ _ _).trans ?_
    rw [fetch_sendcmdStart]
    rfl
  | sdcmdOther idx arg =>
    refine (step_placeAt _ _ _).trans ?_
    rw [fetch_sendcmdStart, commandRow_other hi]
    rfl
  | tokenStartSingle | tokenStartMulti | tokenStop =>
    refine (step_placeAt _ _ _).trans ?_
    simp only [fetch, Activity.command?, Activity.outToken?, State.launch_data, State.launch_params,
      decodeToken_written hc]
    rfl
  | tokenReadStart =>
    refine (step_placeAt _ _ _).trans ?_
    have h : decodeReadToken s.params s.params.readToken = .ok .tokenReadStart := if_pos rfl
    simp only [fetch, Activity.command?, Activity.outToken?, Activity.awaitsToken, State.launch_params]
    rw [show State.nextByte _ = s.params.readToken from rfl, h]
    rfl
  | dataResponseAccepted d =>
    refine (step_placeAt _ _ _).trans ?_
    simp only [fetch, Activity.command?, Activity.outToken?, Activity.awaitsToken, Activity.awaitsResponse,
      State.launch_params]
    rw [show State.nextByte _ = d from rfl, decodeResponse_accepted hi]
    rfl
  | r1Valid e =>
    refine (step_placeAt _ _ _).trans ?_
    have h : decodeR1 (0#1 ++ e) = .ok (.r1Valid e) := decodeR1_valid e
    simp only [fetch, Activity.command?, commandFetch]
    rw [show State.nextByte _ = 0#1 ++ e from rfl, h]
    rfl

/-! ### Runs -/

/-- Ticks neither read nor change the pending actions. -/
theorem ticks_env (n : Nat) (e rest : List Action) (s : State) :
    { ticks n { s with env := e } with env := rest } = { ticks n s with env := rest } := by
  induction n generalizing s with
  | zero => rfl
  | succ n ih => exact ih s.tick

/-- What every step keeps, every run of a schedule keeps. -/
theorem run_keeps {P : State → Prop} (h : ∀ s t, P s → step s = .next t → P t) :
    ∀ {n : Nat} {s t : State}, P s → run n s = .next t → P t
  | 0, _, _, hs, hr => by cases hr; exact hs
  | n + 1, s, t, hs, hr => by
    simp only [run] at hr
    split at hr
    · cases hr; exact hs
    · split at hr
      · exact run_keeps h (h _ _ hs ‹_›) hr
      · cases hr
      · cases hr

/-- And so does a machine whose world never runs out of actions. -/
theorem steps_keep {P : State → Prop} (h : ∀ s t, P s → step s = .next t → P t) :
    ∀ {n : Nat} {s t : State}, P s → steps n s = .next t → P t
  | 0, _, _, hs, hr => by cases hr; exact hs
  | n + 1, s, t, hs, hr => by
    simp only [steps] at hr
    split at hr
    · exact steps_keep h (h _ _ hs ‹_›) hr
    · cases hr
    · cases hr

theorem steps_succ {n : Nat} {s u : State} (h : step s = .next u) : steps (n + 1) s = steps n u := by
  simp only [steps, h]

/-- Actions after actions. -/
theorem steps_add {m n : Nat} {s u : State} (h : steps m s = .next u) : steps (m + n) s = steps n u := by
  induction m generalizing s with
  | zero => cases h; rw [Nat.zero_add]
  | succ m ih =>
    rw [Nat.succ_add]
    simp only [steps] at h ⊢
    split at h
    · exact ih h
    · cases h
    · cases h

/-- The engine's turn, pending. -/
theorem step_engine {s : State} {a : Activity} {rest : List Action} (he : s.env = .engine :: rest)
    (hb : s.busy = true) (hs : s.seq = .running a) : step s = advance a { s with env := rest } := by
  rw [step_env he]; exact engine_running (s := { s with env := rest }) hb hs

/-- Pending ticks, taken one after another. -/
theorem steps_ticks {rest : List Action} : ∀ {n : Nat} {s : State}, s.env = List.replicate n .tick ++ rest →
    steps n s = .next { ticks n s with env := rest }
  | 0, s, h => by obtain rfl : s.env = rest := h; rfl
  | n + 1, s, h => by
    rw [steps_succ (u := { s with env := List.replicate n Action.tick ++ rest }.tick) (step_env h),
      steps_ticks (rest := rest) rfl]
    exact congrArg Host.Outcome.next (ticks_env n _ rest s.tick)

/-- An observation is that of the ended state a run stopped in. -/
theorem observation_some {o : Outcome} {x : Observation} (h : observation o = some x) :
    ∃ s, o = .next s ∧ s.ended = true ∧ x = s.observe := by
  cases o with
  | next s =>
    simp only [observation, Option.ite_none_right_eq_some, Option.some.injEq] at h
    exact ⟨s, rfl, h.1, h.2.symm⟩
  | fault _ => cases h
  | refused _ => cases h

end Sys2Proof.Machine
end

