-- ==== Sys2Proof/Laws/Encoding.lean ====
section
/-! SUPPORT. Frames: the row of an index and argument, its bytes, and what they decode to. -/

namespace Sys2Proof.Machine

/-- Both branches of a choice. -/
theorem ite_cases {c : Prop} [Decidable c] {x y : Instr} {P : Instr → Prop} (h : c → P x) (h' : P y) : P (if c then x else y) := by
  split
  · exact h ‹_›
  · exact h'

/-- The row of an index and argument encodes to their frame. -/
theorem encode_commandRow (p : Params) (idx : BitVec 6) (arg : Word) :
    encode p (commandRow idx arg) = frameBytes p idx arg := by
  unfold commandRow
  repeat (apply ite_cases (P := fun i => encode p i = frameBytes p idx arg); · (intro h; subst h; rfl))
  rfl

/-- The index of an opcode byte, where the prefix leaves its bits free (30_encoding.md R84). -/
theorem opcodeByte_index {p : Params} (h : p.opcodePrefix &&& 0x3F = 0) (idx : BitVec 6) :
    (opcodeByte p idx).extractLsb' 0 6 = idx := by
  have hz : ∀ x : Byte, x &&& 0x3F = 0 → x.extractLsb' 0 6 = 0 := by decide
  have hi : ∀ i : BitVec 6, (i.zeroExtend 8).extractLsb' 0 6 = i := by decide
  simp only [opcodeByte, BitVec.extractLsb'_or, hz _ h, hi]
  exact BitVec.zero_or

/-- The frame of an index and argument decodes to their row. -/
theorem decode_frameBytes {p : Params} (h : p.opcodePrefix &&& 0x3F = 0) (idx : BitVec 6) (arg : Word) :
    decode p .frame (frameBytes p idx arg) = .ok (commandRow idx arg) := by
  have hw : frameByte p idx arg 1 ++ frameByte p idx arg 2 ++ frameByte p idx arg 3 ++ frameByte p idx arg 4 = arg :=
    word_bytes arg
  show decodeFrame p (opcodeByte p idx) _ _ _ _ (checksum p idx) = _
  simp only [decodeFrame, opcodeByte_index h, ne_eq, not_true_eq_false, if_false]
  exact congrArg (fun w => Except.ok (commandRow idx w)) hw

end Sys2Proof.Machine
end

