-- ==== Sys2Proof/Laws/Runs.lean ====
section
/-! SUPPORT. Runs of engine steps: one step, composition, and what each stretch of a shared sub-sequence does from its
start to its end (a frame, a response poll, a stop budget, a payload), in whatever operation it stands. -/

namespace Sys2Proof.Machine

/-! ### Runs in general -/

theorem engineRun_succ {n : Nat} {s u : State} (h : engine s = .next u) : engineRun (n + 1) s = engineRun n u := by
  simp only [engineRun, h]

theorem engineRun_add {m : Nat} : ∀ {n : Nat} {s u : State}, engineRun m s = .next u →
    engineRun (m + n) s = engineRun n u := by
  induction m with
  | zero => intro n s u h; cases h; rw [Nat.zero_add]
  | succ m ih =>
    intro n s u h
    simp only [engineRun] at h
    rw [Nat.succ_add]
    cases hv : engine s with
    | next v => rw [hv] at h; rw [engineRun_succ hv]; exact ih h
    | fault f => rw [hv] at h; cases h
    | refused r => rw [hv] at h; cases h

theorem engineRun_one {s u : State} (h : engine s = .next u) : engineRun 1 s = .next u := by
  rw [engineRun_succ h, engineRun]

/-- BUSY set by the start and cleared by the finish leaves STAT as it was. -/
theorem stat_restored {s : State} (hb : s.busy = false) : setBit0 (setBit0 s.stat true) false = s.stat := by
  rw [setBit0_setBit0, setBit0_self hb]

/-- A run of one step more. -/
theorem run_step {n : Nat} {s t u : State} {a : Activity} (hb : s.busy = true) (hs : s.seq = .running a)
    (h : advance a s = .next u) (hr : engineRun n u = .next t) : engineRun (n + 1) s = .next t := by
  rw [engineRun_succ ((engine_running hb hs).trans h)]; exact hr

/-- A run after a run. -/
theorem run_trans {m n : Nat} {s t u : State} (h : engineRun m s = .next u) (hr : engineRun n u = .next t) :
    engineRun (m + n) s = .next t := by
  rw [engineRun_add h]; exact hr

theorem fillers_add (p : Params) (a b : Nat) : fillers p (a + b) = fillers p a ++ fillers p b :=
  List.replicate_add a b _

theorem exchanges_append (cs clk : Bool) {m1 m2 r1 r2 : List Byte} (h : m1.length = r1.length) :
    exchanges cs clk (m1 ++ m2) (r1 ++ r2) = exchanges cs clk m1 r1 ++ exchanges cs clk m2 r2 := by
  simp [exchanges, List.zipWith_append h]

theorem exchanges_cons (cs clk : Bool) (m r : Byte) (ms rs : List Byte) :
    exchanges cs clk (m :: ms) (r :: rs) = .xfer cs clk m r :: exchanges cs clk ms rs := rfl

/-- The byte of an exchange is the script's next one. -/
theorem nextByte_cons {s : State} {b : Byte} {rest : List Byte} (h : s.card = b :: rest) : s.nextByte = b := by
  simp [State.nextByte, h]

/-! ### Fillers: the training bytes, and a deselect's trailer -/

/-- Where an operation counts filler exchanges down, `f n` its place with `n` of them left: the card answers whatever it
answers. -/
theorem fillers_run {f : Nat → Activity}
    (hf : ∀ (n : Nat) (s : State), advance (f (n + 1)) s = .next ((s.exchange s.params.filler).goto (f n))) :
    ∀ (n : Nat) {s : State}, s.busy = true → s.seq = .running (f n) → ∃ received : List Byte,
      received.length = n ∧ (n ≤ s.card.length → received = s.card.take n) ∧
      engineRun n s = .next { s with
        seq := .running (f 0), card := s.card.drop n
        bus := s.bus ++ exchanges s.csa s.clksel (fillers s.params n) received } := by
  intro n
  induction n with
  | zero =>
    intro s _ hs
    refine ⟨[], rfl, by simp, ?_⟩
    simp only [exchanges, List.zipWith_nil_right, List.append_nil, List.drop_zero, ← hs]
    rfl
  | succ n ih =>
    intro s hb hs
    obtain ⟨r, hr, ht, h⟩ := ih (s := (s.exchange s.params.filler).goto (f n)) (by simpa using hb) rfl
    refine ⟨s.nextByte :: r, by simp [hr], ?_, ?_⟩
    · intro hn
      cases hk : s.card with
      | nil => rw [hk] at hn; simp at hn
      | cons b bs =>
        rw [List.take_succ_cons, nextByte_cons hk]
        rw [ht (by simp [hk] at hn ⊢; exact hn)]
        simp [hk]
    · rw [engineRun_succ ((engine_running hb hs).trans (hf n s)), h]
      simp [State.exchange, State.goto, exchanges_cons, fillers, List.replicate_succ, State.csa, State.clksel]

/-! ### Waits without ticks -/

/-- Where an operation waits, `waiting` the place of its exchange and `sampling b` that of the sample after a byte it does
not await: it goes through such bytes, one exchange and one sample each, while T_SHORT is not 0. -/
theorem wait_run {waiting : Activity} {sampling : Byte → Activity} {skipped : Byte → Prop}
    (he : ∀ s : State, skipped s.nextByte →
      advance waiting s = .next ((s.exchange s.params.filler).goto (sampling s.nextByte)))
    (hw : ∀ (b : Byte) (s : State), s.tshort ≠ 0 → advance (sampling b) s = .next (s.goto waiting))
    {tail : List Byte} : ∀ (bytes : List Byte) {s : State}, s.busy = true → s.seq = .running waiting →
    (bytes = [] ∨ s.tshort ≠ 0) → s.card = bytes ++ tail → (∀ b ∈ bytes, skipped b) →
      engineRun (2 * bytes.length) s = .next { s with
        card := tail, bus := s.bus ++ exchanges s.csa s.clksel (fillers s.params bytes.length) bytes } := by
  intro bytes
  induction bytes with
  | nil =>
    intro s _ _ _ hk _
    obtain rfl : s.card = tail := hk
    simp only [exchanges, List.zipWith_nil_right, List.append_nil]
    rfl
  | cons b bytes ih =>
    intro s hb hs ht hk hp
    have ht : s.tshort ≠ 0 := ht.resolve_left (by simp)
    have hn : s.nextByte = b := nextByte_cons hk
    rw [List.length_cons, show 2 * (bytes.length + 1) = 2 * bytes.length + 1 + 1 by omega]
    refine run_step hb hs (he s (hn ▸ hp b (by simp))) (run_step (by exact hb) rfl (hw _ _ (by exact ht)) ?_)
    rw [ih (s := ((s.exchange s.params.filler).goto (sampling s.nextByte)).goto waiting) (by exact hb) rfl
      (.inr (by exact ht)) (by simp [hk]) fun c hc => hp c (by simp [hc])]
    simp [State.goto, State.exchange, hn, hs, exchanges_cons, fillers, List.replicate_succ, State.csa, State.clksel]

/-! ### Commands -/

/-- The step of a command, by its place. -/
theorem engine_command {a : Activity} {s : State} {idx : BitVec 6} {arg : Word} {p : CmdPos}
    (hb : s.busy = true) (hs : s.seq = .running a) (h : a.command? s = some (idx, arg, p)) :
    engine s = .next (s.commandTurn a idx arg p) := by
  rw [engine_running hb hs, advance_command h]

/-- A command's place depends on the operand registers alone, and moving it keeps its index and argument. -/
theorem command?_withCommand {a : Activity} {s s' : State} {idx : BitVec 6} {arg : Word} {p : CmdPos}
    (h : a.command? s = some (idx, arg, p)) (h1 : s'.cmdidx = s.cmdidx) (h2 : s'.arg = s.arg) (h3 : s'.cnt = s.cnt)
    (h4 : s'.ctype = s.ctype) (h5 : s'.params = s.params) (q : CmdPos) : (a.withCommand q).command? s' = some (idx, arg, q) := by
  unfold Activity.command? at h
  split at h <;> cases h <;>
    simp [Activity.withCommand, Activity.command?, State.commandIndex, State.readIndex, State.writeIndex,
      State.cardAddress, State.cardType, State.single, h1, h2, h3, h4, h5]

theorem withCommand_withCommand (a : Activity) (p q : CmdPos) : (a.withCommand p).withCommand q = a.withCommand q := by
  cases a with
  | sendcmd x => cases x <;> rfl
  | sendacmd x => cases x <;> rfl
  | read x => cases x <;> rfl
  | write x => cases x <;> rfl
  | _ => rfl

/-- The rest of a frame goes out, one byte an exchange. -/
theorem frame_run {a : Activity} {idx : BitVec 6} {arg : Word} : ∀ (n : Nat) {s : State} {junk tail : List Byte},
    n < 6 → s.busy = true → s.seq = .running (a.withCommand (.frame (5 - n))) →
    (a.withCommand (.frame (5 - n))).command? s = some (idx, arg, .frame (5 - n)) → s.card = junk ++ tail →
    junk.length = n + 1 →
      engineRun (n + 1) s = .next { s with
        card := tail
        bus := s.bus ++ exchanges s.csa s.clksel ((frameBytes s.params idx arg).drop (5 - n)) junk
        seq := .running (a.withCommand (afterFrame s.params idx)) } := by
  intro n
  induction n with
  | zero =>
    intro s junk tail _ hb hs hc hk hj
    obtain ⟨b, rfl⟩ := List.length_eq_one_iff.mp hj
    rw [engineRun_one (engine_command hb hs hc)]
    simp [State.commandTurn, commandStep, State.goto, State.exchange, hk, nextByte_cons hk, withCommand_withCommand,
      frameBytes, exchanges, List.range_succ]
  | succ n ih =>
    intro s junk tail hn hb hs hc hk hj
    obtain ⟨b, junk, rfl⟩ := List.exists_cons_of_length_eq_add_one hj
    have hlt : 5 - (n + 1) + 1 < 6 := by omega
    have hnext : 5 - (n + 1) + 1 = 5 - n := by omega
    have hd : (frameBytes s.params idx arg).drop (5 - (n + 1)) =
        frameByte s.params idx arg (5 - (n + 1)) :: (frameBytes s.params idx arg).drop (5 - n) := by
      have : n = 0 ∨ n = 1 ∨ n = 2 ∨ n = 3 ∨ n = 4 := by omega
      rcases this with rfl | rfl | rfl | rfl | rfl <;> rfl
    rw [engineRun_succ (engine_command hb hs hc)]
    simp only [State.commandTurn, commandStep, if_pos hlt, withCommand_withCommand]
    rw [hnext]
    rw [ih (s := (s.exchange (frameByte s.params idx arg (5 - (n + 1)))).goto (a.withCommand (.frame (5 - n)))) (junk := junk)
      (tail := tail) (by omega) (by simpa using hb) rfl
      (by have := command?_withCommand (s' := (s.exchange (frameByte s.params idx arg (5 - (n + 1)))).goto
            (a.withCommand (.frame (5 - n)))) hc rfl rfl rfl rfl rfl (.frame (5 - n))
          rwa [withCommand_withCommand] at this)
      (by simp [hk]) (by simpa using hj)]
    rw [hd]
    simp [State.exchange, State.goto, nextByte_cons hk, exchanges_cons, State.csa, State.clksel]

/-- The response poll ends at the first valid byte, or at the last byte of its budget. -/
theorem poll_run {a : Activity} {idx : BitVec 6} {arg : Word} {r : Byte} {tail : List Byte} :
    ∀ (invalid : List Byte) {s : State} {n : Nat},
    s.busy = true → s.seq = .running (a.withCommand (.poll n)) →
    (a.withCommand (.poll n)).command? s = some (idx, arg, .poll n) → s.card = invalid ++ r :: tail →
    (∀ b ∈ invalid, r1IsValid b = false) → (r1IsValid r = true ∧ invalid.length + 1 ≤ n ∨ invalid.length + 1 = n) →
      engineRun (invalid.length + 1) s = .next { s with
        card := tail
        bus := s.bus ++ exchanges s.csa s.clksel (fillers s.params (invalid.length + 1)) (invalid ++ [r])
        seq := .running (a.withCommand (.record r)) } := by
  intro invalid
  induction invalid with
  | nil =>
    intro s n hb hs hc hk _ hr
    have hv : r1IsValid r = true ∨ n ≤ 1 := by
      rcases hr with ⟨h, _⟩ | h
      · exact .inl h
      · exact .inr (by simp at h; omega)
    rw [List.length_nil, Nat.zero_add, engineRun_one (engine_command hb hs hc)]
    simp [State.commandTurn, commandStep, State.goto, State.exchange, hk, nextByte_cons hk, withCommand_withCommand,
      hv, exchanges, fillers]
  | cons b invalid ih =>
    intro s n hb hs hc hk hbad hr
    have hn : ¬ n ≤ 1 := by rcases hr with ⟨_, h⟩ | h <;> simp at h <;> omega
    have hbv : r1IsValid b = false := hbad b (by simp)
    rw [List.length_cons, engineRun_succ (engine_command hb hs hc)]
    simp only [State.commandTurn, commandStep, nextByte_cons hk, hbv, hn, withCommand_withCommand, Bool.false_eq_true,
      or_self, if_false]
    rw [ih (s := (s.exchange s.params.filler).goto (a.withCommand (.poll (n - 1)))) (n := n - 1) (by simpa using hb) rfl
      (by have := command?_withCommand (s' := (s.exchange s.params.filler).goto (a.withCommand (.poll (n - 1)))) hc rfl rfl
            rfl rfl rfl (.poll (n - 1))
          rwa [withCommand_withCommand] at this)
      (by simp [hk]) (fun c hc => hbad c (by simp [hc]))
      (by rcases hr with ⟨h, h'⟩ | h
          · exact .inl ⟨h, by simp at h'; omega⟩
          · exact .inr (by simp at h; omega))]
    simp [State.exchange, State.goto, nextByte_cons hk, fillers, List.replicate_succ, exchanges_cons, State.csa,
      State.clksel]

/-- The stop variant reads its whole budget and keeps the last byte that is not the filler. -/
theorem stopPoll_run {a : Activity} {idx : BitVec 6} {arg : Word} {tail : List Byte} :
    ∀ (polled : List Byte) {s : State} {last : Byte},
    s.busy = true → s.seq = .running (a.withCommand (stopPollFrom polled.length last)) →
    (a.withCommand (stopPollFrom polled.length last)).command? s =
      some (idx, arg, stopPollFrom polled.length last) → s.card = polled ++ tail →
      engineRun polled.length s = .next { s with
        card := tail
        bus := s.bus ++ exchanges s.csa s.clksel (fillers s.params polled.length) polled
        seq := .running (a.withCommand (.record
          (polled.foldl (fun last b => if b = 0xFF then last else b) last))) } := by
  intro polled
  induction polled with
  | nil =>
    intro s last _ hs _ hk
    have : s.card = tail := by simpa using hk
    simp only [exchanges, List.zipWith_nil_right, List.append_nil, List.foldl_nil, ← this]
    simp only [List.length_nil, stopPollFrom, if_true] at hs
    rw [← hs]
    rfl
  | cons b polled ih =>
    intro s last hb hs hc hk
    simp only [List.length_cons, stopPollFrom, Nat.succ_ne_zero, if_false] at hs hc
    rw [List.length_cons, engineRun_succ (engine_command hb hs hc)]
    simp only [State.commandTurn, commandStep, nextByte_cons hk, withCommand_withCommand, Nat.add_sub_cancel]
    rw [ih (s := (s.exchange s.params.filler).goto
        (a.withCommand (stopPollFrom polled.length (if b = 0xFF then last else b))))
      (last := if b = 0xFF then last else b) (by simpa using hb) rfl
      (by have := command?_withCommand (s' := (s.exchange s.params.filler).goto
            (a.withCommand (stopPollFrom polled.length (if b = 0xFF then last else b)))) hc rfl rfl rfl rfl rfl
            (stopPollFrom polled.length (if b = 0xFF then last else b))
          rwa [withCommand_withCommand] at this)
      (by simp [hk])]
    simp [State.exchange, State.goto, nextByte_cons hk, fillers, List.replicate_succ, exchanges_cons, State.csa,
      State.clksel]

/-- The place of a command, moved to any of its positions, in any state with the same operand registers. -/
theorem command_at {a : Activity} {s : State} {idx : BitVec 6} {arg : Word} {p : CmdPos}
    (hc : (a.withCommand p).command? s = some (idx, arg, p)) (q : CmdPos) {s' : State}
    (h1 : s'.cmdidx = s.cmdidx) (h2 : s'.arg = s.arg) (h3 : s'.cnt = s.cnt) (h4 : s'.ctype = s.ctype)
    (h5 : s'.params = s.params) :
    (a.withCommand q).command? s' = some (idx, arg, q) := by
  have := command?_withCommand hc h1 h2 h3 h4 h5 q
  rwa [withCommand_withCommand] at this

/-- A command's ready wait when the card is ready at once. -/
theorem ready_run {a : Activity} {s : State} {idx : BitVec 6} {arg : Word} {tail : List Byte}
    (hb : s.busy = true) (hs : s.seq = .running (a.withCommand (.wait .load)))
    (hc : (a.withCommand (.wait .load)).command? s = some (idx, arg, .wait .load)) (hk : s.card = 0xFF :: tail) :
    engineRun 2 s = .next { s with
      tshort := shortLoad s.params, card := tail, seq := .running (a.withCommand (.frame 0))
      bus := s.bus ++ [.xfer s.csa s.clksel s.params.filler 0xFF] } := by
  rw [engineRun_succ (engine_command hb hs hc)]
  simp only [State.commandTurn, commandStep, waitStep, withCommand_withCommand]
  rw [engineRun_one (engine_command (s := s.loadShort.goto (a.withCommand (.wait .exchange))) hb rfl
    (command_at hc _ rfl rfl rfl rfl rfl))]
  have h0 : (s.loadShort.goto (a.withCommand (.wait .exchange))).nextByte = 0xFF := nextByte_cons hk
  simp only [State.commandTurn, commandStep, waitStep, withCommand_withCommand, h0, if_true]
  simp only [State.exchange, h0]
  simp only [State.goto, State.loadShort, hk, List.tail_cons]
  rfl

/-- A whole `SendCmd` to a card that is ready at once, up to the write of R1. -/
theorem sendCmd_run {a : Activity} {s : State} {idx : BitVec 6} {arg : Word} {junk invalid tail : List Byte} {r : Byte}
    (hb : s.busy = true) (hs : s.seq = .running (a.withCommand (.wait .load)))
    (hc : (a.withCommand (.wait .load)).command? s = some (idx, arg, .wait .load)) (hi : idx ≠ 12)
    (hk : s.card = 0xFF :: (junk ++ (invalid ++ r :: tail))) (hj : junk.length = 6)
    (hbad : ∀ b ∈ invalid, r1IsValid b = false)
    (hr : r1IsValid r = true ∧ invalid.length < s.params.respPoll ∨ invalid.length + 1 = s.params.respPoll) :
    engineRun (invalid.length + 9) s = .next { s with
      tshort := shortLoad s.params, card := tail, seq := .running (a.withCommand (.record r))
      bus := s.bus ++ exchanges s.csa s.clksel (s.params.filler :: (frameBytes s.params idx arg ++ fillers s.params (invalid.length + 1)))
        (0xFF :: (junk ++ (invalid ++ [r]))) } := by
  have ha : afterFrame s.params idx = .poll s.params.respPoll := if_neg hi
  rw [show invalid.length + 9 = 2 + ((5 + 1) + (invalid.length + 1)) by omega, engineRun_add (ready_run hb hs hc hk)]
  rw [engineRun_add (frame_run (a := a) (idx := idx) (arg := arg) (junk := junk) (tail := invalid ++ r :: tail) 5
    (by omega) (by exact hb) rfl (by exact command_at hc _ rfl rfl rfl rfl rfl) (by rfl) (by exact hj)), ha]
  rw [poll_run (a := a) (idx := idx) (arg := arg) (r := r) (tail := tail) invalid (n := s.params.respPoll)
    (by exact hb) (by rfl) (by exact command_at hc _ rfl rfl rfl rfl rfl) (by rfl) hbad hr]
  have hf : (frameBytes s.params idx arg).length = junk.length := by rw [hj]; rfl
  simp only [exchanges_cons, exchanges_append _ _ hf, State.csa, State.clksel, List.append_assoc, List.cons_append,
    List.nil_append, Nat.sub_self, List.drop_zero]

/-- A whole `StopCmd`, up to the write of R1. -/
theorem stopCmd_run {a : Activity} {s : State} {arg : Word} {junk polled tail : List Byte}
    (hb : s.busy = true) (hs : s.seq = .running (a.withCommand (.frame 0)))
    (hc : (a.withCommand (.frame 0)).command? s = some (12, arg, .frame 0))
    (hk : s.card = junk ++ (polled ++ tail)) (hj : junk.length = 6) (hp : polled.length = s.params.stopBudget) :
    engineRun (s.params.stopBudget + 6) s = .next { s with
      card := tail, seq := .running (a.withCommand (.record (lastNonFiller polled)))
      bus := s.bus ++ exchanges s.csa s.clksel (frameBytes s.params 12 arg ++ fillers s.params s.params.stopBudget) (junk ++ polled) } := by
  rw [show s.params.stopBudget + 6 = (5 + 1) + polled.length by omega]
  rw [engineRun_add (frame_run (a := a) (idx := 12) (arg := arg) (junk := junk) (tail := polled ++ tail) 5
    (by omega) hb hs hc hk (by exact hj))]
  rw [stopPoll_run (a := a) (idx := 12) (arg := arg) (tail := tail) polled (last := 0xFF) (by exact hb)
    (by simp [afterFrame, hp]) (by exact command_at hc _ rfl rfl rfl rfl rfl) (by rfl)]
  have hf : (frameBytes s.params 12 arg).length = junk.length := by rw [hj]; rfl
  simp only [exchanges_append _ _ hf]
  simp [State.csa, State.clksel, hp, lastNonFiller]

end Sys2Proof.Machine
end

