-- ==== Sys2Proof/Laws/Blocks.lean ====
section
/-! SUPPORT. The payload of a block: what its bytes leave in host memory or on the bus, in whatever operation. -/

namespace Sys2Proof.Machine

/-- A list of bytes written from an address on. -/
def Memory.writeBytes (m : List Host.Cell) (a : Nat) : List Byte → List Host.Cell
  | [] => m
  | v :: vs => Memory.writeBytes (Memory.write m a v) (a + 1) vs

/-- What a byte reads as after them. -/
theorem Memory.read_writeBytes {vs : List Byte} : ∀ {m : List Host.Cell} {a : Nat}, Memory.wf m → ∀ b, Memory.read (Memory.writeBytes m a vs) b =
      if a ≤ b ∧ b < a + vs.length then vs.getD (b - a) 0 else Memory.read m b := by
  induction vs with
  | nil => intro m a _ b; rw [if_neg (by simp only [List.length_nil]; omega)]; rfl
  | cons v vs ih =>
    intro m a hm b
    simp only [List.length_cons]
    rw [Memory.writeBytes, ih (Memory.write_wf hm a v)]
    by_cases h0 : b = a
    · subst h0
      rw [if_neg (by omega), if_pos (by omega), Memory.read_write_same _ hm.1, Nat.sub_self]; rfl
    · rw [Memory.read_write_other _ _ h0]
      by_cases h1 : a + 1 ≤ b ∧ b < a + 1 + vs.length
      · rw [if_pos h1, if_pos (by omega), show b - a = (b - (a + 1)) + 1 by omega]; rfl
      · rw [if_neg h1, if_neg (by omega)]

/-- A block operation receives into the block at `base`: `f q` is its place while it stands at `q`. -/
def ReceivesInto (f : RcvPos → Activity) (base : Nat) (b : Half) (p : Params) : Prop :=
  ∀ (q q' : RcvPos) (s u : State), s.buf = b → s.params = p → receiveStep base q s = .ok (.goOn q', u) →
    advance (f q) s = .next (u.goto (f q'))

theorem rcvrblk_receives (b : Half) (p : Params) : ReceivesInto (fun q => .rcvrblk (.block q)) b.toNat b p := by
  intro q q' s u hb hp h
  subst hb hp
  simp only [advance, State.rcvrblkTurn, State.blockBase]
  simp only [Nat.mul_zero, Nat.add_zero, h]

theorem read_receives (k : Nat) (b : Half) (p : Params) :
    ReceivesInto (fun q => .read (.block k q)) (b.toNat + p.sectorSize * k) b p := by
  intro q q' s u hb hp h
  subst hb hp
  simp only [advance, State.readTurn, State.blockBase]
  simp only [h]

/-- The payload, byte by byte, into host memory. -/
theorem payload_run {f : RcvPos → Activity} {base : Nat} {b : Half} {p : Params} (hf : ReceivesInto f base b p)
    {tail : List Byte} : ∀ (payload : List Byte) {i : Nat} {s : State}, s.buf = b → s.params = p → s.busy = true →
    s.seq = .running (f (payloadFrom p.sectorSize i)) → s.card = payload ++ tail →
    i + payload.length = p.sectorSize → (∀ j, i ≤ j → j < p.sectorSize → s.admits (base + j) = true) →
      engineRun (2 * payload.length) s = .next { s with
        card := tail
        bus := s.bus ++ exchanges s.csa s.clksel (fillers p payload.length) payload
        mem := Memory.writeBytes s.mem (base + i) payload
        seq := .running (f .crc1) } := by
  intro payload
  induction payload with
  | nil =>
    intro i s _ _ _ hs hk hl _
    rw [payloadFrom, if_neg (by simp only [List.length_nil] at hl; omega)] at hs
    rw [List.nil_append] at hk
    simp only [exchanges, List.zipWith_nil_right, List.append_nil, Memory.writeBytes, ← hk, ← hs]
    rfl
  | cons v vs ih =>
    intro i s hbuf hp hb hs hk hl ha
    simp only [List.length_cons] at hl
    rw [payloadFrom, if_pos (by omega)] at hs
    have e1 : engine s = .next ((s.exchange s.params.filler).goto (f (.store i v))) := by
      rw [engine_running hb hs]
      refine hf _ _ _ _ hbuf hp ?_
      simp only [receiveStep, nextByte_cons hk]
    have hadm : State.admits ((s.exchange s.params.filler).goto (f (.store i v))) (base + i) = true :=
      ha i (Nat.le_refl _) (by omega)
    rw [List.length_cons, show 2 * (vs.length + 1) = (2 * vs.length + 1) + 1 by omega, engineRun_succ e1]
    have e2 : engine ((s.exchange s.params.filler).goto (f (.store i v))) =
        .next (State.goto (f (payloadFrom s.params.sectorSize (i + 1)))
          { (s.exchange s.params.filler).goto (f (.store i v)) with mem := Memory.write s.mem (base + i) v }) := by
      rw [engine_running (a := f (.store i v)) (by exact hb) rfl]
      refine hf _ _ _ _ hbuf hp ?_
      simp only [receiveStep, State.memWrite]
      rw [hadm]
      rfl
    rw [engineRun_succ e2, ih (i := i + 1) (by exact hbuf) (by exact hp) (by exact hb) (by rw [hp]; rfl)
      (by simp [hk, State.goto, State.exchange]) (by omega) (by intro j h h'; exact ha j (by omega) h')]
    simp [State.goto, State.exchange, nextByte_cons hk, exchanges_cons, fillers, List.replicate_succ,
      Memory.writeBytes, State.csa, State.clksel, Nat.add_assoc, ← hp]

/-- A block operation transmits from the block at `base` with `token`, in the states that `inv` picks out. -/
def TransmitsFrom (f : XmtPos → Activity) (base : Nat) (token : Byte) (inv : State → Prop) : Prop :=
  ∀ (q q' : XmtPos) (s u : State), inv s → transmitStep base token q s = .ok (.goOn q', u) →
    advance (f q) s = .next (u.goto (f q'))

theorem xmitblk_transmits (b : Half) (token : Byte) :
    TransmitsFrom (fun q => .xmitblk (.block q)) b.toNat token (fun s => s.buf = b ∧ s.data = token) := by
  rintro q q' s u ⟨rfl, rfl⟩ h
  (try simp only [advance, State.xmitblkTurn, State.blockBase])
  simp only [Nat.mul_zero, Nat.add_zero, h]

theorem write_transmits (k : Nat) (b : Half) (token : Byte) (p : Params) :
    TransmitsFrom (fun q => .write (.block k q)) (b.toNat + p.sectorSize * k) token
      (fun s => s.buf = b ∧ s.params = p ∧ s.writeToken = token) := by
  rintro q q' s u ⟨rfl, rfl, rfl⟩ h
  simp only [advance, State.writeTurn, State.blockBase]
  simp only [h]

/-- The payload goes out, byte by byte. -/
theorem fetch_run {f : XmtPos → Activity} {base : Nat} {token : Byte} {inv : State → Prop}
    (hf : TransmitsFrom f base token inv) {tail : List Byte}
    (hinv : ∀ s u : State, inv s → u.buf = s.buf → u.data = s.data → u.cnt = s.cnt → u.params = s.params → inv u)
    {p : Params} : ∀ (junk : List Byte) {i : Nat} {s : State}, inv s → s.params = p → s.busy = true →
    s.seq = .running (f (fetchFrom p.sectorSize i)) → s.card = junk ++ tail → i + junk.length = p.sectorSize →
    (∀ j, i ≤ j → j < p.sectorSize → s.admits (base + j) = true) →
      engineRun (2 * junk.length) s = .next { s with
        card := tail
        bus := s.bus ++ exchanges s.csa s.clksel
          ((List.range' i junk.length).map (fun j => Memory.read s.mem (base + j))) junk
        seq := .running (f .crc1) } := by
  intro junk
  induction junk with
  | nil =>
    intro i s _ _ _ hs hk hl _
    rw [fetchFrom, if_neg (by simp only [List.length_nil] at hl; omega)] at hs
    rw [List.nil_append] at hk
    simp only [exchanges, List.zipWith_nil_right, List.append_nil, ← hk, ← hs]
    rfl
  | cons v vs ih =>
    intro i s hi hp hb hs hk hl ha
    simp only [List.length_cons] at hl
    rw [fetchFrom, if_pos (by omega)] at hs
    have hadm : State.admits s (base + i) = true := ha i (Nat.le_refl _) (by omega)
    have e1 : engine s = .next (s.goto (f (.send i (Memory.read s.mem (base + i))))) := by
      rw [engine_running hb hs]
      refine hf _ _ _ _ hi ?_
      simp only [transmitStep, State.memRead, hadm, if_true]
    rw [List.length_cons, show 2 * (vs.length + 1) = (2 * vs.length + 1) + 1 by omega, engineRun_succ e1]
    have e2 : engine (s.goto (f (.send i (Memory.read s.mem (base + i))))) =
        .next (State.goto (f (fetchFrom s.params.sectorSize (i + 1)))
          (State.exchange (Memory.read s.mem (base + i)) (s.goto (f (.send i (Memory.read s.mem (base + i))))))) := by
      rw [engine_running (a := f (.send i (Memory.read s.mem (base + i)))) (by exact hb) rfl]
      exact hf _ _ _ _ (hinv s _ hi rfl rfl rfl rfl) rfl
    rw [engineRun_succ e2, ih (i := i + 1) (by exact hinv s _ hi rfl rfl rfl rfl) (by exact hp) (by exact hb)
      (by rw [hp]; rfl) (by simp [hk, State.goto, State.exchange]) (by omega)
      (by intro j h h'; exact ha j (by omega) h')]
    simp [State.goto, State.exchange, State.nextByte, hk, exchanges_cons, List.range'_succ,
      State.csa, State.clksel]

end Sys2Proof.Machine
end

