-- ==== Sys2Proof/Laws/PerInstr.lean ====
section
/-! SUPPORT. A statement about every row as syntax: a wire command frame has six bytes, every other row one
(30_encoding.md, the formats' widths). -/

namespace Sys2Proof.Laws.EncodedLength

/-- How many bytes the row encodes to, in every instance. -/
def Statement (i : Instr) : Prop :=
  ∀ p : Params, (encode p i).length = if i.space = .frame then 6 else 1

theorem nop : Statement .nop := fun _ => rfl
theorem select : Statement .select := fun _ => rfl
theorem deselect : Statement .deselect := fun _ => rfl
theorem xmit : Statement .xmit := fun _ => rfl
theorem rcvr : Statement .rcvr := fun _ => rfl
theorem clktrain : Statement .clktrain := fun _ => rfl
theorem waitready : Statement .waitready := fun _ => rfl
theorem sendcmd : Statement .sendcmd := fun _ => rfl
theorem sendacmd : Statement .sendacmd := fun _ => rfl
theorem rcvrblk : Statement .rcvrblk := fun _ => rfl
theorem xmitblk : Statement .xmitblk := fun _ => rfl
theorem read : Statement .read := fun _ => rfl
theorem write : Statement .write := fun _ => rfl
theorem reserved (code : Byte) : Statement (.reserved code) := fun _ => rfl
theorem goIdle (arg : Word) : Statement (.goIdle arg) := fun _ => rfl
theorem opCondMmc (arg : Word) : Statement (.opCondMmc arg) := fun _ => rfl
theorem sendIfCond (arg : Word) : Statement (.sendIfCond arg) := fun _ => rfl
theorem sendCsd (arg : Word) : Statement (.sendCsd arg) := fun _ => rfl
theorem sendCid (arg : Word) : Statement (.sendCid arg) := fun _ => rfl
theorem stopTransmission (arg : Word) : Statement (.stopTransmission arg) := fun _ => rfl
theorem setBlocklen (arg : Word) : Statement (.setBlocklen arg) := fun _ => rfl
theorem readSingleBlock (arg : Word) : Statement (.readSingleBlock arg) := fun _ => rfl
theorem readMultipleBlock (arg : Word) : Statement (.readMultipleBlock arg) := fun _ => rfl
theorem acmdSetBlockCount (arg : Word) : Statement (.acmdSetBlockCount arg) := fun _ => rfl
theorem writeBlock (arg : Word) : Statement (.writeBlock arg) := fun _ => rfl
theorem writeMultipleBlock (arg : Word) : Statement (.writeMultipleBlock arg) := fun _ => rfl
theorem acmdOpCond (arg : Word) : Statement (.acmdOpCond arg) := fun _ => rfl
theorem appCmd (arg : Word) : Statement (.appCmd arg) := fun _ => rfl
theorem readOcr (arg : Word) : Statement (.readOcr arg) := fun _ => rfl
theorem sdcmdOther (idx : BitVec 6) (arg : Word) : Statement (.sdcmdOther idx arg) := fun _ => rfl
theorem tokenStartSingle : Statement .tokenStartSingle := fun _ => rfl
theorem tokenStartMulti : Statement .tokenStartMulti := fun _ => rfl
theorem tokenStop : Statement .tokenStop := fun _ => rfl
theorem tokenReadStart : Statement .tokenReadStart := fun _ => rfl
theorem dataResponseAccepted (response : Byte) : Statement (.dataResponseAccepted response) := fun _ => rfl
theorem r1Valid (status : BitVec 7) : Statement (.r1Valid status) := fun _ => rfl

end Sys2Proof.Laws.EncodedLength
end

