-- ==== Sys2Proof/Laws/Places.lean ====
section
/-! SUPPORT. The places of the sequencer (Safety.lean): each shared sub-sequence goes on at a place within its bounds, and
what those bounds speak of is changed by none of its steps. -/

namespace Sys2Proof.Machine

/-! ### A step that goes on stands at a place within its bounds -/

theorem waitStep_ok {p q : WaitPos} {s s' : State} (h : waitStep p s = (.goOn q, s')) : q.ok := by
  cases p with
  | load => cases h; trivial
  | exchange =>
    simp only [waitStep, Prod.mk.injEq] at h
    split_ifs at h with h1 <;> cases h.1
    exact h1
  | sample b =>
    simp only [waitStep, Prod.mk.injEq] at h
    split_ifs at h with h1 <;> cases h.1
    trivial

theorem commandStart_ok (c : Params) (idx : BitVec 6) : (commandStart idx).ok c idx := by
  unfold commandStart
  split
  · exact (by decide : 0 < 6)
  · exact ⟨‹_›, trivial⟩

theorem stopPollFrom_ok {c : Params} {n : Nat} (last : Byte) (h : n ≤ c.stopBudget) :
    (stopPollFrom n last).ok c 12 := by
  unfold stopPollFrom
  split
  · trivial
  · exact ⟨rfl, by omega, h⟩

theorem commandStep_ok {idx : BitVec 6} {arg : Word} {p q : CmdPos} {s s' : State} (hp : p.ok s.params idx)
    (h : commandStep idx arg p s = (.goOn q, s')) : q.ok s.params idx := by
  cases p with
  | wait w =>
    simp only [commandStep] at h
    split at h
    · cases h; exact ⟨hp.1, waitStep_ok ‹_›⟩
    · cases h
      split
      · exact (by decide : 0 < 6)
      · trivial
  | frame n =>
    simp only [commandStep, Prod.mk.injEq, Turn.goOn.injEq] at h
    obtain ⟨rfl, -⟩ := h
    split
    · assumption
    · unfold afterFrame
      split
      · next h => subst h; exact stopPollFrom_ok _ (Nat.le_refl _)
      · exact ⟨‹_›, Nat.le_refl _, by omega⟩
  | poll n =>
    obtain ⟨h1, h2, h3⟩ := hp
    simp only [commandStep, Prod.mk.injEq, Turn.goOn.injEq] at h
    obtain ⟨rfl, -⟩ := h
    split
    · trivial
    · next hn => exact ⟨h1, by omega, by simp only [not_or] at hn; omega⟩
  | stopPoll n last =>
    obtain ⟨rfl, h2, h3⟩ := hp
    simp only [commandStep, Prod.mk.injEq, Turn.goOn.injEq] at h
    obtain ⟨rfl, -⟩ := h
    exact stopPollFrom_ok _ (by omega)
  | record r => cases h

theorem payloadFrom_ok (c : Params) (i : Nat) : (payloadFrom c.sectorSize i).ok c := by
  unfold payloadFrom
  split
  · assumption
  · trivial

theorem fetchFrom_ok (c : Params) (i : Nat) : (fetchFrom c.sectorSize i).ok c := by
  unfold fetchFrom
  split
  · assumption
  · trivial

theorem receiveStep_ok {base : Nat} {p q : RcvPos} {s s' : State} (hp : p.ok s.params)
    (h : receiveStep base p s = .ok (.goOn q, s')) : q.ok s.params := by
  cases p with
  | load | crc1 => cases h; trivial
  | token =>
    simp only [receiveStep, Except.ok.injEq, Prod.mk.injEq] at h
    split_ifs at h <;> cases h.1
    · trivial
    · exact payloadFrom_ok _ _
  | sample =>
    simp only [receiveStep, Except.ok.injEq, Prod.mk.injEq] at h
    split_ifs at h <;> cases h.1
    trivial
  | payload i => cases h; exact hp
  | store i v =>
    simp only [receiveStep] at h
    split at h <;> cases h
    exact payloadFrom_ok _ _
  | crc2 => cases h

theorem transmitStep_ok {base : Nat} {token : Byte} {p q : XmtPos} {s s' : State} (hp : p.ok s.params)
    (h : transmitStep base token p s = .ok (.goOn q, s')) : q.ok s.params := by
  cases p with
  | wait w =>
    simp only [transmitStep] at h
    split at h
    · cases h; exact waitStep_ok ‹_›
    · simp only [Except.ok.injEq, Prod.mk.injEq] at h
      split_ifs at h <;> cases h.1
      trivial
  | token =>
    simp only [transmitStep, Except.ok.injEq, Prod.mk.injEq] at h
    split_ifs at h <;> cases h.1
    exact fetchFrom_ok _ _
  | fetch i =>
    simp only [transmitStep] at h
    split at h <;> cases h
    exact hp
  | send i v => cases h; exact fetchFrom_ok _ _
  | crc1 | crc2 => cases h; trivial
  | response => cases h
/-! ### What the bounds of a place speak of -/

/-- What a place's bounds speak of: the operands, the parameters and the selected card. -/
abbrev State.sameSettings (s t : State) : Prop :=
  t.params = s.params ∧ t.cnt = s.cnt ∧ t.ctype = s.ctype ∧ t.dstatus = s.dstatus ∧ t.drv = s.drv ∧
  t.cmdidx = s.cmdidx ∧ t.ctrl = s.ctrl

/-- Two states with the same settings have the same places within bounds. -/
theorem ok_congr {a : Activity} {s t : State} (h : s.sameSettings t) (ha : a.ok s) : a.ok t := by
  cases s; cases t
  obtain ⟨rfl, rfl, rfl, rfl, rfl, rfl, rfl⟩ := h
  exact ha

/-- The sequencer moved to such a place. -/
theorem goto_placeOk {b : Activity} {s u : State} (h : s.sameSettings u) (hb : b.ok s) : (u.goto b).placeOk :=
  ok_congr (t := u.goto b) h hb

theorem waitStep_settings (p : WaitPos) (s : State) : s.sameSettings (waitStep p s).2 := by
  cases p <;> exact ⟨rfl, rfl, rfl, rfl, rfl, rfl, rfl⟩

theorem commandTurn_settings (a : Activity) (idx : BitVec 6) (arg : Word) (p : CmdPos) (s : State) :
    s.sameSettings (s.commandTurn a idx arg p) := by
  obtain ⟨ts, r, c, b, q, h⟩ := commandTurn_frame a idx arg p s
  rw [h]; exact ⟨rfl, rfl, rfl, rfl, rfl, rfl, rfl⟩

theorem receiveStep_settings {base : Nat} {p : RcvPos} {s s' : State} {x : Turn RcvPos Bool}
    (h : receiveStep base p s = .ok (x, s')) : s.sameSettings s' := by
  cases p with
  | store i v =>
    simp only [receiveStep, State.memWrite] at h
    split at h
    · cases h
    · next h' => split at h' <;> cases h'; cases h; exact ⟨rfl, rfl, rfl, rfl, rfl, rfl, rfl⟩
  | _ => cases h; exact ⟨rfl, rfl, rfl, rfl, rfl, rfl, rfl⟩

theorem transmitStep_settings {base : Nat} {token : Byte} {p : XmtPos} {s s' : State} {x : Turn XmtPos Bool}
    (h : transmitStep base token p s = .ok (x, s')) : s.sameSettings s' := by
  cases p with
  | wait w =>
    have hw := waitStep_settings w s
    simp only [transmitStep] at h
    split at h <;> cases h <;> (next h' => rw [h'] at hw; exact hw)
  | fetch i =>
    simp only [transmitStep] at h
    split at h <;> cases h; exact ⟨rfl, rfl, rfl, rfl, rfl, rfl, rfl⟩
  | _ => cases h; exact ⟨rfl, rfl, rfl, rfl, rfl, rfl, rfl⟩

end Sys2Proof.Machine
end

