-- ==== Sys2Proof/Tests/Slice0.lean ====
section
/-! SUPPORT. Tests: the well-formedness smoke, words written out from the spec's encodings, the vectors of
95_test_vectors.md as single steps, and for each statement with hypotheses a witness that meets them. -/

namespace Sys2Proof.Tests

open Sys2Proof Sys2Proof.Machine

/-! ### States and views of outcomes -/

/-- The defaults of R8, with the OPEN parameters fixed. -/
def params : Params := { sdspiBase := 0x0100, hostMemory := [⟨0x2000, 0xFFFF⟩] }

/-- The block after reset, the card no longer uninitialised, one block at 0x2000. -/
def demo : State := { State.powerUp params with dstatus := 0x00, cnt := 1, buf := 0x2000 }

/-- Decoding and encoding in the hardware's own instance. -/
abbrev dec : Space → List Byte → Except Reject Instr := decode Config.params
abbrev enc : Instr → List Byte := encode Config.params
abbrev wf : Instr → Bool := Instr.wf Config.params

/-- The block in the middle of an operation. -/
def running (a : Activity) : State := { demo with stat := 0x01, seq := .running a }

/-- SENDCMD of this index and argument, at this position; the card sends 0xFF next. -/
def sending (idx : Byte) (arg : Word) (p : CmdPos) : State :=
  { running (.sendcmd (.command p)) with cmdidx := idx, arg := arg, card := [0xFF] }

/-- One field of the next state. -/
def after {α : Type} (o : Outcome) (f : State → α) : Option α :=
  match o with
  | .next t => some (f t)
  | .fault _ => none
  | .refused _ => none

/-- The fault a step ends in. -/
def stopped (o : Outcome) : Option Fault :=
  match o with
  | .fault f => some f
  | .next _ | .refused _ => none

/-- The byte sent in the last event of the next state. -/
def sent (o : Outcome) : Option Byte :=
  match after o (fun t => t.bus.getLast?) with
  | some (some (.xfer _ _ m _)) => some m
  | _ => none

/-- The state with the host's next action pending. -/
def demand (s : State) (a : Action) : State := { s with env := [a] }

/-! ### Well-formedness: a catch-all row does not hold what a named row holds -/

theorem test_wf_refuses_assigned_code :
    wf (.reserved 0x00) = false ∧ wf (.reserved 0x05) = false ∧ wf (.reserved 0x31) = false := by decide
theorem test_wf_refuses_named_index :
    wf (.sdcmdOther 0 0) = false ∧ wf (.sdcmdOther 12 7) = false ∧
      wf (.sdcmdOther 58 0) = false := by decide
theorem test_wf_admits :
    wf (.reserved 0x06) = true ∧ wf (.reserved 0xFF) = true ∧ wf (.sdcmdOther 2 0) = true ∧
      wf (.sdcmdOther 63 0) = true ∧ wf .write = true := by decide

/-! ### Decoding: a word of each row, from the tables of 30_encoding.md -/

/-- R81. -/
theorem test_decode_operations :
    dec .opr [0x00] = .ok .nop ∧ dec .opr [0x01] = .ok .select ∧ dec .opr [0x02] = .ok .deselect ∧
    dec .opr [0x03] = .ok .xmit ∧ dec .opr [0x04] = .ok .rcvr ∧ dec .opr [0x05] = .ok .clktrain ∧
    dec .opr [0x10] = .ok .waitready ∧ dec .opr [0x11] = .ok .sendcmd ∧
    dec .opr [0x12] = .ok .sendacmd ∧ dec .opr [0x20] = .ok .rcvrblk ∧ dec .opr [0x21] = .ok .xmitblk ∧
    dec .opr [0x30] = .ok .read ∧ dec .opr [0x31] = .ok .write := by decide
/-- R82, vector E1: each pattern of the table's RESERVED rows, at its first and last code. -/
theorem test_decode_reserved :
    [0x06, 0x07, 0x08, 0x0F, 0x13, 0x14, 0x17, 0x18, 0x1F, 0x22, 0x23, 0x24, 0x27, 0x28, 0x2F, 0x32, 0x33, 0x34, 0x37,
      0x38, 0x3F, 0x40, 0x7F, 0x80, 0xFF].all (fun c => decodeOpr c == .reserved c) = true := by decide
/-- R94. -/
theorem test_decode_frames_low :
    dec .frame [0x40, 0x00, 0x00, 0x00, 0x05, 0x95] = .ok (.goIdle 5) ∧
    dec .frame [0x41, 0x40, 0x00, 0x00, 0x00, 0x01] = .ok (.opCondMmc 0x40000000) ∧
    dec .frame [0x48, 0x00, 0x00, 0x01, 0xAA, 0x87] = .ok (.sendIfCond 0x1AA) ∧
    dec .frame [0x49, 0x00, 0x00, 0x00, 0x00, 0x01] = .ok (.sendCsd 0) ∧
    dec .frame [0x4A, 0x00, 0x00, 0x00, 0x00, 0x01] = .ok (.sendCid 0) ∧
    dec .frame [0x4C, 0x00, 0x00, 0x00, 0x00, 0x01] = .ok (.stopTransmission 0) ∧
    dec .frame [0x50, 0x00, 0x00, 0x02, 0x00, 0x01] = .ok (.setBlocklen 512) ∧
    dec .frame [0x51, 0x12, 0x34, 0x56, 0x78, 0x01] = .ok (.readSingleBlock 0x12345678) := by decide
/-- R94; the write frames are those of R189's example. -/
theorem test_decode_frames_high :
    dec .frame [0x52, 0x00, 0x00, 0x00, 0x10, 0x01] = .ok (.readMultipleBlock 0x10) ∧
    dec .frame [0x57, 0x00, 0x00, 0x00, 0x02, 0x01] = .ok (.acmdSetBlockCount 2) ∧
    dec .frame [0x58, 0x00, 0x00, 0x0E, 0x00, 0x01] = .ok (.writeBlock 0xE00) ∧
    dec .frame [0x59, 0x00, 0x00, 0x12, 0x34, 0x01] = .ok (.writeMultipleBlock 0x1234) ∧
    dec .frame [0x69, 0x40, 0x00, 0x00, 0x00, 0x01] = .ok (.acmdOpCond 0x40000000) ∧
    dec .frame [0x77, 0x00, 0x00, 0x00, 0x00, 0x01] = .ok (.appCmd 0) ∧
    dec .frame [0x7A, 0x00, 0x00, 0x00, 0x00, 0x01] = .ok (.readOcr 0) ∧
    dec .frame [0x7F, 0xFF, 0xFF, 0xFF, 0xFF, 0x01] = .ok (.sdcmdOther 63 0xFFFFFFFF) := by decide
/-- R88, R90, R92, vectors E8 and E10. -/
theorem test_decode_tokens_and_responses :
    dec .token [0xFE] = .ok .tokenStartSingle ∧ dec .token [0xFC] = .ok .tokenStartMulti ∧
    dec .token [0xFD] = .ok .tokenStop ∧ dec .readToken [0xFE] = .ok .tokenReadStart ∧
    dec .dataResponse [0xE5] = .ok (.dataResponseAccepted 0xE5) ∧
    dec .dataResponse [0x05] = .ok (.dataResponseAccepted 0x05) ∧
    dec .dataResponse [0x25] = .ok (.dataResponseAccepted 0x25) ∧
    dec .dataResponse [0x15] = .ok (.dataResponseAccepted 0x15) ∧
    dec .r1 [0x05] = .ok (.r1Valid 5) ∧ dec .r1 [0x7F] = .ok (.r1Valid 0x7F) := by decide
/-- Vector E9, R84, R86: what is refused, by name. -/
theorem test_decode_refuses :
    dec .dataResponse [0x0B] = .error .responseRejected ∧ dec .dataResponse [0x0D] = .error .responseRejected ∧
    dec .dataResponse [0xFF] = .error .responseRejected ∧ dec .r1 [0x80] = .error .responseInvalid ∧
    dec .token [0xFB] = .error .notAToken ∧ dec .readToken [0xFC] = .error .notAToken ∧
    dec .frame [0x51, 0, 0, 0, 0, 0x95] = .error .badChecksum ∧
    dec .frame [0xC0, 0, 0, 0, 0, 0x95] = .error .notACommand ∧
    dec .frame [0x40, 0, 0, 0, 0] = .error .length ∧ dec .opr [] = .error .length := by decide
/-- The table's words (spec/opcode_table.json "match"). -/
theorem test_decode_table_words :
    decodeTableWord 8 0x31 = some .write ∧ decodeTableWord 8 0x06 = some (.reserved 6) ∧
    decodeTableWord 8 0xFC = some .tokenStartMulti ∧ decodeTableWord 48 0x400000000095 = some (.goIdle 0) ∧
    decodeTableWord 48 0x480000000087 = some (.sendIfCond 0) ∧
    decodeTableWord 48 0x770000000001 = some (.appCmd 0) ∧
    decodeTableWord 48 0x420000000001 = some (.sdcmdOther 2 0) ∧ decodeTableWord 48 0x480000000001 = none := by
  decide
/-- Vectors E2 to E6. -/
theorem test_encode_frames :
    enc (.goIdle 0) = [0x40, 0, 0, 0, 0, 0x95] ∧ enc (.sendIfCond 0x1AA) = [0x48, 0, 0, 0x01, 0xAA, 0x87] ∧
    enc (.goIdle 5) = [0x40, 0, 0, 0, 5, 0x95] ∧
    enc (.readSingleBlock 0x12345678) = [0x51, 0x12, 0x34, 0x56, 0x78, 0x01] ∧
    enc (.sdcmdOther 63 0xFFFFFFFF) = [0x7F, 0xFF, 0xFF, 0xFF, 0xFF, 0x01] := by decide

/-- CRC-7 of R87: polynomial x^7 + x^3 + 1, initial value 0, most significant bit first. -/
def crc7 (bs : List Byte) : BitVec 7 :=
  bs.foldl (fun c b => [7, 6, 5, 4, 3, 2, 1, 0].foldl (fun c n =>
    if (c.getLsbD 6) != (b.getLsbD n) then (c <<< 1) ^^^ 0x09 else c <<< 1) c) 0
/-- Vector E7: the two fixed checksums are the valid ones of the bootstrap frames. -/
theorem test_checksums_are_crc7 :
    crc7 [0x40, 0, 0, 0, 0] = 0x4A ∧ crc7 [0x48, 0, 0, 0x01, 0xAA] = 0x43 ∧
    checksum Config.params 0 = 0x4A#7 ++ 1#1 ∧ checksum Config.params 8 = 0x43#7 ++ 1#1 := by
  simp [crc7, checksum, Config.params]

/-! ### Registers and host access (vectors A2 to A10) -/

theorem test_A2_ctrl : after (step (demand demo (wr .ctrl 0xFF))) (·.ctrl) = some 0x02 := by decide
theorem test_A3_ctype : after (step (demand demo (wr .ctype 0xFF))) (·.ctype) = some 0x03 := by decide
theorem test_A4_cmdidx : after (step (demand demo (wr .cmdidx 0xD1))) (·.cmdidx) = some 0x11 := by decide
theorem test_A5_read_only :
    after (step (demand demo (wr .stat 1))) (·.stat) = some 0 ∧
    after (step (demand demo (wr .r1 0))) (·.r1) = some 0xFF ∧
    after (step (demand demo (wr .blkdone 5))) (·.blkdone) = some 0 := by decide
theorem test_A6_inside_arg : step (demand demo (.load .b1 0x0D)) = .fault .registerAccess := rfl
theorem test_A7_reserved_offset : step (demand demo (.store .b2 0x16 0)) = .fault .registerAccess := rfl
theorem test_A8_busy : step (demand (running .nop) (wr .data 0x55)) = .fault .writeWhileBusy := rfl
theorem test_A9_read_while_busy :
    after (step (demand { running .nop with tshort := 7 } (rd .tshort))) (fun t => (t.rdata, t.tshort, t.stat)) =
      some (7, 7, 1) := by decide
theorem test_A10_dstatus : after (step (demand demo (wr .dstatus 0xFE))) (·.dstatus) = some 0x06 := by decide
/-- R96: the poll of a running operation lets the engine step, then polls again. -/
theorem test_poll :
    after (step (demand (running .nop) .poll)) (fun t => (t.rdata, t.env)) = some (1, [.engine, .poll]) ∧
    after (step (demand demo .poll)) (fun t => (t.rdata, t.env)) = some (0, []) := by decide
/-- Section 3: `cmd 8, 0x1AA` as stores and loads. -/
theorem test_cmd_actions :
    cmd 8 0x1AA = [.store .b1 0x08 0x08, .store .b4 0x0C 0x1AA, .store .b1 0x00 0x11, .poll, .load .b1 0x07] := by
  decide
/-- R67, R70: a host access to memory; a race; an access that lands in the register block (entry 12). -/
theorem test_host_memory :
    after (step (demand demo (.memStore 0x2000 0x5A))) (·.mem) = some [(0x2000, 0x5A)] ∧
    step (demand (running (.read .start)) (.memLoad 0x21FF)) = .fault .bufferRace ∧
    after (step (demand (running (.read .start)) (.memLoad 0x2200))) (·.rdata) = some 0 ∧
    after (step (demand demo (.memStore 0x0106 0x77))) (·.data) = some 0x77 :=
  ⟨by decide, rfl, by decide, by decide⟩
/-- R60: the last byte of host memory, and an address past it. -/
theorem test_host_space :
    after (step (demand demo (.memStore 0xFFFF 0x5A))) (·.mem) = some [(0xFFFF, 0x5A)] ∧
    step (demand demo (.memStore 0x10000 0x5A)) = .fault .noSuchAddress ∧
    step (demand demo (.memLoad 0x10000)) = .fault .noSuchAddress := ⟨by decide, rfl, rfl⟩

/-! ### Overridden parameters (R9), and the end of a run (R277) -/

/-- Vector E10: with DRESP_MASK 0x1F the response 0x15 is rejected and 0xE5 still accepted. -/
theorem test_overridden_response_mask :
    decode { params with drespMask := 0x1F } .dataResponse [0x15] = .error .responseRejected ∧
    decode { params with drespMask := 0x1F } .dataResponse [0xE5] = .ok (.dataResponseAccepted 0xE5) := by decide
/-- R111: with a trailer of one byte DESELECT exchanges it after the release. -/
theorem test_overridden_trailer :
    after (exec .deselect { running (.deselect .release) with params := { params with deselectTrailer := 1 } })
      (·.seq) = some (.running (.deselect (.trailer 1))) := by decide
/-- P5, R210: with a TIMER_WIDTH of 6 a counter keeps six bits of a store. -/
theorem test_overridden_timer_width :
    after (step (demand { demo with params := { params with timerWidth := 6 } } (wr .tlong 0xFF))) (·.tlong) =
      some 0x3F := by decide
/-- `rcvr` (R96) over a schedule of its own: the store, three engine steps, the load; the run ends, and is observed. -/
theorem test_run_ends :
    (observation (run 5 (demo.hosting [wr .opr 0x04, .engine, .engine, .engine, rd .data] [0x3C]))).map
      (fun o => (o.bus, o.registers[6]?, o.memory)) =
        some ([.xfer false false 0xFF 0x3C], some 0x3C, []) := by decide
/-- A run cut short while BUSY = 1, and one that a model fault ends, have no observation. -/
theorem test_run_without_end :
    observation (run 2 (demo.hosting [wr .opr 0x04, .engine] [0x3C])) = none ∧
    observation (run 2 (demo.hosting [wr .opr 0x04, wr .data 0] [0x3C])) = none := by decide

/-- R260, R262. -/
theorem test_reset_between_steps :
    after (step (demand { running .nop with r1 := 0, bus := [.cs true], mem := [(3, 4)] } .reset))
      (fun t => (t.r1, t.stat, t.seq, t.bus, t.mem)) = some (0xFF, 0, .idle, [], [(3, 4)]) := rfl

/-! ### Card addresses (vectors K1 to K6) and the timer (M1 to M3) -/

theorem test_K_card_addresses :
    cardAddr 512 3 0x12345678 = 0x12345678 ∧ cardAddr 512 2 1 = 0x200 ∧ cardAddr 512 0 2 = 0x400 ∧
    cardAddr 512 1 0xFFFFFFFF = 0xFFFFFE00 ∧ cardAddr 512 2 0x00800000 = 0 ∧ cardAddr 512 2 0x007FFFFF = 0xFFFFFE00 := by decide
theorem test_M_ticks :
    (ticks 1 { demo with tshort := 0, tlong := 0 }).tlong = 0 ∧
    (ticks 2 { demo with tshort := 1, tlong := 3 }).tshort = 0 ∧
    (ticks 2 { demo with tshort := 1, tlong := 3 }).tlong = 1 ∧
    (ticks 3 { demo with tshort := 5, tlong := 100 }).tshort = 2 ∧
    (ticks 3 { demo with tshort := 5, tlong := 100 }).tlong = 97 := by decide

/-! ### Transport operations (vectors T1 to T8, E1) -/

theorem test_T1_nop :
    after (exec .nop { running .nop with result := 4 }) (fun t => (t.result, t.stat, t.bus)) = some (0, 0, []) := by
  decide
theorem test_T2_select :
    after (exec .select (running (.select .assert))) (fun t => (t.ctrl, t.bus)) = some (1, [.cs true]) := by decide
theorem test_T3_select_again :
    after (exec .select { running (.select .assert) with ctrl := 3 }) (fun t => (t.ctrl, t.bus)) =
      some (3, [.cs true]) := by decide
theorem test_T4_deselect :
    after (exec .deselect { running (.deselect .release) with ctrl := 3 }) (fun t => (t.ctrl, t.bus, t.seq)) =
      some (2, [.cs false], .running (.deselect .finish)) := by decide
theorem test_T5_xmit :
    after (exec .xmit { running (.xmit .exchange) with ctrl := 1, data := 0x40, card := [0x3C] })
      (fun t => (t.data, t.bus)) = some (0x40, [.xfer true false 0x40 0x3C]) := by decide
theorem test_T6_rcvr :
    after (exec .rcvr { running (.rcvr .exchange) with ctrl := 1, card := [0x01] }) (fun t => (t.seq, t.bus)) =
      some (.running (.rcvr (.record 0x01)), [.xfer true false 0xFF 0x01]) ∧
    after (exec .rcvr (running (.rcvr (.record 0x01)))) (·.data) = some 0x01 := by decide
theorem test_T7_rcvr_deselected :
    after (exec .rcvr { running (.rcvr .exchange) with ctrl := 2, card := [0xFF] }) (·.bus) =
      some [.xfer false true 0xFF 0xFF] := by decide
theorem test_T8_clktrain :
    after (exec .clktrain { running (.clktrain .release) with ctrl := 1 }) (fun t => (t.ctrl, t.bus, t.seq)) =
      some (0, [.cs false], .running (.clktrain (.train 10))) ∧
    after (exec .clktrain { running (.clktrain (.train 1)) with card := [0xFF] }) (·.seq) =
      some (.running (.clktrain .finish)) := by decide
theorem test_E1_reserved :
    after (exec (.reserved 0x13) (running .reserved)) (fun t => (t.result, t.stat, t.bus)) = some (4, 0, []) := by
  decide

/-! ### Command operations (vectors C1 to C14) -/

theorem test_C1_waitready_ready :
    after (exec .waitready { running (.waitready (.wait .exchange)) with card := [0xFF] }) (·.seq) =
      some (.running (.waitready (.record 0xFF))) := by decide
/-- Program P6: the sample that reads 0. -/
theorem test_P6_waitready_expires :
    after (exec .waitready { running (.waitready (.wait (.sample 0x00))) with tshort := 0 }) (·.seq) =
      some (.running (.waitready (.record 0x00))) ∧
    after (exec .waitready { running (.waitready (.wait (.sample 0x00))) with tshort := 1 }) (·.seq) =
      some (.running (.waitready (.wait .exchange))) := by decide
/-- C3: the tenth poll byte is taken though its bit 7 is set, and the result is Error. -/
theorem test_C3_sendcmd_tenth_byte :
    after (exec .sendcmd (sending 0 0 (.poll 1))) (·.seq) = some (.running (.sendcmd (.command (.record 0xFF)))) ∧
    after (exec .sendcmd (sending 0 0 (.record 0xFF))) (fun t => (t.r1, t.seq)) =
      some (0xFF, .running (.sendcmd (.finish .error))) := by decide
/-- C6: 0xC1 is skipped. -/
theorem test_C6_sendcmd_skips :
    after (exec .sendcmd { sending 0 0 (.poll 9) with card := [0xC1] }) (·.seq) =
      some (.running (.sendcmd (.command (.poll 8)))) := by decide
/-- C11: a refused prefix ends SENDACMD with its response, valid here. -/
theorem test_C11_sendacmd_refused :
    after (exec .sendacmd (running (.sendacmd (.appPrefix (.record 0x05))))) (fun t => (t.r1, t.seq)) =
      some (0x05, .running (.sendacmd (.finish .ok))) := by decide
/-- C10: an accepted prefix is followed by the command. -/
theorem test_C10_sendacmd_accepted :
    after (exec .sendacmd { running (.sendacmd (.appPrefix (.record 0x01))) with cmdidx := 41 }) (·.seq) =
      some (.running (.sendacmd (.command (.wait .load)))) := by decide

/-! ### Wire command rows: the opcode byte each sends (R94), and a few of the other bytes -/

theorem test_goIdle : sent (exec (.goIdle 0) (sending 0 0 (.frame 0))) = some 0x40 ∧
    sent (exec (.goIdle 0) (sending 0 0 (.frame 5))) = some 0x95 := by decide
theorem test_opCondMmc : sent (exec (.opCondMmc 0) (sending 1 0 (.frame 0))) = some 0x41 := by decide
theorem test_sendIfCond : sent (exec (.sendIfCond 0x1AA) (sending 8 0x1AA (.frame 0))) = some 0x48 ∧
    sent (exec (.sendIfCond 0x1AA) (sending 8 0x1AA (.frame 4))) = some 0xAA := by decide
theorem test_sendCsd : sent (exec (.sendCsd 0) (sending 9 0 (.frame 0))) = some 0x49 := by decide
theorem test_sendCid : sent (exec (.sendCid 0) (sending 10 0 (.frame 0))) = some 0x4A := by decide
theorem test_setBlocklen : sent (exec (.setBlocklen 0x200) (sending 16 0x200 (.frame 0))) = some 0x50 ∧
    sent (exec (.setBlocklen 0x200) (sending 16 0x200 (.frame 3))) = some 0x02 := by decide
theorem test_readSingleBlock :
    sent (exec (.readSingleBlock 0x12345678) (sending 17 0x12345678 (.frame 0))) = some 0x51 ∧
    sent (exec (.readSingleBlock 0x12345678) (sending 17 0x12345678 (.frame 1))) = some 0x12 := by decide
theorem test_readMultipleBlock : sent (exec (.readMultipleBlock 0) (sending 18 0 (.frame 0))) = some 0x52 := by decide
theorem test_acmdSetBlockCount :
    sent (exec (.acmdSetBlockCount 2) { running (.write (.count (.frame 0))) with cnt := 2, card := [0xFF] }) =
      some 0x57 := by decide
theorem test_writeBlock : sent (exec (.writeBlock 0) (sending 24 0 (.frame 0))) = some 0x58 := by decide
theorem test_writeMultipleBlock : sent (exec (.writeMultipleBlock 0) (sending 25 0 (.frame 0))) = some 0x59 := by
  decide
theorem test_acmdOpCond : sent (exec (.acmdOpCond 0) (sending 41 0 (.frame 0))) = some 0x69 := by decide
theorem test_appCmd :
    sent (exec (.appCmd 0) { running (.sendacmd (.appPrefix (.frame 0))) with card := [0xFF] }) = some 0x77 := by decide
theorem test_readOcr : sent (exec (.readOcr 0) (sending 58 0 (.frame 0))) = some 0x7A := by decide
theorem test_sdcmdOther : sent (exec (.sdcmdOther 63 0) (sending 63 0 (.frame 0))) = some 0x7F := by decide
/-- C7, C9: the stop variant keeps the last byte that is not 0xFF. -/
theorem test_stopTransmission :
    after (exec (.stopTransmission 0) (sending 12 0 (.frame 5))) (fun t => (t.seq, t.tshort)) =
      some (.running (.sendcmd (.command (.stopPoll 10 0xFF))), 0) ∧
    after (exec (.stopTransmission 0) (sending 12 0 (.stopPoll 1 0x80))) (·.seq) =
      some (.running (.sendcmd (.command (.record 0x80)))) := by decide
/-- C4: the tenth byte, valid. -/
theorem test_r1Valid :
    after (exec (.r1Valid 5) { sending 0 0 (.poll 1) with card := [0x05] }) (·.seq) =
      some (.running (.sendcmd (.command (.record 0x05)))) := by decide

/-! ### Block operations (vectors B1 to B20) -/

theorem test_B10_rcvrblk_bad_token :
    after (exec .rcvrblk { running (.rcvrblk (.block .token)) with card := [0x01] }) (fun t => (t.seq, t.mem)) =
      some (.running (.rcvrblk (.record false)), []) := by decide
theorem test_B9_rcvrblk_last_byte :
    after (exec .rcvrblk (running (.rcvrblk (.block (.store 511 0x5A))))) (fun t => (t.seq, t.mem)) =
      some (.running (.rcvrblk (.block .crc1)), [(0x21FF, 0x5A)]) := by decide
theorem test_B12_xmitblk_payload :
    after (exec .xmitblk { running (.xmitblk (.block (.fetch 511))) with mem := [(0x21FF, 0x33)] }) (·.seq) =
      some (.running (.xmitblk (.block (.send 511 0x33)))) := by decide
theorem test_B14_xmitblk_stop :
    after (exec .xmitblk { running (.xmitblk (.record true)) with data := 0xFD }) (fun t => (t.blkdone, t.seq)) =
      some (0, .running (.xmitblk (.finish .ok))) := by decide
theorem test_B3_read_rejected :
    after (exec .read { running (.read .start) with drv := 1, dstatus := 1 }) (fun t => (t.seq, t.bus)) =
      some (.running (.read (.finish .parameter)), []) := by decide
/-- P3: block 1 of 3 fails, and the stop command follows. -/
theorem test_P3_read_stops :
    after (exec .read { running (.read (.block 1 .token)) with cnt := 3, card := [0x08] }) (·.seq) =
      some (.running (.read (.stop 1 (.frame 0)))) := by decide
theorem test_B5_write_rejected :
    after (exec .write { running (.write .start) with dstatus := 5 }) (·.seq) =
      some (.running (.write (.finish .notReady))) ∧
    after (exec .write { running (.write .start) with dstatus := 4 }) (·.seq) =
      some (.running (.write (.finish .writeProtected))) := by decide
/-- B16: no pre-command for an MMC card; P4: one for CTYPE 2. -/
theorem test_B16_write_without_prefix :
    after (exec .write { running (.write .start) with cnt := 2, ctype := 1 }) (·.seq) =
      some (.running (.write (.command (.wait .load)))) ∧
    after (exec .write { running (.write .start) with cnt := 2, ctype := 2 }) (·.seq) =
      some (.running (.write (.appPrefix (.wait .load)))) := by decide
/-- B20: the 257th byte lies at 0x10000. -/
theorem test_B20_host_address :
    stopped (exec .read { running (.read (.block 0 (.store 256 0))) with buf := 0xFF00 }) = some .hostAddress ∧
    after (exec .read { running (.read (.block 0 (.store 255 7))) with buf := 0xFF00 }) (·.mem) =
      some [(0xFFFF, 7)] := by decide

theorem test_tokenStartSingle :
    sent (exec .tokenStartSingle { running (.write (.block 0 .token)) with card := [0xFF] }) = some 0xFE := by decide
theorem test_tokenStartMulti :
    sent (exec .tokenStartMulti { running (.write (.block 1 .token)) with cnt := 2, card := [0xFF] }) = some 0xFC := by
  decide
/-- B19: the stop token goes out after a wait that timed out, and the verdict is Error. -/
theorem test_tokenStop :
    sent (exec .tokenStop { running (.write (.stopToken 2 false)) with cnt := 2, card := [0xFF] }) = some 0xFD ∧
    after (exec .tokenStop { running (.write (.stopToken 2 false)) with cnt := 2, card := [0xFF] }) (·.seq) =
      some (.running (.write (.release 2 false))) := by decide
theorem test_tokenReadStart :
    after (exec .tokenReadStart { running (.read (.block 0 .token)) with card := [0xFE] }) (·.seq) =
      some (.running (.read (.block 0 (.payload 0)))) := by decide
/-- E8 in place: 0xE5 accepts a block. -/
theorem test_dataResponseAccepted :
    after (exec (.dataResponseAccepted 0xE5) { running (.write (.block 0 .response)) with card := [0xE5] }) (·.seq) =
      some (.running (.write (.release 1 true))) := by decide

/-! ### Witnesses: for each statement with hypotheses, states and operands that meet them, clause by clause -/

/-- BUSY set and clear. -/
theorem bit_set : (0x01 : Byte).getLsbD 0 = true := by decide
theorem bit_clear (n : Nat) : (0x00 : Byte).getLsbD n = false := by simp
theorem running_meets (a : Activity) : (running a).busy = true ∧ (running a).seq = .running a := ⟨bit_set, rfl⟩

/-- The 512 bytes of `demo`'s buffer are admitted. -/
theorem demo_admits (i : Nat) (h : i < 512) : demo.admits (demo.buf.toNat + i) = true := by
  simp only [State.admits, State.hostMemOK, State.inRegisterBlock, State.hostSpace, demo, params, State.powerUp,
    Config.blockSize]
  simp
  omega

theorem witness_DecodeOfEncodeIsTheInstruction :
    codesDistinct Config.params ∧ (∀ arg : Word, wf (.goIdle arg) = true) ∧ wf (.reserved 0x06) = true ∧
    wf (.reserved 0xFF) = true ∧
    wf (.sdcmdOther 2 0) = true ∧ wf (.sdcmdOther 63 0xFFFFFFFF) = true ∧
    wf (.dataResponseAccepted 0xF5) = true ∧ wf (.r1Valid 0x7F) = true :=
  ⟨by decide, fun _ => rfl, by decide⟩
theorem witness_EncodeOfDecodeIsTheBytes :
    dec .opr [0xFF] = .ok (.reserved 0xFF) ∧ dec .frame [0x4C, 0, 0, 0, 0, 1] = .ok (.stopTransmission 0) ∧
    dec .token [0xFC] = .ok .tokenStartMulti ∧ dec .readToken [0xFE] = .ok .tokenReadStart ∧
    dec .dataResponse [0xF5] = .ok (.dataResponseAccepted 0xF5) ∧ dec .r1 [0x00] = .ok (.r1Valid 0) := by decide

theorem witness_HostLoadReturnsTheRegister :
    (∀ (w : Width) (off : BitVec 5), (demand demo (.load w off)).env = .load w off :: []) ∧
    (∀ (w : Width) (off : BitVec 5), (demand (running .nop) (.load w off)).env = .load w off :: []) ∧
    (demand (running .nop) (.load .b2 0x14)).env = .load Reg.blkdone.width Reg.blkdone.offset :: [] :=
  ⟨fun _ _ => rfl, fun _ _ => rfl, by decide⟩
/-- Inside ARG, the wrong width of OPR, and the last offset of the block. -/
theorem witness_MisplacedAccessFaults :
    (∀ r : Reg, ¬(r.offset = 0x0D ∧ r.width = .b1)) ∧ (∀ r : Reg, ¬(r.offset = 0x00 ∧ r.width = .b4)) ∧
    (∀ r : Reg, ¬(r.offset = 0x1F ∧ r.width = .b1)) ∧
    (∃ s : State, s.env = .load .b1 0x0D :: [] ∧ s.busy = false) ∧
    (∃ s : State, s.env = .store .b1 0x0D 0 :: [] ∧ s.busy = false) ∧
    (∃ s : State, s.env = .store .b1 0x0D 0 :: [] ∧ s.busy = true) :=
  ⟨by intro r; cases r <;> decide, by intro r; cases r <;> decide, by intro r; cases r <;> decide,
    ⟨demand demo (.load .b1 0x0D), rfl, by decide⟩, ⟨demand demo (.store .b1 0x0D 0), rfl, by decide⟩,
    ⟨demand (running .nop) (.store .b1 0x0D 0), rfl, by decide⟩⟩
theorem witness_HostStoreEffect :
    (∃ s : State, s.busy = true ∧ s.env = .store .b4 0x1F 0 :: []) ∧
    (∀ (w : Width) (off : BitVec 5) (v : Word), ∃ s : State, s.busy = false ∧ s.env = .store w off v :: []) :=
  ⟨⟨demand (running .nop) (.store .b4 0x1F 0), by decide, rfl⟩,
    fun w off v => ⟨demand demo (.store w off v), bit_clear 0, rfl⟩⟩
theorem witness_OprStoreStartsTheOperation :
    (∀ c : Byte, ∃ s : State, s.env = .store .b1 0x00 (c.zeroExtend 32) :: [] ∧ s.busy = false) ∧
    (∃ s : State, s.env = .store .b1 0x00 ((0x31 : Byte).zeroExtend 32) :: [] ∧ s.busy = true) ∧
    (∃ s t : State, engine s = .next t ∧ s.busy = true) :=
  ⟨fun c => ⟨demand demo (.store .b1 0x00 (c.zeroExtend 32)), rfl, bit_clear 0⟩,
    ⟨demand (running .nop) (.store .b1 0x00 ((0x31 : Byte).zeroExtend 32)), rfl, by decide⟩,
    ⟨running .nop, (running .nop).finish .ok, rfl, by decide⟩⟩
theorem witness_OperationsStart :
    Instr.space .nop = .opr ∧ Instr.space .write = .opr ∧ Instr.space (.reserved 0x80) = .opr ∧
    demo.busy = false := by decide
theorem witness_StepRunsTheDecodedInstruction :
    (∀ c : Byte, ∃ s : State, s.busy = false ∧ s.env = .store .b1 0x00 (c.zeroExtend 32) :: []) ∧
    (∀ a : Activity, ∃ s : State, s.busy = true ∧ s.seq = .running a ∧ s.env = .engine :: []) :=
  ⟨fun c => ⟨demand demo (.store .b1 0x00 (c.zeroExtend 32)), bit_clear 0, rfl⟩,
    fun a => ⟨demand (running a) .engine, bit_set, rfl, rfl⟩⟩

/-- NopRuns, SelectAndDeselectRun, XmitAndRcvrRun, ClktrainRuns: an idle block. -/
theorem witness_TransportRuns : demo.busy = false ∧ { demo with ctrl := 0x03 }.busy = false := by decide
/-- The boundaries of the four ranges, and codes just outside them. -/
theorem witness_ReservedCodesRun :
    demo.busy = false ∧
    [0x06, 0x0F, 0x13, 0x1F, 0x22, 0x2F, 0x32, 0xFF].all (fun c => decodeOpr c == .reserved c) = true ∧
    [0x05, 0x10, 0x12, 0x20, 0x21, 0x30, 0x31].all (fun c => decodeOpr c != .reserved c) = true := by decide

theorem witness_WaitReadySteps :
    (∀ p : WaitReadyPos, (running (.waitready p)).busy = true ∧
      (running (.waitready p)).seq = .running (.waitready p)) ∧
    (∀ p : XmtPos, ∃ s : State, s.busy = true ∧ s.tshort ≠ 0 ∧ s.seq = .running (.xmitblk (.block p))) ∧
    (∀ p : RcvPos, ∃ s : State, s.busy = true ∧ s.tshort ≠ 0 ∧ s.nextByte = 0xFF ∧
      s.seq = .running (.rcvrblk (.block p))) :=
  ⟨fun p => running_meets (.waitready p),
    fun p => ⟨{ running (.xmitblk (.block p)) with tshort := 1 }, bit_set, (by decide : (1 : Byte) ≠ 0), rfl⟩,
    fun p => ⟨{ running (.rcvrblk (.block p)) with tshort := 1, card := [0xFF] }, bit_set,
      (by decide : (1 : Byte) ≠ 0), rfl, rfl⟩⟩
theorem witness_WaitReadySucceeds :
    (∃ s : State, s.busy = false ∧ shortLoad s.params ≠ 0 ∧ s.card = [] ++ 0xFF :: []) ∧
    (∃ s : State, s.busy = false ∧ shortLoad s.params ≠ 0 ∧ s.card = [0x00, 0x00] ++ 0xFF :: [] ∧
      ∀ b ∈ [(0x00 : Byte), 0x00], b ≠ 0xFF) :=
  ⟨⟨{ demo with card := [0xFF] }, rfl, by decide, rfl⟩,
    ⟨{ demo with card := [0x00, 0x00, 0xFF] }, rfl, by decide, rfl, by decide⟩⟩
theorem witness_WaitFailsWhenTheCounterIsZero :
    ∀ (n : Half) (a : Activity), ∃ (s : State) (b : Byte), s.busy = true ∧ s.tshort = 0 ∧ b ≠ 0xFF ∧ s.cnt = n ∧
      s.seq = .running a :=
  fun n a => ⟨{ running a with cnt := n }, 0xFE, bit_set, rfl, by decide, rfl, rfl⟩

/-- No invalid byte; nine, then a valid tenth; nine, then an invalid tenth. -/
theorem witness_SendcmdTransaction :
    (∃ s : State, s.busy = false ∧ s.commandIndex ≠ 12 ∧
      s.card = 0xFF :: (List.replicate 6 0xFF ++ ([] ++ 0x00 :: [])) ∧
      (0x00 : Byte).getLsbD 7 = false ∧ ([] : List Byte).length < s.params.respPoll) ∧
    (∃ s : State, s.busy = false ∧ s.commandIndex ≠ 12 ∧
      s.card = 0xFF :: (List.replicate 6 0xFF ++ (List.replicate 9 0x80 ++ 0x05 :: [])) ∧
      (∀ b ∈ List.replicate 9 (0x80 : Byte), b.getLsbD 7 = true) ∧ (0x05 : Byte).getLsbD 7 = false ∧
      (List.replicate 9 (0x80 : Byte)).length < s.params.respPoll) ∧
    (∃ s : State, s.busy = false ∧ s.commandIndex ≠ 12 ∧
      s.card = 0xFF :: (List.replicate 6 0xFF ++ (List.replicate 9 0xFF ++ 0xFF :: [0x00])) ∧
      (∀ b ∈ List.replicate 9 (0xFF : Byte), b.getLsbD 7 = true) ∧
      (List.replicate 9 (0xFF : Byte)).length + 1 = s.params.respPoll) :=
  ⟨⟨{ demo with card := 0xFF :: (List.replicate 6 0xFF ++ ([] ++ 0x00 :: [])) }, rfl, by decide, rfl, by decide,
      by decide⟩,
    ⟨{ demo with card := 0xFF :: (List.replicate 6 0xFF ++ (List.replicate 9 0x80 ++ 0x05 :: [])), cmdidx := 0x3F },
      rfl, by decide, rfl, by decide, by decide, by decide⟩,
    ⟨{ demo with card := 0xFF :: (List.replicate 6 0xFF ++ (List.replicate 9 0xFF ++ 0xFF :: [0x00])) },
      rfl, by decide, rfl, by decide, rfl⟩⟩
theorem witness_SendcmdStopTransaction :
    ∃ s : State, s.busy = false ∧ s.commandIndex = 12 ∧
      s.card = List.replicate 6 0xFF ++ (List.replicate 9 0xFF ++ [0x3F] ++ []) ∧
      (List.replicate 6 (0xFF : Byte)).length = 6 ∧
      (List.replicate 9 (0xFF : Byte) ++ [0x3F]).length = s.params.stopBudget :=
  ⟨{ demo with card := List.replicate 6 0xFF ++ (List.replicate 9 0xFF ++ [0x3F] ++ []), cmdidx := 12 },
    rfl, by decide, rfl, rfl, rfl⟩
theorem witness_SendacmdPrefixDecides :
    ∀ p : Byte, ∃ s : State, s.busy = true ∧ s.seq = .running (.sendacmd (.appPrefix (.record p))) :=
  fun p => ⟨_, running_meets (.sendacmd (.appPrefix (.record p)))⟩
theorem witness_SendacmdTransaction :
    ∀ p ∈ [(0x00 : Byte), 0x01], ∃ s : State, s.busy = false ∧ s.commandIndex ≠ 12 ∧ s.params.respPoll ≠ 0 ∧
      s.card = 0xFF :: (List.replicate 6 0xFF ++ p :: 0xFF :: (List.replicate 6 0xFF ++ 0x7F :: [])) ∧
      (List.replicate 6 (0xFF : Byte)).length = 6 ∧ p ≤ s.params.idleR1 ∧ p.getLsbD 7 = false ∧
      (0x7F : Byte).getLsbD 7 = false :=
  fun p h => ⟨{ demo with
      card := 0xFF :: (List.replicate 6 0xFF ++ p :: 0xFF :: (List.replicate 6 0xFF ++ 0x7F :: [])), cmdidx := 41 },
    bit_clear 0, (by decide : (0x29 : Byte).truncate 6 ≠ 12#6), (by decide : params.respPoll ≠ 0), rfl, rfl,
    (by decide : ∀ p ∈ [(0x00 : Byte), 0x01], p ≤ params.idleR1) p h,
    (by decide : ∀ p ∈ [(0x00 : Byte), 0x01], p.getLsbD 7 = false) p h, by decide⟩

/-- Every position of a command, for every row: each row's own index and argument, in SENDCMD. -/
theorem witness_CommandRowsStep (i : Instr) (idx : BitVec 6) (arg : Word) (h : i.frame? = some (idx, arg))
    (p : CmdPos) : ∃ (a : Activity) (s : State),
      i.frame? = some (idx, arg) ∧ s.busy = true ∧ s.seq = .running a ∧ a.command? s = some (idx, arg, p) :=
  ⟨.sendcmd (.command p), sending (idx.zeroExtend 8) arg p, h, bit_set, rfl, by
    simp [Activity.command?, State.commandIndex, sending]⟩
/-- The command rows have an index and an argument, named or not. -/
theorem witness_CommandRowsStep_rows :
    Instr.frame? (.goIdle 5) = some (0, 5) ∧ Instr.frame? (.stopTransmission 0) = some (12, 0) ∧
    Instr.frame? (.sdcmdOther 63 1) = some (63, 1) := by decide
/-- At the first and the last poll. -/
theorem witness_ValidResponseIsTaken :
    ∀ n ∈ [1, 10], ∃ (a : Activity) (s : State), s.busy = true ∧ s.seq = .running a ∧
      a.command? s = some (17, 0, .poll n) ∧ s.nextByte = 0#1 ++ (0x7F : BitVec 7) :=
  fun n _ => ⟨.sendcmd (.command (.poll n)), { sending 17 0 (.poll n) with card := [0x7F] }, bit_set, rfl, rfl,
    (by decide : (0x7F : Byte) = 0#1 ++ (0x7F : BitVec 7))⟩
theorem witness_WrittenTokensAreSent :
    (∀ tok ∈ [params.tokenSingle, params.tokenMulti, params.tokenStop], ∃ s : State, s.busy = true ∧
      codesDistinct s.params ∧ s.params.sectorSize ≠ 0 ∧ s.data = tok ∧ s.seq = .running (.xmitblk (.block .token))) ∧
    (∀ k, ∃ s : State, s.busy = true ∧ codesDistinct s.params ∧ s.params.sectorSize ≠ 0 ∧ s.cnt = 1 ∧
      s.seq = .running (.write (.block k .token))) ∧
    (∀ k, ∃ s : State, s.busy = true ∧ codesDistinct s.params ∧ s.params.sectorSize ≠ 0 ∧ s.cnt ≠ 1 ∧
      s.seq = .running (.write (.block k .token))) ∧
    (∀ k ready, ∃ s : State, s.busy = true ∧ codesDistinct s.params ∧ s.params.sectorSize ≠ 0 ∧
      s.seq = .running (.write (.stopToken k ready))) :=
  have codes : codesDistinct params ∧ params.sectorSize ≠ 0 := by decide
  ⟨fun tok _ => ⟨{ running (.xmitblk (.block .token)) with data := tok }, bit_set, codes.1, codes.2, rfl, rfl⟩,
    fun k => ⟨running (.write (.block k .token)), bit_set, codes.1, codes.2, rfl, rfl⟩,
    fun k => ⟨{ running (.write (.block k .token)) with cnt := 2 }, bit_set, codes.1, codes.2,
      (by decide : (2 : Half) ≠ 1), rfl⟩,
    fun k ready => ⟨running (.write (.stopToken k ready)), bit_set, codes.1, codes.2, rfl⟩⟩
/-- The read token, in both operations; every accepted response of the default mask, in both. -/
theorem witness_CardTokensAreTaken :
    (∃ s : State, s.busy = true ∧ s.params.readToken ≠ 0xFF ∧ s.params.sectorSize ≠ 0 ∧
      s.nextByte = s.params.readToken ∧ s.seq = .running (.rcvrblk (.block .token))) ∧
    (∀ k, ∃ s : State, s.busy = true ∧ s.params.readToken ≠ 0xFF ∧ s.params.sectorSize ≠ 0 ∧
      s.nextByte = s.params.readToken ∧ s.seq = .running (.read (.block k .token))) ∧
    (∀ d ∈ [(0x05 : Byte), 0xF5], ∃ s : State, s.busy = true ∧ s.nextByte = d ∧
      d &&& s.params.drespMask = s.params.drespOk ∧ s.seq = .running (.xmitblk (.block .response))) ∧
    (∀ d ∈ [(0x05 : Byte), 0xF5], ∀ k, ∃ s : State, s.busy = true ∧ s.nextByte = d ∧
      d &&& s.params.drespMask = s.params.drespOk ∧ s.seq = .running (.write (.block k .response))) :=
  have token : params.readToken ≠ 0xFF ∧ params.sectorSize ≠ 0 := by decide
  have accepted : ∀ d ∈ [(0x05 : Byte), 0xF5], d &&& params.drespMask = params.drespOk := by decide
  ⟨⟨{ running (.rcvrblk (.block .token)) with card := [0xFE] }, rfl, token.1, token.2, rfl, rfl⟩,
    fun k => ⟨{ running (.read (.block k .token)) with card := [0xFE] }, bit_set, token.1, token.2, rfl, rfl⟩,
    fun d h => ⟨{ running (.xmitblk (.block .response)) with card := [d] }, bit_set, rfl, accepted d h, rfl⟩,
    fun d h k => ⟨{ running (.write (.block k .response)) with card := [d] }, bit_set, rfl, accepted d h, rfl⟩⟩

/-- No leading filler, and any number of them (two in R186's example). -/
theorem witness_RcvrblkTransaction :
    ∀ n, ∃ (s : State) (payload : List Byte), s.busy = false ∧ Memory.wf s.mem ∧
      (n = 0 ∨ shortLoad s.params ≠ 0) ∧ s.params.readToken ≠ 0xFF ∧
      s.card = List.replicate n 0xFF ++ s.params.readToken :: (payload ++ 0x00 :: 0x00 :: []) ∧
      payload.length = s.params.sectorSize ∧ ∀ i, i < s.params.sectorSize → s.admits (s.buf.toNat + i) = true :=
  fun n => ⟨{ demo with card := List.replicate n 0xFF ++ 0xFE :: (List.replicate 512 0x5A ++ 0x00 :: 0x00 :: []) },
    List.replicate 512 0x5A, bit_clear 0, ⟨List.Pairwise.nil, fun _ h => nomatch h⟩,
    .inr (by decide : shortLoad params ≠ 0), (by decide : (0xFE : Byte) ≠ 0xFF), rfl, List.length_replicate,
    demo_admits⟩
theorem witness_RcvrblkBadToken :
    ∃ s : State, s.busy = false ∧ s.card = 0xFC :: [] ∧ (0xFC : Byte) ≠ 0xFF ∧ (0xFC : Byte) ≠ s.params.readToken :=
  ⟨{ demo with card := [0xFC] }, rfl, rfl, by decide, by decide⟩
/-- An accepted and a rejected data response. -/
theorem witness_XmitblkTransaction :
    ∀ d : Byte, ∀ n, ∃ (s : State) (notReady junk : List Byte), s.busy = false ∧ s.data ≠ s.params.tokenStop ∧
      (notReady = [] ∨ shortLoad s.params ≠ 0) ∧ (∀ b ∈ notReady, b ≠ 0xFF) ∧ notReady.length = n ∧
      s.card = notReady ++ 0xFF :: 0xFF :: (junk ++ 0xFF :: 0xFF :: d :: []) ∧ junk.length = s.params.sectorSize ∧
      ∀ i, i < s.params.sectorSize → s.admits (s.buf.toNat + i) = true :=
  fun d n => ⟨{ demo with
      data := 0xFE
      card := List.replicate n 0x00 ++ 0xFF :: 0xFF :: (List.replicate 512 0xFF ++ 0xFF :: 0xFF :: d :: []) },
    List.replicate n 0x00, List.replicate 512 0xFF, bit_clear 0, (by decide : (0xFE : Byte) ≠ 0xFD),
    .inr (by decide : shortLoad params ≠ 0), fun b h => by rw [List.eq_of_mem_replicate h]; decide,
    List.length_replicate, rfl, List.length_replicate, demo_admits⟩
theorem witness_XmitblkStopToken : ∃ s : State, s.busy = false ∧ s.data = s.params.tokenStop ∧
    s.card = 0xFF :: 0xFF :: [] :=
  ⟨{ demo with data := 0xFD, card := [0xFF, 0xFF] }, rfl, rfl, rfl⟩
/-- Vector B20: BUF = 0xFF00, byte 255 is the last admitted one and byte 256 lies past the address space. -/
theorem witness_InadmissibleAccessFaults :
    ∀ a : Activity, ∃ s : State, s.busy = true ∧ s.seq = .running a ∧ s.buf = 0xFF00 ∧
      (∃ r ∈ s.params.hostMemory, r.lo ≤ 0xFF00 + 512 * 0 + 255 ∧ 0xFF00 + 512 * 0 + 255 ≤ r.hi) ∧
      s.params.sectorSize = 512 ∧ ¬(s.params.sdspiBase ≤ 0xFF00 + 512 * 0 + 255 ∧
        0xFF00 + 512 * 0 + 255 ≤ s.params.sdspiBase + 0x1F) ∧
      ¬ 0xFF00 + 512 * 0 + 256 < 2 ^ s.params.hostAddrWidth :=
  fun a => ⟨{ running a with buf := 0xFF00 }, bit_set, rfl, rfl, ⟨⟨0x2000, 0xFFFF⟩, .head _, by decide⟩, rfl,
    (by decide : ¬(0x0100 ≤ 0xFF00 + 512 * 0 + 255 ∧ 0xFF00 + 512 * 0 + 255 ≤ 0x0100 + 0x1F)),
    (by decide : ¬ 0xFF00 + 512 * 0 + 256 < 2 ^ 16)⟩

theorem witness_CardAddressOfSector :
    ({ demo with ctype := 0x03 }.ctype &&& 0x03 = (0x03 : Byte)) ∧
    ({ demo with ctype := 0x02 }.ctype &&& 0x03 ≠ (0x03 : Byte)) := by decide
theorem witness_ReadValidation :
    ({ demo with drv := 1 }.busy = false ∧ { demo with drv := 1 }.drv ≠ 0) ∧
    ({ demo with cnt := 0 }.busy = false ∧ { demo with cnt := 0 }.cnt = 0) ∧
    ({ demo with dstatus := 1 }.busy = false ∧ { demo with dstatus := 1 }.drv = 0 ∧ { demo with dstatus := 1 }.cnt ≠ 0 ∧
      { demo with dstatus := 1 }.noInit = true) ∧
    (demo.busy = false ∧ demo.drv = 0 ∧ demo.cnt ≠ 0 ∧ demo.noInit = false) := by decide
theorem witness_WriteValidation :
    ({ demo with drv := 0xFF }.busy = false ∧ { demo with drv := 0xFF }.drv ≠ 0) ∧
    ({ demo with dstatus := 5 }.busy = false ∧ { demo with dstatus := 5 }.drv = 0 ∧ { demo with dstatus := 5 }.cnt ≠ 0 ∧
      { demo with dstatus := 5 }.noInit = true) ∧
    ({ demo with dstatus := 4 }.busy = false ∧ { demo with dstatus := 4 }.drv = 0 ∧ { demo with dstatus := 4 }.cnt ≠ 0 ∧
      { demo with dstatus := 4 }.noInit = false ∧ { demo with dstatus := 4 }.protect = true) ∧
    (demo.busy = false ∧ demo.drv = 0 ∧ demo.cnt ≠ 0 ∧ demo.noInit = false ∧ demo.protect = false) := by decide
/-- Every position; the largest count; a byte that is neither the filler nor the read token, and the filler; a counter
that has not run out, and an admitted byte of the buffer. -/
theorem witness_ReadSteps :
    (∀ p : ReadPos, ∃ s : State, s.busy = true ∧ s.seq = .running (.read p) ∧ s.drv = 0 ∧ s.cnt ≠ 0 ∧
      s.noInit = false ∧ s.nextByte ≠ 0xFF ∧ s.nextByte ≠ s.params.readToken) ∧
    (∀ p : ReadPos, ∃ s : State, s.busy = true ∧ s.seq = .running (.read p) ∧ s.cnt = 0xFFFF ∧ s.nextByte = 0xFF ∧
      s.tshort ≠ 0) ∧
    (∀ i v, i < 512 → ∃ s : State, s.busy = true ∧ s.seq = .running (.read (.block 0 (.store i v))) ∧
      s.admits (s.buf.toNat + s.params.sectorSize * 0 + i) = true) :=
  ⟨fun p => ⟨{ running (.read p) with card := [0x08] }, bit_set, rfl, rfl, (by decide : (1 : Half) ≠ 0), bit_clear 0,
      (by decide : (0x08 : Byte) ≠ 0xFF), (by decide : (0x08 : Byte) ≠ 0xFE)⟩,
    fun p => ⟨{ running (.read p) with cnt := 0xFFFF, card := [0xFF], tshort := 1 }, bit_set, rfl, rfl, rfl,
      (by decide : (1 : Byte) ≠ 0)⟩,
    fun i v h => ⟨running (.read (.block 0 (.store i v))), bit_set, rfl, demo_admits i h⟩⟩
/-- Every position, with the counter run out and not. -/
theorem witness_WriteSteps :
    ∀ n ∈ [(0 : Byte), 50], ∀ p : WritePos, ∃ s : State, s.busy = true ∧ s.seq = .running (.write p) ∧ s.drv = 0 ∧
      s.cnt ≠ 0 ∧ s.noInit = false ∧ s.protect = false ∧ s.tshort = n ∧ s.nextByte = 0xFF :=
  fun n _ p => ⟨{ running (.write p) with card := [0xFF], tshort := n }, bit_set, rfl, rfl,
    (by decide : (1 : Half) ≠ 0), bit_clear 0, bit_clear 2, rfl, rfl⟩
/-- No invalid poll byte, and nine. -/
theorem witness_ReadSingleTransaction :
    ∀ n, n < 10 → ∃ (s : State) (junk invalid payload : List Byte), s.busy = false ∧ Memory.wf s.mem ∧
      s.drv = 0 ∧ s.cnt = 1 ∧ s.noInit = false ∧ s.params.readToken ≠ 0xFF ∧
      s.card = 0xFF :: (junk ++ (invalid ++ 0x00 :: s.params.readToken :: (payload ++ 0x12 :: 0x34 :: ([] ++ [])))) ∧
      junk.length = 6 ∧ invalid.length = n ∧ n < s.params.respPoll ∧ (∀ b ∈ invalid, b.getLsbD 7 = true) ∧
      payload.length = s.params.sectorSize ∧ ([] : List Byte).length = s.params.deselectTrailer ∧
      ∀ i, i < s.params.sectorSize → s.admits (s.buf.toNat + i) = true :=
  fun n h => ⟨{ demo with card := 0xFF :: (List.replicate 6 0xFF ++ (List.replicate n 0xFF ++ 0x00 :: 0xFE ::
      (List.replicate 512 0xAA ++ 0x12 :: 0x34 :: []))) }, List.replicate 6 0xFF, List.replicate n 0xFF,
    List.replicate 512 0xAA, bit_clear 0, ⟨List.Pairwise.nil, fun _ h => nomatch h⟩, rfl, rfl, bit_clear 0,
    (by decide : (0xFE : Byte) ≠ 0xFF), rfl, rfl, List.length_replicate, h,
    fun b h => by rw [List.eq_of_mem_replicate h]; decide, List.length_replicate, rfl, demo_admits⟩
/-- An accepted and a rejected data response. -/
theorem witness_WriteSingleTransaction :
    ∀ n, n < 10 → ∀ d : Byte, ∃ (s : State) (junk invalid junk' : List Byte), s.busy = false ∧ s.drv = 0 ∧ s.cnt = 1 ∧
      s.noInit = false ∧ s.protect = false ∧ s.params.tokenSingle ≠ s.params.tokenStop ∧
      s.card = 0xFF :: (junk ++ (invalid ++ 0x00 :: 0xFF :: 0xFF :: (junk' ++ 0xFF :: 0xFF :: d :: ([] ++ [])))) ∧
      junk.length = 6 ∧ invalid.length = n ∧ n < s.params.respPoll ∧ (∀ b ∈ invalid, b.getLsbD 7 = true) ∧
      junk'.length = s.params.sectorSize ∧ ([] : List Byte).length = s.params.deselectTrailer ∧
      ∀ i, i < s.params.sectorSize → s.admits (s.buf.toNat + i) = true :=
  fun n h d => ⟨{ demo with card := 0xFF :: (List.replicate 6 0xFF ++ (List.replicate n 0xFF ++ 0x00 :: 0xFF :: 0xFF ::
      (List.replicate 512 0xFF ++ 0xFF :: 0xFF :: d :: []))) }, List.replicate 6 0xFF, List.replicate n 0xFF,
    List.replicate 512 0xFF, bit_clear 0, rfl, rfl, bit_clear 0, bit_clear 2, (by decide : (0xFE : Byte) ≠ 0xFD), rfl,
    rfl, List.length_replicate, h, fun b h => by rw [List.eq_of_mem_replicate h]; decide, List.length_replicate, rfl,
    demo_admits⟩
theorem witness_MultiBlockReadEndsInStop :
    ∃ (s t : State) (p : ReadPos) (k : Nat), s.busy = true ∧ s.cnt ≠ 1 ∧ s.seq = .running (.read p) ∧
      engine s = .next t ∧ t.seq = .running (.read (.release k)) :=
  ⟨{ running (.read (.stop 1 (.record 0))) with cnt := 3 }, _, .stop 1 (.record 0), 1, rfl, by decide, rfl, rfl, rfl⟩
theorem witness_MultiBlockWriteEndsInStopToken :
    ∃ (s t : State) (p : WritePos) (k : Nat) (ok : Bool), s.busy = true ∧ s.cnt ≠ 1 ∧ s.seq = .running (.write p) ∧
      engine s = .next t ∧ t.seq = .running (.write (.release k ok)) :=
  ⟨{ running (.write (.stopToken 2 true)) with cnt := 2, card := [0xFF] }, _, .stopToken 2 true, 2, true,
    rfl, by decide, rfl, rfl, rfl⟩

/-- The ticks of program P6 and vector B11 (one a sample, 50 in all), vector M5 (all 50 before the first sample), and a wait
that sees more samples than ticks, for each of the two waits. -/
theorem witness_TicksSaturateAndEndTheWaits :
    ∀ x ∈ [(List.replicate 49 (0, 1), (0, 1)), ([], (0, 50)), (List.replicate 100 (0, 0), (25, 25))],
      (∃ (s : State) (bytes : List Byte), s.busy = true ∧ s.tshort = shortLoad s.params ∧
        (∀ b ∈ bytes ++ [0x00], b ≠ 0xFF) ∧ s.seq = .running (.waitready (.wait .exchange)) ∧
        s.card = bytes ++ 0x00 :: [] ∧ bytes.length = x.1.length ∧
        s.env = waitSchedule x.1 ++ waitSchedule [x.2] ++ [] ∧ ticksIn x.1 < (shortLoad s.params).toNat ∧
        (shortLoad s.params).toNat ≤ ticksIn (x.1 ++ [x.2])) ∧
      (∃ (s : State) (bytes : List Byte), s.busy = true ∧ s.tshort = shortLoad s.params ∧
        (∀ b ∈ bytes ++ [0xFF], b = 0xFF) ∧ s.seq = .running (.rcvrblk (.block .token)) ∧
        s.card = bytes ++ 0xFF :: [] ∧ bytes.length = x.1.length ∧
        s.env = waitSchedule x.1 ++ waitSchedule [x.2] ++ [] ∧ ticksIn x.1 < (shortLoad s.params).toNat ∧
        (shortLoad s.params).toNat ≤ ticksIn (x.1 ++ [x.2])) :=
  have enough : ∀ x ∈ [(List.replicate 49 (0, 1), (0, 1)), ([], (0, 50)), (List.replicate 100 (0, 0), (25, 25))],
      ticksIn x.1 < (shortLoad params).toNat ∧ (shortLoad params).toNat ≤ ticksIn (x.1 ++ [x.2]) := by decide
  have all (v : Byte) (n : Nat) : ∀ b ∈ List.replicate n v ++ [v], b = v := fun b h => by
    simp only [List.mem_append, List.mem_replicate, List.mem_singleton] at h; exact h.elim (·.2) id
  fun x h =>
    ⟨⟨{ running (.waitready (.wait .exchange)) with
          tshort := shortLoad params, card := List.replicate x.1.length 0x00 ++ 0x00 :: []
          env := waitSchedule x.1 ++ waitSchedule [x.2] ++ [] },
        List.replicate x.1.length 0x00, bit_set, rfl, fun b hb => by rw [all _ _ b hb]; decide, rfl, rfl,
        List.length_replicate, rfl, enough x h⟩,
      ⟨{ running (.rcvrblk (.block .token)) with
          tshort := shortLoad params, card := List.replicate x.1.length 0xFF ++ 0xFF :: []
          env := waitSchedule x.1 ++ waitSchedule [x.2] ++ [] },
        List.replicate x.1.length 0xFF, bit_set, rfl, all _ _, rfl, rfl, List.length_replicate, rfl, enough x h⟩⟩
/-- R216's bound holds in the first schedule, where a tick falls in every iteration, and not in the third. -/
theorem witness_tick_in_every_iteration :
    (∀ x ∈ (List.replicate 49 (0, 1) ++ [(0, 1)]).tail, 1 ≤ x.1 + x.2) ∧
    ¬(List.replicate 100 (0, 0) ++ [(25, 25)]).length ≤ ticksIn (List.replicate 100 (0, 0) ++ [(25, 25)]) + 1 := by
  decide

/-- TickDecrementsBothCounters, ResetBetweenSteps. -/
theorem witness_TickAndReset :
    (demand demo .tick).env = .tick :: [] ∧ (demand (running .nop) .tick).env = .tick :: [] ∧
    (demand demo .reset).env = .reset :: [] ∧ (demand (running .nop) .reset).env = .reset :: [] := by decide

/-- The statements about every engine step or every step that answers a next state (EngineNeverWritesHostRegisters,
EventsAreNeverLost, the five invariants): one from a state of the invariant. -/
theorem witness_StepsFromTheInvariant :
    ∃ s t : State, s.inv ∧ step s = .next t ∧ engine { s with env := [] } = .next { t with env := [] } :=
  ⟨demand { running .nop with opr := 0x00 } .engine, _,
    ⟨by decide, ⟨⟨fun _ => (fun h => nomatch h), fun _ => bit_set⟩, rfl⟩, trivial, by decide, by decide⟩, rfl, rfl⟩
/-- An operation that keeps DATA, and RCVR. -/
theorem witness_OperandsStableWhileBusy :
    (∃ s t : State, s.busy = true ∧ s.nextAction ≠ .reset ∧ step s = .next t ∧ (∀ p, s.seq ≠ .running (.rcvr p)) ∧
      ∀ p, s.seq ≠ .running (.waitready p)) ∧
    (∃ s t : State, s.busy = true ∧ s.nextAction ≠ .reset ∧ step s = .next t ∧
      s.seq = .running (.rcvr (.record 0x5A))) :=
  ⟨⟨demand (running .nop) .engine, _, rfl, by decide, rfl, fun _ h => (nomatch h), fun _ h => nomatch h⟩,
    ⟨demand (running (.rcvr (.record 0x5A))) .engine, _, rfl, by decide, rfl, rfl⟩⟩
/-- Both outcomes: an admitted access, and one past the address space. -/
theorem witness_EngineIsNeverStuck :
    (∃ (s : State) (a : Activity), s.busy = true ∧ s.seq = .running a ∧ ∃ t, engine s = .next t) ∧
    (∃ (s : State) (a : Activity), s.busy = true ∧ s.seq = .running a ∧
      stopped (engine s) = some .hostAddress) :=
  ⟨⟨running .nop, .nop, rfl, rfl, _, rfl⟩,
    ⟨{ running (.read (.block 0 (.store 256 0))) with buf := 0xFF00 }, .read (.block 0 (.store 256 0)), rfl, rfl,
      by decide⟩⟩
/-- READ and WRITE of two blocks, RCVRBLK and XMITBLK, each at the first and the last byte of its buffer. -/
theorem witness_HostMemoryAccess_racing :
    (∀ a ∈ [0x2000, 0x23FF], ∃ s : State, s.busy = true ∧ (∃ x, s.seq = .running x ∧ ∃ p, x = .read p) ∧
      s.buf.toNat ≤ a ∧ a < s.buf.toNat + s.params.sectorSize * s.cnt.toNat ∧
      ¬(s.params.sdspiBase ≤ a ∧ a ≤ s.params.sdspiBase + 0x1F) ∧ s.env = .memLoad a :: []) ∧
    (∀ a ∈ [0x2000, 0x23FF], ∃ s : State, s.busy = true ∧ (∃ x, s.seq = .running x ∧ ∃ p, x = .write p) ∧
      s.buf.toNat ≤ a ∧ a < s.buf.toNat + s.params.sectorSize * s.cnt.toNat ∧
      ¬(s.params.sdspiBase ≤ a ∧ a ≤ s.params.sdspiBase + 0x1F) ∧ s.env = .memStore a 0 :: []) ∧
    (∀ a ∈ [0x2000, 0x21FF], ∃ s : State, s.busy = true ∧ (∃ x, s.seq = .running x ∧ ∃ p, x = .rcvrblk p) ∧
      s.buf.toNat ≤ a ∧ a < s.buf.toNat + s.params.sectorSize * 1 ∧
      ¬(s.params.sdspiBase ≤ a ∧ a ≤ s.params.sdspiBase + 0x1F) ∧ s.env = .memLoad a :: []) ∧
    (∀ a ∈ [0x2000, 0x21FF], ∃ s : State, s.busy = true ∧ (∃ x, s.seq = .running x ∧ ∃ p, x = .xmitblk p) ∧
      s.buf.toNat ≤ a ∧ a < s.buf.toNat + s.params.sectorSize * 1 ∧
      ¬(s.params.sdspiBase ≤ a ∧ a ≤ s.params.sdspiBase + 0x1F) ∧ s.env = .memStore a 0 :: []) :=
  have two : ∀ a ∈ [0x2000, 0x23FF], 0x2000 ≤ a ∧ a < 0x2000 + 512 * 2 ∧ ¬(0x0100 ≤ a ∧ a ≤ 0x0100 + 0x1F) := by decide
  have one : ∀ a ∈ [0x2000, 0x21FF], 0x2000 ≤ a ∧ a < 0x2000 + 512 * 1 ∧ ¬(0x0100 ≤ a ∧ a ≤ 0x0100 + 0x1F) := by decide
  ⟨fun a h => ⟨demand { running (.read .start) with cnt := 2 } (.memLoad a), bit_set, ⟨_, rfl, _, rfl⟩,
      (two a h).1, (two a h).2.1, (two a h).2.2, rfl⟩,
    fun a h => ⟨demand { running (.write .start) with cnt := 2 } (.memStore a 0), bit_set, ⟨_, rfl, _, rfl⟩,
      (two a h).1, (two a h).2.1, (two a h).2.2, rfl⟩,
    fun a h => ⟨demand (running (.rcvrblk (.block .load))) (.memLoad a), bit_set, ⟨_, rfl, _, rfl⟩,
      (one a h).1, (one a h).2.1, (one a h).2.2, rfl⟩,
    fun a h => ⟨demand (running (.xmitblk (.block .token))) (.memStore a 0), bit_set, ⟨_, rfl, _, rfl⟩,
      (one a h).1, (one a h).2.1, (one a h).2.2, rfl⟩⟩
/-- An idle block: the first and the last byte of host memory, the bytes around the register block, the first address past
host memory; and BUSY = 1 with an operation that has no buffer. -/
theorem witness_HostMemoryAccess_ordinary :
    (∀ a ∈ [0, 0x00FF, 0x0120, 0xFFFF], ∀ act ∈ [Action.memStore a 0x5A, .memLoad a], ∃ s : State, s.busy = false ∧
      ¬(s.params.sdspiBase ≤ a ∧ a ≤ s.params.sdspiBase + 0x1F) ∧ a < 2 ^ s.params.hostAddrWidth ∧
      Memory.wf s.mem ∧ s.env = act :: []) ∧
    (∀ act ∈ [Action.memStore 0x10000 0x5A, .memLoad 0x10000], ∃ s : State, s.busy = false ∧
      ¬(s.params.sdspiBase ≤ 0x10000 ∧ 0x10000 ≤ s.params.sdspiBase + 0x1F) ∧
      2 ^ s.params.hostAddrWidth ≤ 0x10000 ∧ s.env = act :: []) ∧
    (∃ s : State, s.busy = true ∧ s.seq = .running .nop ∧ s.env = .memStore 0x2000 0x5A :: []) :=
  have low : ∀ a ∈ [0, 0x00FF, 0x0120, 0xFFFF], ¬(0x0100 ≤ a ∧ a ≤ 0x0100 + 0x1F) ∧ a < 2 ^ 16 := by decide
  ⟨fun a h act _ => ⟨demand demo act, bit_clear 0, (low a h).1, (low a h).2,
      ⟨List.Pairwise.nil, fun _ h => nomatch h⟩, rfl⟩,
    fun act _ => ⟨demand demo act, bit_clear 0, (by decide : ¬(0x0100 ≤ 0x10000 ∧ 0x10000 ≤ 0x0100 + 0x1F)),
      (by decide : 2 ^ 16 ≤ 0x10000), rfl⟩,
    ⟨demand (running .nop) (.memStore 0x2000 0x5A), bit_set, rfl, rfl⟩⟩

theorem next_of (o : Outcome) (h : after o (fun _ => ()) = some ()) : ∃ t, o = .next t := by
  cases o <;> simp_all [after]
theorem witness_TransportFrame : ∃ t, exec .waitready { running (.waitready (.wait .exchange)) with card := [0] } = .next t :=
  ⟨_, rfl⟩
theorem witness_CommandFrame :
    (∃ t, exec .sendcmd (sending 0 0 (.poll 1)) = .next t) ∧
    (∃ t, exec (.goIdle 0) (sending 0 0 (.frame 5)) = .next t) ∧
    (∃ t, exec (.r1Valid 0) { sending 0 0 (.poll 1) with card := [0] } = .next t) :=
  ⟨⟨_, rfl⟩, ⟨_, rfl⟩, ⟨_, rfl⟩⟩
/-- A step that stores a byte, one that stores none, and a token's. -/
theorem witness_BlockFrame :
    (∃ t, exec .rcvrblk (running (.rcvrblk (.block (.store 511 0x5A)))) = .next t) ∧
    (∃ t, exec .read { running (.read (.block 0 (.payload 511))) with card := [0] } = .next t) ∧
    (∃ t, exec .tokenStop { running (.write (.stopToken 2 true)) with cnt := 2, card := [0xFF] } = .next t) ∧
    (0x2000 : Nat) ≠ (running .nop).blockBase 0 + 511 :=
  ⟨next_of _ (by decide), ⟨_, rfl⟩, ⟨_, rfl⟩, by decide⟩
theorem witness_Invariants_idle : State.registersOk demo ∧ demo.coherent ∧ demo.placeOk ∧ demo.lineOk ∧ Memory.wf demo.mem :=
  ⟨by decide, ⟨⟨fun h => absurd h (show ¬(0x00 : Byte).getLsbD 0 = true by decide), fun h => absurd rfl h⟩, trivial⟩, trivial,
    by decide, by decide⟩
/-- Inside a transaction: READ polling for its response, the card selected. -/
theorem witness_Invariants_reading :
    State.inv { running (.read (.command (.poll 10))) with
      opr := 0x30, ctrl := 0x01, bus := [.cs true, .xfer true false 0xFF 0xFF] } :=
  ⟨by decide, ⟨⟨fun _ => (fun h => nomatch h), fun _ => bit_set⟩, rfl⟩, ⟨by decide, by decide⟩, by decide, by decide⟩

end Sys2Proof.Tests
end

/-! ## The chip-select line and the bus history (00_scope.md R13, 10_state.md R24, R45)

Only three updates of a step bear on the invariant: an exchange, a chip-select primitive and reset. Every other one keeps
both the bus history and CTRL.CSA. -/

section
namespace Sys2Proof.Machine

/-! ### Histories put together -/

theorem lineAfter_append (l : Bool) (es fs : List BusEvent) :
    lineAfter l (es ++ fs) = lineAfter (lineAfter l es) fs := by
  induction es generalizing l with
  | nil => rfl
  | cons e es ih => cases e <;> exact ih _

theorem recordsLine_append (l : Bool) (es fs : List BusEvent) :
    recordsLine l (es ++ fs) = (recordsLine l es && recordsLine (lineAfter l es) fs) := by
  induction es generalizing l with
  | nil => rfl
  | cons e es ih =>
    cases e with
    | cs v => exact ih v
    | xfer c k m r => simp only [List.cons_append, recordsLine, lineAfter, ih, Bool.and_assoc]

/-! ### What each update does to the invariant -/

/-- The invariant reads nothing but the bus history and CTRL.CSA. -/
theorem lineOk_congr {s t : State} (hbus : t.bus = s.bus) (hcsa : t.csa = s.csa) (h : s.lineOk) : t.lineOk := by
  rw [State.lineOk, hbus, hcsa]; exact h

theorem exchange_lineOk (m : Byte) {s : State} (h : s.lineOk) : (s.exchange m).lineOk := by
  obtain ⟨hline, hrec⟩ := h
  constructor
  · rw [State.exchange_bus, lineAfter_append, hline]; rfl
  · rw [State.exchange_bus, recordsLine_append, hline, hrec]; simp [recordsLine]

theorem setCs_lineOk (v : Bool) {s : State} (h : s.lineOk) : (s.setCs v).lineOk := by
  obtain ⟨-, hrec⟩ := h
  constructor
  · rw [State.setCs_bus, lineAfter_append, State.setCs_csa]; rfl
  · rw [State.setCs_bus, recordsLine_append, hrec]; rfl

theorem Primitive.lineOk {s u : State} (hu : Primitive s u) (h : s.lineOk) : u.lineOk := by
  cases hu with
  | exchange m => exact exchange_lineOk m h
  | chipSelect v => exact setCs_lineOk v h
  | observe | load | store | r1 | data | blkdone => exact h

/-- A host store to CTRL keeps bit 0 (10_state.md R24); a store to another register does not reach CTRL. -/
theorem writeReg_csa (v : Word) (r : Reg) (s : State) : (s.writeReg v r).csa = s.csa := by
  cases r with
  | ctrl => simp [State.csa, State.writeReg]
  | _ => rfl

theorem writeReg_bus (v : Word) (r : Reg) (s : State) : (s.writeReg v r).bus = s.bus := by
  cases r <;> rfl

theorem applyReset_lineOk (s : State) : s.applyReset.lineOk := ⟨BitVec.getLsbD_zero.symm, rfl⟩

theorem takeAction_lineOk {s : State} (h : s.lineOk) : s.takeAction.lineOk := by
  obtain ⟨e, n, he⟩ := takeAction_eq s
  rw [he]; exact h

/-! ### Steps -/

theorem engine_lineOk {s t : State} (h : s.lineOk) (he : engine s = .next t) : t.lineOk := by
  obtain ⟨rfl, -⟩ | ⟨-, ⟨u, b, hu, rfl⟩ | ⟨res, rfl⟩⟩ := engine_cases he
  · exact h
  · exact lineOk_congr (State.goto_bus b u) rfl (hu.lineOk h)
  · exact lineOk_congr (State.finish_bus res s) rfl h

theorem perform_lineOk {a : Action} {s t : State} (h : s.lineOk) (hp : perform a s = .next t) : t.lineOk := by
  obtain ⟨-, he⟩ | ⟨-, rfl⟩ | ⟨-, c, b, -, rfl⟩ | ⟨-, r, v, -, rfl⟩ | ⟨v, rfl⟩ | ⟨b, v, -, rfl⟩ | ⟨-, rfl⟩ | ⟨-, rfl⟩ :=
    perform_cases hp
  · exact engine_lineOk h he
  · exact lineOk_congr (State.tick_bus s) rfl h
  · exact lineOk_congr (State.launch_bus c b s) rfl h
  · exact lineOk_congr (writeReg_bus v r s) (writeReg_csa v r s) h
  · exact h -- a host load
  · exact h -- a host store to memory
  · exact h -- a poll
  · exact applyReset_lineOk s

/-- Settles O59, by the list of everything one step can do: exchanges and chip-select primitives extend the history as the
invariant asks, reset empties it with CSA = 0, and a host store keeps CSA. -/
theorem chipSelectMatchesTheHistory : Obligations.ChipSelectMatchesTheHistory :=
  fun _ _ h hs => perform_lineOk (takeAction_lineOk h) hs

end Sys2Proof.Machine
end

/-! ## What a step leaves unchanged (10_state.md R22, R28, R30, R40, R42, 43_timer.md R212) -/

section
namespace Sys2Proof.Machine

/-! ### The operand registers -/

/-- The registers an operation takes its operands and its code from, the same in both states (R23, R27, R29, R42). DATA is
not among them: RCVR and WAITREADY write it. -/
abbrev State.sameOperands (s t : State) : Prop :=
  t.opr = s.opr ∧ t.dstatus = s.dstatus ∧ t.ctype = s.ctype ∧ t.cmdidx = s.cmdidx ∧ t.drv = s.drv ∧
  t.arg = s.arg ∧ t.buf = s.buf ∧ t.cnt = s.cnt

theorem sameOperands_refl (s : State) : s.sameOperands s := ⟨rfl, rfl, rfl, rfl, rfl, rfl, rfl, rfl⟩

theorem Primitive.sameOperands {s u : State} (hu : Primitive s u) : s.sameOperands u := by
  cases hu <;> exact sameOperands_refl s

theorem engine_sameOperands {s t : State} (he : engine s = .next t) : s.sameOperands t := by
  obtain ⟨rfl, -⟩ | ⟨-, ⟨u, b, hu, rfl⟩ | ⟨res, rfl⟩⟩ := engine_cases he
  · exact sameOperands_refl t
  · exact hu.sameOperands
  · exact sameOperands_refl s

/-- What an action other than a reset can do while BUSY = 1: the host's stores to the register block fault (R40). -/
theorem perform_busy_cases {a : Action} {s t : State} (hb : s.busy = true) (ha : a ≠ .reset)
    (hp : perform a s = .next t) :
    engine s = .next t ∨ t = s.tick ∨ (∃ v, t = { s with rdata := v }) ∨
      (∃ b v, t = { s with mem := Memory.write s.mem b v }) ∨ t = hostPoll s := by
  obtain ⟨-, he⟩ | ⟨-, ht⟩ | ⟨hidle, -⟩ | ⟨hidle, -⟩ | hload | ⟨b, v, -, hmem⟩ | ⟨-, hpoll⟩ | ⟨hreset, -⟩ :=
    perform_cases hp
  · exact .inl he
  · exact .inr (.inl ht)
  · exact absurd (hb.symm.trans hidle) nofun
  · exact absurd (hb.symm.trans hidle) nofun
  · exact .inr (.inr (.inl hload))
  · exact .inr (.inr (.inr (.inl ⟨b, v, hmem⟩)))
  · exact .inr (.inr (.inr (.inr hpoll)))
  · exact absurd hreset ha

theorem perform_sameOperands {a : Action} {s t : State} (hb : s.busy = true) (ha : a ≠ .reset)
    (hp : perform a s = .next t) : s.sameOperands t := by
  obtain he | rfl | ⟨v, rfl⟩ | ⟨b, v, rfl⟩ | rfl := perform_busy_cases hb ha hp
  · exact engine_sameOperands he
  · exact sameOperands_refl s -- a tick
  · exact sameOperands_refl s -- a host load
  · exact sameOperands_refl s -- a host store to memory
  · exact sameOperands_refl s -- a poll

/-! ### The counters, the clock select and the parameters -/

/-- The engine loads T_SHORT with SHORT_BUDGET or leaves it, and never touches T_LONG (43_timer.md R212). -/
theorem Primitive.counters {s u : State} (hu : Primitive s u) :
    u.tlong = s.tlong ∧ (u.tshort = s.tshort ∨ u.tshort = shortLoad s.params) := by
  cases hu with
  | load => exact ⟨rfl, .inr rfl⟩
  | observe | exchange | chipSelect | store | r1 | data | blkdone => exact ⟨rfl, .inl rfl⟩

theorem engine_counters {s t : State} (he : engine s = .next t) :
    t.tlong = s.tlong ∧ (t.tshort = s.tshort ∨ t.tshort = shortLoad s.params) := by
  obtain ⟨rfl, -⟩ | ⟨-, ⟨u, b, hu, rfl⟩ | ⟨res, rfl⟩⟩ := engine_cases he
  · exact ⟨rfl, .inl rfl⟩
  · exact hu.counters
  · exact ⟨rfl, .inl rfl⟩

theorem Primitive.clksel {s u : State} (hu : Primitive s u) : u.clksel = s.clksel := by
  cases hu with
  | chipSelect v => exact State.setCs_clksel v s
  | observe | exchange | load | store | r1 | data | blkdone => rfl

theorem engine_clksel {s t : State} (he : engine s = .next t) : t.clksel = s.clksel := by
  obtain ⟨rfl, -⟩ | ⟨-, ⟨u, b, hu, rfl⟩ | ⟨res, rfl⟩⟩ := engine_cases he
  · rfl
  · exact hu.clksel
  · rfl

theorem Primitive.params {s u : State} (hu : Primitive s u) : u.params = s.params := by
  cases hu <;> rfl

theorem engine_params {s t : State} (he : engine s = .next t) : t.params = s.params := by
  obtain ⟨rfl, -⟩ | ⟨-, ⟨u, b, hu, rfl⟩ | ⟨res, rfl⟩⟩ := engine_cases he
  · rfl
  · exact hu.params
  · rfl

theorem writeReg_params (v : Word) (r : Reg) (s : State) : (s.writeReg v r).params = s.params := by
  cases r <;> rfl

theorem perform_params {a : Action} {s t : State} (hp : perform a s = .next t) : t.params = s.params := by
  obtain ⟨-, he⟩ | ⟨-, rfl⟩ | ⟨-, c, b, -, rfl⟩ | ⟨-, r, v, -, rfl⟩ | ⟨v, rfl⟩ | ⟨b, v, -, rfl⟩ | ⟨-, rfl⟩ | ⟨-, rfl⟩ :=
    perform_cases hp
  · exact engine_params he
  · exact State.tick_params s
  · exact State.launch_params c b s
  · exact writeReg_params v r s
  · rfl -- a host load
  · rfl -- a host store to memory
  · rfl -- a poll
  · rfl -- a reset

@[simp] theorem takeAction_params (s : State) : s.takeAction.params = s.params := by
  obtain ⟨e, n, he⟩ := takeAction_eq s
  rw [he]

/-- Settles O43: an engine step is one primitive or `finish`, and these keep each of the registers listed. -/
theorem engineNeverWritesHostRegisters : Obligations.EngineNeverWritesHostRegisters := by
  refine ⟨fun s t he => ?_, fun s t hs => (perform_params hs).trans (takeAction_params s)⟩
  obtain ⟨hopr, hdst, hct, hidx, hdrv, harg, hbuf, hcnt⟩ := engine_sameOperands he
  obtain ⟨hlong, hshort⟩ := engine_counters he
  exact ⟨hopr, hdst, hct, hidx, hdrv, hlong, harg, hbuf, hcnt, engine_clksel he, hshort⟩

/-! ### DATA -/

theorem waitStep_data (p : WaitPos) (s : State) : (waitStep p s).2.data = s.data := by
  cases p <;> rfl

theorem commandTurn_data (a : Activity) (idx : BitVec 6) (arg : Word) (p : CmdPos) (s : State) :
    (s.commandTurn a idx arg p).data = s.data := by
  obtain ⟨ts, r, c, b, q, h⟩ := commandTurn_frame a idx arg p s
  rw [h]

theorem receiveStep_data {base : Nat} {p : RcvPos} {s s' : State} {x : Turn RcvPos Bool}
    (h : receiveStep base p s = .ok (x, s')) : s'.data = s.data := by
  cases p with
  | store i v =>
    simp only [receiveStep, State.memWrite] at h
    by_cases ha : s.admits (base + i) = true
    · simp only [ha, if_true] at h; cases h; rfl
    · simp [ha] at h
  | load | token | sample | payload i | crc1 | crc2 => cases h; rfl

theorem transmitStep_data {base : Nat} {token : Byte} {p : XmtPos} {s s' : State} {x : Turn XmtPos Bool}
    (h : transmitStep base token p s = .ok (x, s')) : s'.data = s.data := by
  cases p with
  | wait w =>
    have hw := waitStep_data w s
    simp only [transmitStep] at h
    split at h <;> cases h <;> simp_all
  | fetch i =>
    simp only [transmitStep] at h
    split at h <;> cases h; rfl
  | token | send i v | crc1 | crc2 | response => cases h; rfl

/-- Only RCVR and WAITREADY write DATA (R42). -/
theorem advance_data {a : Activity} {s t : State} (h : advance a s = .next t) (hr : ∀ p, a ≠ .rcvr p)
    (hw : ∀ p, a ≠ .waitready p) : t.data = s.data := by
  cases a with
  | rcvr p => exact absurd rfl (hr p)
  | waitready p => exact absurd rfl (hw p)
  | nop | reserved => cases h; rfl
  | select p => cases p <;> cases h <;> rfl
  | deselect p => cases p <;> cases h <;> rfl
  | xmit p => cases p <;> cases h <;> rfl
  | clktrain p => cases p <;> cases h <;> rfl
  | sendcmd p =>
    cases p with
    | command q => cases h; exact commandTurn_data ..
    | finish res => cases h; rfl
  | sendacmd p =>
    cases p with
    | appPrefix q | command q => cases h; exact commandTurn_data ..
    | finish res => cases h; rfl
  | rcvrblk p =>
    cases p with
    | block q =>
      simp only [advance, State.rcvrblkTurn] at h
      split at h <;> cases h <;> exact (State.goto_data ..).trans (receiveStep_data ‹_›)
    | record ok | finish res => cases h; rfl
  | xmitblk p =>
    cases p with
    | block q =>
      simp only [advance, State.xmitblkTurn] at h
      split at h <;> cases h <;> exact (State.goto_data ..).trans (transmitStep_data ‹_›)
    | record ok | finish res => cases h; rfl
  | read p =>
    cases p with
    | start => simp only [advance, State.readTurn] at h; split at h <;> cases h <;> rfl
    | command q | stop k q => cases h; exact commandTurn_data ..
    | block k q =>
      simp only [advance, State.readTurn] at h
      split at h <;> cases h <;> exact (State.goto_data ..).trans (receiveStep_data ‹_›)
    | release k | trailer k n | record k | finish res => cases h; rfl
  | write p =>
    cases p with
    | start => simp only [advance, State.writeTurn] at h; split at h <;> cases h <;> rfl
    | appPrefix q | count q | command q => cases h; exact commandTurn_data ..
    | block k q =>
      simp only [advance, State.writeTurn] at h
      split at h <;> cases h <;> exact (State.goto_data ..).trans (transmitStep_data ‹_›)
    | stopWait k w =>
      have hdata := waitStep_data w s
      simp only [advance, State.writeTurn] at h
      split at h <;> cases h <;> simp_all
    | stopToken k ready | release k ok | trailer k ok n | record k ok | finish res => cases h; rfl

theorem engine_data {s t : State} (he : engine s = .next t) (hr : ∀ p, s.seq ≠ .running (.rcvr p))
    (hw : ∀ p, s.seq ≠ .running (.waitready p)) : t.data = s.data := by
  by_cases hb : s.busy = true
  · cases hs : s.seq with
    | idle => rw [engine_idle (.inr hs)] at he; cases he; rfl
    | running a =>
      rw [engine_running hb hs] at he
      exact advance_data he (fun p ha => hr p (ha ▸ hs)) (fun p ha => hw p (ha ▸ hs))
  · rw [engine_idle (.inl (Bool.eq_false_of_not_eq_true hb))] at he; cases he; rfl

theorem perform_data {a : Action} {s t : State} (hb : s.busy = true) (ha : a ≠ .reset) (hp : perform a s = .next t)
    (hr : ∀ p, s.seq ≠ .running (.rcvr p)) (hw : ∀ p, s.seq ≠ .running (.waitready p)) : t.data = s.data := by
  obtain he | rfl | ⟨v, rfl⟩ | ⟨b, v, rfl⟩ | rfl := perform_busy_cases hb ha hp
  · exact engine_data he hr hw
  · exact State.tick_data s
  · rfl -- a host load
  · rfl -- a host store to memory
  · rfl -- a poll

@[simp] theorem takeAction_seq (s : State) : s.takeAction.seq = s.seq := by
  obtain ⟨e, n, he⟩ := takeAction_eq s
  rw [he]

@[simp] theorem takeAction_data (s : State) : s.takeAction.data = s.data := by
  obtain ⟨e, n, he⟩ := takeAction_eq s
  rw [he]

/-- Settles O44: while BUSY = 1 no host store gets through, and the engine writes no operand. -/
theorem operandsStableWhileBusy : Obligations.OperandsStableWhileBusy := by
  intro s t hb ha hs
  have hb' : s.takeAction.busy = true := (takeAction_busy s).trans hb
  have hops : s.sameOperands t := by
    obtain ⟨e, n, he⟩ := takeAction_eq s
    have hstep := perform_sameOperands hb' ha hs
    rw [he] at hstep; exact hstep
  obtain ⟨hopr, hdst, hct, hidx, hdrv, harg, hbuf, hcnt⟩ := hops
  refine ⟨hidx, hdrv, harg, hbuf, hcnt, hct, hdst, hopr, fun hr hw => ?_⟩
  rw [← takeAction_seq] at hr hw
  exact (perform_data hb' ha hs hr hw).trans (takeAction_data s)

/-! ### The bus events -/

/-- The record of `t` is that of `s` with at most one event after it: the events before the last reset, then those since
(R45, 70_reset_and_hazards.md R262). -/
abbrev State.addsAtMostOneEvent (s t : State) : Prop :=
  ∃ new : List BusEvent, t.past ++ t.bus = (s.past ++ s.bus) ++ new ∧ new.length ≤ 1

theorem addsAtMostOneEvent_none {s t : State} (h : t.past ++ t.bus = s.past ++ s.bus) : s.addsAtMostOneEvent t :=
  ⟨[], by rw [h, List.append_nil], Nat.zero_le 1⟩

theorem addsAtMostOneEvent_one {s t : State} {e : BusEvent} (hpast : t.past = s.past) (hbus : t.bus = s.bus ++ [e]) :
    s.addsAtMostOneEvent t :=
  ⟨[e], by rw [hpast, hbus, List.append_assoc], le_rfl⟩

theorem Primitive.addsAtMostOneEvent {s u : State} (hu : Primitive s u) : s.addsAtMostOneEvent u := by
  cases hu with
  | exchange m => exact addsAtMostOneEvent_one rfl (State.exchange_bus m s)
  | chipSelect v => exact addsAtMostOneEvent_one rfl (State.setCs_bus v s)
  | observe | load | store | r1 | data | blkdone => exact addsAtMostOneEvent_none rfl

theorem engine_addsAtMostOneEvent {s t : State} (he : engine s = .next t) : s.addsAtMostOneEvent t := by
  obtain ⟨rfl, -⟩ | ⟨-, ⟨u, b, hu, rfl⟩ | ⟨res, rfl⟩⟩ := engine_cases he
  · exact addsAtMostOneEvent_none rfl
  · exact hu.addsAtMostOneEvent
  · exact addsAtMostOneEvent_none rfl

theorem writeReg_past (v : Word) (r : Reg) (s : State) : (s.writeReg v r).past = s.past := by
  cases r <;> rfl

theorem perform_addsAtMostOneEvent {a : Action} {s t : State} (hp : perform a s = .next t) :
    s.addsAtMostOneEvent t := by
  obtain ⟨-, he⟩ | ⟨-, rfl⟩ | ⟨-, c, b, -, rfl⟩ | ⟨-, r, v, -, rfl⟩ | ⟨v, rfl⟩ | ⟨b, v, -, rfl⟩ | ⟨-, rfl⟩ | ⟨-, rfl⟩ :=
    perform_cases hp
  · exact engine_addsAtMostOneEvent he
  · exact addsAtMostOneEvent_none rfl -- a tick
  · exact addsAtMostOneEvent_none rfl -- a store to OPR
  · exact addsAtMostOneEvent_none (by rw [writeReg_past, writeReg_bus])
  · exact addsAtMostOneEvent_none rfl -- a host load
  · exact addsAtMostOneEvent_none rfl -- a host store to memory
  · exact addsAtMostOneEvent_none rfl -- a poll
  · exact addsAtMostOneEvent_none (List.append_nil _) -- a reset

/-- Settles O45: an exchange and a chip-select primitive append one event, and a reset moves those since the last one to
the record before it. -/
theorem eventsAreNeverLost : Obligations.EventsAreNeverLost := by
  intro s t hs
  obtain ⟨e, n, he⟩ := takeAction_eq s
  obtain ⟨new, hnew, hlen⟩ := perform_addsAtMostOneEvent hs
  exact ⟨new, by rw [hnew, he], hlen⟩

end Sys2Proof.Machine
end

/-! ## The registers and the sequencer (10_state.md R21 to R42, 43_timer.md R210) -/

section
namespace Sys2Proof.Machine

/-! ### The reserved bits, RESULT and the counters -/

theorem setBit0_high (r : Byte) (v : Bool) : setBit0 r v &&& 0xFE = r &&& 0xFE := by
  revert r v; decide

/-- Writing CTRL.CSA keeps the reserved bits of CTRL. -/
theorem setBit0_reserved (r : Byte) (v : Bool) : setBit0 r v &&& 0xFC = r &&& 0xFC := by
  revert r v; decide

/-- A store that keeps only the bits of `m` leaves every other bit 0. -/
theorem and_mask_reserved (x : Byte) {m k : Byte} (h : m &&& k = 0) : (x &&& m) &&& k = 0 := by
  rw [BitVec.and_assoc, h]; exact BitVec.and_zero

/-- What a host store to CTRL leaves has no reserved bit set (R24). -/
theorem ctrlStore_reserved (r v : Byte) : ((r &&& 0x01) ||| (v &&& 0x02)) &&& 0xFC = 0 := by
  have h1 : (r &&& 0x01) &&& 0xFC = 0 := and_mask_reserved r (by decide)
  have h2 : (v &&& 0x02) &&& 0xFC = 0 := and_mask_reserved v (by decide)
  rw [BitVec.and_or_distrib_right, h1, h2, BitVec.or_self]

theorem Result.code_le (res : Result) : res.code ≤ 4 := by
  cases res <;> decide

theorem countDown_lt {c : Byte} {n : Nat} (h : c.toNat < n) : (countDown c).toNat < n := by
  rw [countDown_toNat]; omega

theorem Primitive.registersOk {s u : State} (hu : Primitive s u) (h : s.registersOk) : u.registersOk := by
  obtain ⟨hctrl, hstat, hdst, hct, hidx, hres, hts, htl⟩ := h
  cases hu with
  | chipSelect v => exact ⟨(setBit0_reserved ..).trans hctrl, hstat, hdst, hct, hidx, hres, hts, htl⟩
  | load => exact ⟨hctrl, hstat, hdst, hct, hidx, hres, counterValue_lt .., htl⟩
  | observe | exchange | store | r1 | data | blkdone => exact ⟨hctrl, hstat, hdst, hct, hidx, hres, hts, htl⟩

theorem finish_registersOk (res : Result) {s : State} (h : s.registersOk) : (s.finish res).registersOk := by
  obtain ⟨hctrl, hstat, hdst, hct, hidx, -, hts, htl⟩ := h
  exact ⟨hctrl, (setBit0_high ..).trans hstat, hdst, hct, hidx, res.code_le, hts, htl⟩

theorem launch_registersOk (c : Byte) (a : Activity) {s : State} (h : s.registersOk) : (s.launch c a).registersOk := by
  obtain ⟨hctrl, hstat, hrest⟩ := h
  exact ⟨hctrl, (setBit0_high ..).trans hstat, hrest⟩

theorem tick_registersOk {s : State} (h : s.registersOk) : s.tick.registersOk := by
  obtain ⟨hctrl, hstat, hdst, hct, hidx, hres, hts, htl⟩ := h
  exact ⟨hctrl, hstat, hdst, hct, hidx, hres, countDown_lt hts, countDown_lt htl⟩

/-- A host store drops the reserved bits of the register it reaches (R40). -/
theorem writeReg_registersOk (v : Word) (r : Reg) {s : State} (h : s.registersOk) : (s.writeReg v r).registersOk := by
  obtain ⟨hctrl, hstat, hdst, hct, hidx, hres, hts, htl⟩ := h
  cases r with
  | ctrl => exact ⟨ctrlStore_reserved .., hstat, hdst, hct, hidx, hres, hts, htl⟩
  | dstatus => exact ⟨hctrl, hstat, and_mask_reserved _ (by decide), hct, hidx, hres, hts, htl⟩
  | ctype => exact ⟨hctrl, hstat, hdst, and_mask_reserved _ (by decide), hidx, hres, hts, htl⟩
  | cmdidx => exact ⟨hctrl, hstat, hdst, hct, and_mask_reserved _ (by decide), hres, hts, htl⟩
  | tshort => exact ⟨hctrl, hstat, hdst, hct, hidx, hres, counterValue_lt .., htl⟩
  | tlong => exact ⟨hctrl, hstat, hdst, hct, hidx, hres, hts, counterValue_lt ..⟩
  | opr | stat | result | data | r1 | drv | arg | buf | cnt | blkdone =>
    exact ⟨hctrl, hstat, hdst, hct, hidx, hres, hts, htl⟩

theorem applyReset_registersOk (s : State) : s.applyReset.registersOk :=
  ⟨BitVec.zero_and, BitVec.zero_and, (by decide : (0x01 : Byte) &&& 0xF8 = 0), BitVec.zero_and, BitVec.zero_and,
    (by decide : (0x00 : Byte) ≤ 4), Nat.two_pow_pos _, Nat.two_pow_pos _⟩

theorem takeAction_registersOk {s : State} (h : s.registersOk) : s.takeAction.registersOk := by
  obtain ⟨e, n, he⟩ := takeAction_eq s
  rw [he]; exact h

theorem engine_registersOk {s t : State} (h : s.registersOk) (he : engine s = .next t) : t.registersOk := by
  obtain ⟨rfl, -⟩ | ⟨-, ⟨u, b, hu, rfl⟩ | ⟨res, rfl⟩⟩ := engine_cases he
  · exact h
  · exact hu.registersOk h
  · exact finish_registersOk res h

theorem perform_registersOk {a : Action} {s t : State} (h : s.registersOk) (hp : perform a s = .next t) :
    t.registersOk := by
  obtain ⟨-, he⟩ | ⟨-, rfl⟩ | ⟨-, c, b, -, rfl⟩ | ⟨-, r, v, -, rfl⟩ | ⟨v, rfl⟩ | ⟨b, v, -, rfl⟩ | ⟨-, rfl⟩ | ⟨-, rfl⟩ :=
    perform_cases hp
  · exact engine_registersOk h he
  · exact tick_registersOk h
  · exact launch_registersOk c b h
  · exact writeReg_registersOk v r h
  · exact h -- a host load
  · exact h -- a host store to memory
  · exact h -- a poll
  · exact applyReset_registersOk s

/-- Settles O56, by the list of everything one step can do: the engine writes BUSY, CSA, a result code or SHORT_BUDGET, a
host store drops reserved bits, a tick only counts down. -/
theorem reservedBitsStayZero : Obligations.ReservedBitsStayZero :=
  fun _ _ h hs => perform_registersOk (takeAction_registersOk h) hs

/-! ### BUSY and the sequencer -/

/-- The operation of an activity is read from OPR at most. -/
theorem instr_congr (a : Activity) {s t : State} (hopr : t.opr = s.opr) : a.instr t = a.instr s := by
  cases a with
  | reserved => exact congrArg Instr.reserved hopr
  | _ => rfl

/-- The invariant reads nothing but OPR, STAT and the sequencer. -/
theorem coherent_congr {s t : State} (hopr : t.opr = s.opr) (hstat : t.stat = s.stat) (hseq : t.seq = s.seq)
    (h : s.coherent) : t.coherent := by
  simpa only [State.coherent, State.busy, hopr, hstat, hseq, instr_congr _ hopr] using h

/-- A state whose sequencer runs `a`. -/
theorem coherent_running {s : State} {a : Activity} (hb : s.busy = true) (hs : s.seq = .running a) :
    s.coherent ↔ decodeOpr s.opr = a.instr s := by
  simp [State.coherent, hb, hs]

theorem coherent_idle {s : State} (hb : s.busy = false) (hs : s.seq = .idle) : s.coherent := by
  simp [State.coherent, hb, hs]

theorem Primitive.busy {s u : State} (hu : Primitive s u) : u.busy = s.busy := by
  cases hu <;> rfl

theorem engine_coherent {s t : State} (h : s.coherent) (he : engine s = .next t) : t.coherent := by
  obtain ⟨rfl, -⟩ | ⟨hb, ⟨u, b, hu, rfl⟩ | ⟨res, rfl⟩⟩ := engine_cases he
  · exact h
  · obtain ⟨a, ha⟩ : ∃ a, s.seq = .running a := by
      cases hs : s.seq with
      | idle => exact absurd hs (h.1.mp hb)
      | running a => exact ⟨a, rfl⟩
    rw [engine_running hb ha] at he
    obtain ⟨hopr, -⟩ : s.sameOperands (u.goto b) := hu.sameOperands
    rw [coherent_running (s := u.goto b) (hu.busy.trans hb) rfl, advance_instr he rfl, instr_congr a hopr, hopr]
    exact (coherent_running hb ha).mp h
  · exact coherent_idle (State.finish_busy res s) (State.finish_seq res s)

theorem launch_coherent {c : Byte} {a : Activity} {s : State} (ha : firstPosition (decodeOpr c) s = some a) :
    (s.launch c a).coherent :=
  (coherent_running (State.launch_busy c a s) (State.launch_seq c a s)).mpr (firstPosition_instr ha rfl).symm

theorem writeReg_coherent (v : Word) (r : Reg) {s : State} (h : s.coherent) : (s.writeReg v r).coherent := by
  cases r <;> exact coherent_congr (s := s) rfl rfl rfl h

theorem perform_coherent {a : Action} {s t : State} (h : s.coherent) (hp : perform a s = .next t) : t.coherent := by
  obtain ⟨-, he⟩ | ⟨-, rfl⟩ | ⟨-, c, b, hfirst, rfl⟩ | ⟨-, r, v, -, rfl⟩ | ⟨v, rfl⟩ | ⟨b, v, -, rfl⟩ | ⟨-, rfl⟩ | ⟨-, rfl⟩ :=
    perform_cases hp
  · exact engine_coherent h he
  · exact coherent_congr (s := s) rfl rfl rfl h
  · exact launch_coherent hfirst
  · exact writeReg_coherent v r h
  · exact coherent_congr (s := s) rfl rfl rfl h -- a host load
  · exact coherent_congr (s := s) rfl rfl rfl h -- a host store to memory
  · exact coherent_congr (s := s) rfl rfl rfl h -- a poll
  · exact coherent_idle BitVec.getLsbD_zero rfl

/-- Settles O57: an OPR store starts what its code decodes to, an engine step stays in its operation or finishes it, and
nothing else touches OPR, BUSY or the sequencer but reset. -/
theorem busyMatchesTheSequencer : Obligations.BusyMatchesTheSequencer := by
  intro s t h hs
  obtain ⟨e, n, he⟩ := takeAction_eq s
  refine perform_coherent (coherent_congr (s := s) ?_ ?_ ?_ h) hs <;> rw [he]

end Sys2Proof.Machine
end

/-! ## Host accesses to the registers, and the start of an operation (10_state.md R21 to R23, R38 to R41)

One equation for each kind of pending access; the register map (R22) enters only through the register's own offset and
width. -/

section
namespace Sys2Proof.Machine

/-! ### The register map -/

theorem regAt_own (r : Reg) : regAt r.width r.offset = some r := by
  cases r <;> rfl

theorem regAt_eq_none {w : Width} {off : BitVec 5} (h : ∀ r : Reg, ¬(r.offset = off ∧ r.width = w)) :
    regAt w off = none :=
  List.find?_eq_none.mpr fun r _ => by simpa using h r

/-! ### One equation for each kind of access -/

theorem hostLoad_own (r : Reg) (s : State) : hostLoad r.width r.offset s = .next { s with rdata := s.readReg r } := by
  rw [hostLoad, regAt_own]

theorem hostLoad_misplaced {w : Width} {off : BitVec 5} (h : regAt w off = none) (s : State) :
    hostLoad w off s = .fault .registerAccess := by
  rw [hostLoad, h]

/-- While BUSY = 1 a store faults wherever it is made (R40). -/
theorem hostStore_busy (w : Width) (off : BitVec 5) (v : Word) {s : State} (hb : s.busy = true) :
    hostStore w off v s = .fault .writeWhileBusy :=
  if_pos hb

theorem hostStore_misplaced {w : Width} {off : BitVec 5} (h : regAt w off = none) (v : Word) {s : State}
    (hb : s.busy = false) : hostStore w off v s = .fault .registerAccess := by
  simp only [hostStore, hb, h, Bool.false_eq_true, if_false]

/-- A store to OPR is the meaning of the byte stored (R23). -/
theorem hostStore_opr (v : Word) {s : State} (hb : s.busy = false) :
    hostStore .b1 0x00 v s = exec (decodeOpr (v.truncate 8)) s := by
  rw [hostStore, hb]; rfl

/-- A store to any other register leaves what `writeReg` says (R40). -/
theorem hostStore_own {r : Reg} (hr : r ≠ .opr) (v : Word) {s : State} (hb : s.busy = false) :
    hostStore r.width r.offset v s = .next (s.writeReg v r) := by
  rw [hostStore, hb, regAt_own]
  cases r with
  | opr => exact absurd rfl hr
  | _ => rfl

/-! ### The same for an access that is pending -/

theorem step_load (r : Reg) {s : State} {rest : List Action} (he : s.env = .load r.width r.offset :: rest) :
    step s = .next { s with env := rest, rdata := s.readReg r } := by
  refine (step_env he).trans ((hostLoad_own r _).trans ?_)
  cases r <;> rfl

theorem step_store_busy {s : State} {w : Width} {off : BitVec 5} {v : Word} {rest : List Action} (hb : s.busy = true)
    (he : s.env = .store w off v :: rest) : step s = .fault .writeWhileBusy :=
  (step_env he).trans (hostStore_busy w off v (s := { s with env := rest }) hb)

theorem step_store {r : Reg} (hr : r ≠ .opr) {s : State} {v : Word} {rest : List Action} (hb : s.busy = false)
    (he : s.env = .store r.width r.offset v :: rest) : step s = .next ({ s with env := rest }.writeReg v r) :=
  (step_env he).trans (hostStore_own hr v (s := { s with env := rest }) hb)

theorem step_store_opr {s : State} {v : Word} {rest : List Action} (hb : s.busy = false)
    (he : s.env = .store .b1 0x00 v :: rest) : step s = exec (decodeOpr (v.truncate 8)) { s with env := rest } :=
  (step_env he).trans (hostStore_opr v (s := { s with env := rest }) hb)

/-! ### The start of an operation -/

/-- Where an operation begins depends on CMDIDX alone. -/
theorem firstPosition_congr (i : Instr) {s t : State} (h : t.cmdidx = s.cmdidx) :
    firstPosition i t = firstPosition i s := by
  cases i with
  | sendcmd => simp only [firstPosition, State.commandIndex, h]
  | _ => rfl

/-- At its first position, under its code in OPR, an operation is the one its row names. -/
theorem firstPosition_instr_of_encode {i : Instr} {s t : State} {p : Params} {a : Activity}
    (ha : firstPosition i s = some a) (hc : encode p i = [t.opr]) : a.instr t = i := by
  cases i with
  | reserved c =>
    cases ha
    exact congrArg Instr.reserved (List.head_eq_of_cons_eq hc).symm
  | _ => cases ha <;> rfl

/-- With BUSY = 0 a store to OPR launches the operation its byte decodes to, at its first position (R23). -/
theorem step_store_opr_launch {s : State} {v : Word} {rest : List Action} (hb : s.busy = false)
    (he : s.env = .store .b1 0x00 v :: rest) :
    ∃ a, firstPosition (decodeOpr (v.truncate 8)) s = some a ∧
      step s = .next ({ s with env := rest }.launch (v.truncate 8) a) := by
  obtain ⟨a, ha, hx⟩ := exec_decodeOpr_idle (v.truncate 8) (s := { s with env := rest }) hb
  exact ⟨a, (firstPosition_congr _ rfl).symm.trans ha, (step_store_opr hb he).trans hx⟩

/-- A byte stored to OPR is the byte OPR takes. -/
theorem truncate_zeroExtend_byte (c : Byte) : (c.zeroExtend 32).truncate 8 = c := by
  revert c; decide

/-! ### The statements -/

/-- Settles O6: no entry of the register map has that offset and width. -/
theorem misplacedAccessFaults : Obligations.MisplacedAccessFaults := by
  intro s w off v rest h
  refine ⟨fun he => (step_env he).trans (hostLoad_misplaced (regAt_eq_none h) _), fun he => ?_⟩
  cases hb : s.busy with
  | true => exact step_store_busy hb he
  | false => exact (step_env he).trans (hostStore_misplaced (regAt_eq_none h) v (s := { s with env := rest }) hb)

/-- Settles O8: the OPR store launches; the engine leaves OPR. -/
theorem oprStoreStartsTheOperation : Obligations.OprStoreStartsTheOperation := by
  refine ⟨fun s c rest he => ⟨fun hb => step_store_busy hb he, fun hb => ?_⟩, fun s t he => ?_⟩
  · obtain ⟨a, ha, hx⟩ := step_store_opr_launch hb he
    rw [truncate_zeroExtend_byte] at ha hx
    exact ⟨_, a, hx, ha, rfl, State.launch_busy .., setBit0_high .., firstPosition_instr ha rfl, rfl⟩
  · obtain ⟨hopr, -⟩ := engine_sameOperands he
    exact hopr

/-- Settles O9: with BUSY = 0 the meaning of an operation row is its launch. -/
theorem operationsStart : Obligations.OperationsStart := by
  intro i s hi hb
  obtain ⟨c, a, hc, ha, hx⟩ := exec_operation_idle hi hb
  exact ⟨_, a, hx, hc, ha, rfl, State.launch_busy .., setBit0_high .., firstPosition_instr_of_encode ha hc⟩

/-- Settles O5, register by register of R22. -/
theorem hostLoadReturnsTheRegister : Obligations.HostLoadReturnsTheRegister := fun _ _ =>
  ⟨step_load .opr, step_load .ctrl, step_load .stat, step_load .result, step_load .dstatus, step_load .ctype,
    step_load .data, step_load .r1, step_load .cmdidx, step_load .drv, step_load .tshort, step_load .tlong,
    step_load .arg, step_load .buf, step_load .cnt, step_load .blkdone, fun r => step_load r⟩

/-- Settles O7, register by register of R22. -/
theorem hostStoreEffect : Obligations.HostStoreEffect := by
  refine fun s v rest => ⟨fun hb w off => step_store_busy hb, fun hb => ⟨fun he => ?_, step_store (r := .ctrl) nofun hb,
    ?_, step_store (r := .dstatus) nofun hb, step_store (r := .ctype) nofun hb, step_store (r := .data) nofun hb,
    step_store (r := .cmdidx) nofun hb, step_store (r := .drv) nofun hb, step_store (r := .tshort) nofun hb,
    step_store (r := .tlong) nofun hb, step_store (r := .arg) nofun hb, step_store (r := .buf) nofun hb,
    step_store (r := .cnt) nofun hb, step_store (r := .blkdone) nofun hb⟩⟩
  · obtain ⟨a, -, hx⟩ := step_store_opr_launch hb he
    exact ⟨_, hx, rfl, State.launch_busy .., rfl⟩
  · rintro off (rfl | rfl | rfl)
    · exact step_store (r := .stat) nofun hb
    · exact step_store (r := .result) nofun hb
    · exact step_store (r := .r1) nofun hb

/-- Settles O10: a store to OPR means what its byte decodes to, and whichever row the fetch names makes the running
operation's engine step. -/
theorem stepRunsTheDecodedInstruction : Obligations.StepRunsTheDecodedInstruction := by
  refine ⟨fun s c rest hb he => ?_, fun s a rest hb hs he => ?_⟩
  · rw [step_store_opr hb he, truncate_zeroExtend_byte]
  · exact (step_engine he hb hs).trans (exec_fetch (s := { s with env := rest }) hb hs).symm

end Sys2Proof.Machine
end

/-! ## What the machine never answers, and what the engine never reads (log entry 5; 10_state.md R28, 43_timer.md R213) -/

section
namespace Sys2Proof.Machine

/-! ### Outcomes in place -/

/-- Neither the model's own fault `outOfPlace` nor a refusal. -/
def inPlace : Outcome → Prop
  | .next _ => True
  | .fault f => f ≠ .outOfPlace
  | .refused _ => False

theorem inPlace_iff (o : Outcome) : inPlace o ↔ o ≠ .fault .outOfPlace ∧ ∀ r, o ≠ .refused r := by
  cases o <;> simp [inPlace]

/-- A step of a block received stops at an address that is not admitted, if at all. -/
theorem receiveStep_error_inPlace {base : Nat} {p : RcvPos} {s : State} {f : Fault}
    (h : receiveStep base p s = .error f) : inPlace (.fault f) := by
  obtain ⟨rfl, -⟩ := receiveStep_error h
  exact nofun

theorem transmitStep_error_inPlace {base : Nat} {token : Byte} {p : XmtPos} {s : State} {f : Fault}
    (h : transmitStep base token p s = .error f) : inPlace (.fault f) := by
  obtain ⟨rfl, -⟩ := transmitStep_error h
  exact nofun

/-- The running operation's own step: only a payload byte can stop it. -/
theorem advance_inPlace (a : Activity) (s : State) : inPlace (advance a s) := by
  cases a with
  | rcvrblk p =>
    cases p with
    | block q =>
      simp only [advance, State.rcvrblkTurn]
      split
      · exact receiveStep_error_inPlace ‹_›
      · trivial
      · trivial
    | record ok | finish res => trivial
  | xmitblk p =>
    cases p with
    | block q =>
      simp only [advance, State.xmitblkTurn]
      split
      · exact transmitStep_error_inPlace ‹_›
      · trivial
      · trivial
    | record ok | finish res => trivial
  | read p =>
    cases p with
    | start => simp only [advance, State.readTurn]; split <;> trivial
    | block k q =>
      simp only [advance, State.readTurn]
      split
      · exact receiveStep_error_inPlace ‹_›
      · trivial
      · trivial
    | command q | stop k q | release k | trailer k n | record k | finish res => trivial
  | write p =>
    cases p with
    | start => simp only [advance, State.writeTurn]; split <;> trivial
    | block k q =>
      simp only [advance, State.writeTurn]
      split
      · exact transmitStep_error_inPlace ‹_›
      · trivial
      · trivial
    | stopWait k w => simp only [advance, State.writeTurn]; split <;> trivial
    | appPrefix q | count q | command q | stopToken k ready | release k ok | trailer k ok n | record k ok | finish res =>
      trivial
  | nop | select p | deselect p | xmit p | rcvr p | clktrain p | waitready p | sendcmd p | sendacmd p | reserved => trivial

/-- The fetch names a row the sequencer stands at, so the engine makes the operation's own step. -/
theorem engine_inPlace (s : State) : inPlace (engine s) := by
  by_cases hb : s.busy = true
  · cases hs : s.seq with
    | idle => rw [engine_idle (.inr hs)]; trivial
    | running a => rw [engine_running hb hs]; exact advance_inPlace a s
  · rw [engine_idle (.inl (Bool.eq_false_of_not_eq_true hb))]; trivial

theorem hostStore_inPlace (w : Width) (off : BitVec 5) (v : Word) (s : State) : inPlace (hostStore w off v s) := by
  unfold hostStore
  split
  · exact nofun
  · next hb =>
    split
    · exact nofun
    · obtain ⟨a, -, hx⟩ := exec_decodeOpr_idle (v.truncate 8) (Bool.eq_false_of_not_eq_true hb)
      rw [hx]; trivial
    · trivial

theorem hostLoad_inPlace (w : Width) (off : BitVec 5) (s : State) : inPlace (hostLoad w off s) := by
  unfold hostLoad
  split
  · exact nofun
  · trivial

theorem perform_inPlace (a : Action) (s : State) : inPlace (perform a s) := by
  cases a with
  | engine => exact engine_inPlace s
  | store w off v => exact hostStore_inPlace w off v s
  | load w off => exact hostLoad_inPlace w off s
  | memStore b v =>
    simp only [perform, hostMemStore]
    split_ifs
    · exact hostStore_inPlace ..
    · exact nofun
    · exact nofun
    · trivial
  | memLoad b =>
    simp only [perform, hostMemLoad]
    split_ifs
    · exact hostLoad_inPlace ..
    · exact nofun
    · exact nofun
    · trivial
  | tick | poll | reset => trivial

/-- Settles O46: `outOfPlace` needs a row the sequencer does not stand at, and the engine fetches none. -/
theorem noStepIsOutOfPlace : Obligations.NoStepIsOutOfPlace :=
  fun s => (inPlace_iff _).mp (perform_inPlace s.nextAction s.takeAction)

/-! ### NODISK and T_LONG -/

/-- The state with NODISK flipped and T_LONG set to `v`. -/
def State.disturb (v : Byte) (s : State) : State := { s with tlong := v, dstatus := s.dstatus ^^^ 0x02 }

@[simp] theorem disturb_data (v : Byte) (s : State) : (s.disturb v).data = s.data := rfl
@[simp] theorem disturb_blockBase (v : Byte) (k : Nat) (s : State) : (s.disturb v).blockBase k = s.blockBase k := rfl
@[simp] theorem disturb_writeToken (v : Byte) (s : State) : (s.disturb v).writeToken = s.writeToken := rfl

@[simp] theorem disturb_noInit (v : Byte) (s : State) : (s.disturb v).noInit = s.noInit := by
  simp [State.noInit, State.disturb]

@[simp] theorem disturb_protect (v : Byte) (s : State) : (s.disturb v).protect = s.protect := by
  simp [State.protect, State.disturb]

theorem memRead_disturb (v : Byte) (a : Nat) (s : State) : (s.disturb v).memRead a = s.memRead a := rfl

theorem memWrite_disturb (v : Byte) (a : Nat) (b : Byte) (s : State) :
    (s.disturb v).memWrite a b = (s.memWrite a b).map (State.disturb v) := by
  rw [State.memWrite, State.memWrite, apply_ite (Except.map (State.disturb v))]; rfl

theorem readRejection_disturb (v : Byte) (s : State) : (s.disturb v).readRejection = s.readRejection := by
  rw [State.readRejection, disturb_noInit]; rfl

theorem writeRejection_disturb (v : Byte) (s : State) : (s.disturb v).writeRejection = s.writeRejection := by
  rw [State.writeRejection, disturb_noInit, disturb_protect]; rfl

theorem waitStep_disturb (v : Byte) (p : WaitPos) (s : State) :
    waitStep p (s.disturb v) = ((waitStep p s).1, (waitStep p s).2.disturb v) := by
  cases p <;> rfl

theorem commandStep_disturb (v : Byte) (idx : BitVec 6) (arg : Word) (p : CmdPos) (s : State) :
    commandStep idx arg p (s.disturb v) = ((commandStep idx arg p s).1, (commandStep idx arg p s).2.disturb v) := by
  cases p with
  | wait w =>
    simp only [commandStep, waitStep_disturb]
    rcases waitStep w s with ⟨_ | _, u⟩ <;> rfl
  | frame n | poll n | stopPoll n last | record r => rfl

theorem commandTurn_disturb (v : Byte) (a : Activity) (idx : BitVec 6) (arg : Word) (p : CmdPos) (s : State) :
    (s.disturb v).commandTurn a idx arg p = (s.commandTurn a idx arg p).disturb v := by
  simp only [State.commandTurn, commandStep_disturb]
  rcases commandStep idx arg p s with ⟨_ | _, u⟩ <;> rfl

theorem receiveStep_disturb (v : Byte) (base : Nat) (p : RcvPos) (s : State) :
    receiveStep base p (s.disturb v) = (receiveStep base p s).map fun x => (x.1, x.2.disturb v) := by
  cases p with
  | store i b =>
    simp only [receiveStep, memWrite_disturb]
    cases s.memWrite (base + i) b <;> rfl
  | load | token | sample | payload i | crc1 | crc2 => rfl

theorem transmitStep_disturb (v : Byte) (base : Nat) (token : Byte) (p : XmtPos) (s : State) :
    transmitStep base token p (s.disturb v) = (transmitStep base token p s).map fun x => (x.1, x.2.disturb v) := by
  cases p with
  | wait w =>
    simp only [transmitStep, waitStep_disturb]
    rcases waitStep w s with ⟨_ | _, u⟩ <;> rfl
  | fetch i =>
    simp only [transmitStep, memRead_disturb]
    cases s.memRead (base + i) <;> rfl
  | token | send i b | crc1 | crc2 | response => rfl

/-- The running operation's step reads neither: validation reads other bits of DSTATUS, the waits sample T_SHORT. -/
theorem advance_disturb (v : Byte) (a : Activity) (s : State) :
    advance a (s.disturb v) = mapNext (State.disturb v) (advance a s) := by
  cases a with
  | nop | reserved => rfl
  | select p => cases p <;> rfl
  | deselect p => cases p <;> rfl
  | xmit p => cases p <;> rfl
  | rcvr p => cases p <;> rfl
  | clktrain p => cases p <;> rfl
  | waitready p =>
    cases p with
    | wait w =>
      simp only [advance, State.waitreadyTurn, waitStep_disturb]
      rcases waitStep w s with ⟨_ | _, u⟩ <;> rfl
    | record b | finish res => rfl
  | sendcmd p =>
    cases p with
    | command q => exact congrArg Host.Outcome.next (commandTurn_disturb ..)
    | finish res => rfl
  | sendacmd p =>
    cases p with
    | appPrefix q | command q => exact congrArg Host.Outcome.next (commandTurn_disturb ..)
    | finish res => rfl
  | rcvrblk p =>
    cases p with
    | block q =>
      simp only [advance, State.rcvrblkTurn, disturb_blockBase, receiveStep_disturb]
      rcases receiveStep (s.blockBase 0) q s with f | ⟨_ | _, u⟩ <;> rfl
    | record ok | finish res => rfl
  | xmitblk p =>
    cases p with
    | block q =>
      simp only [advance, State.xmitblkTurn, disturb_blockBase, disturb_data, transmitStep_disturb]
      rcases transmitStep (s.blockBase 0) s.data q s with f | ⟨_ | _, u⟩ <;> rfl
    | record ok | finish res => rfl
  | read p =>
    cases p with
    | start =>
      simp only [advance, State.readTurn, readRejection_disturb]
      cases s.readRejection <;> rfl
    | command q | stop k q => exact congrArg Host.Outcome.next (commandTurn_disturb ..)
    | block k q =>
      simp only [advance, State.readTurn, disturb_blockBase, receiveStep_disturb]
      rcases receiveStep (s.blockBase k) q s with f | ⟨_ | _, u⟩ <;> rfl
    | release k | trailer k n | record k | finish res => rfl
  | write p =>
    cases p with
    | start =>
      simp only [advance, State.writeTurn, writeRejection_disturb]
      cases s.writeRejection <;> rfl
    | appPrefix q | count q | command q => exact congrArg Host.Outcome.next (commandTurn_disturb ..)
    | block k q =>
      simp only [advance, State.writeTurn, disturb_blockBase, disturb_writeToken, transmitStep_disturb]
      rcases transmitStep (s.blockBase k) s.writeToken q s with f | ⟨_ | _, u⟩ <;> rfl
    | stopWait k w =>
      simp only [advance, State.writeTurn, waitStep_disturb]
      rcases waitStep w s with ⟨_ | _, u⟩ <;> rfl
    | stopToken k ready | release k ok | trailer k ok n | record k ok | finish res => rfl

/-- Settles O48: the two values ride along unread through the running operation's step. -/
theorem engineIgnoresNodiskAndTlong : Obligations.EngineIgnoresNodiskAndTlong := by
  intro s v
  show engine (s.disturb v) = mapNext (State.disturb v) (engine s)
  by_cases hb : s.busy = true
  · cases hs : s.seq with
    | idle => rw [engine_idle (.inr hs), engine_idle (s := s.disturb v) (.inr hs)]; rfl
    | running a => rw [engine_running hb hs, engine_running (s := s.disturb v) hb hs, advance_disturb]
  · have hidle : s.busy = false := Bool.eq_false_of_not_eq_true hb
    rw [engine_idle (.inl hidle), engine_idle (s := s.disturb v) (.inl hidle)]; rfl

end Sys2Proof.Machine
end

/-! ## Host memory (20_memory.md R60, R64, R66, R67, R70)

Memory changes in two places only: at a payload byte that the engine stores, and at a byte that the host stores. The
first is made at an address that is admitted, the second at an address of host memory outside the running buffer. -/

section
namespace Sys2Proof.Machine

/-! ### The form of the list -/

/-- The form depends on the listed bytes and on the width of the address space. -/
theorem memoryOk_congr {s t : State} (hmem : t.mem = s.mem) (hparams : t.params = s.params) (h : s.memoryOk) :
    t.memoryOk := by
  rw [State.memoryOk, State.hostSpace, hmem, hparams]; exact h

theorem Primitive.memoryOk {s u : State} (hu : Primitive s u) (h : s.memoryOk) : u.memoryOk := by
  cases hu with
  | store a v ha => exact State.memoryOk_write h (State.admits_lt ha) v
  | observe | exchange | chipSelect | load | r1 | data | blkdone => exact h

theorem engine_memoryOk {s t : State} (h : s.memoryOk) (he : engine s = .next t) : t.memoryOk := by
  obtain ⟨rfl, -⟩ | ⟨-, ⟨u, b, hu, rfl⟩ | ⟨res, rfl⟩⟩ := engine_cases he
  · exact h
  · exact memoryOk_congr (State.goto_mem b u) (State.goto_params b u) (hu.memoryOk h)
  · exact memoryOk_congr (State.finish_mem res s) (State.finish_params res s) h

theorem writeReg_mem (v : Word) (r : Reg) (s : State) : (s.writeReg v r).mem = s.mem := by
  cases r <;> rfl

theorem perform_memoryOk {a : Action} {s t : State} (h : s.memoryOk) (hp : perform a s = .next t) : t.memoryOk := by
  obtain ⟨-, he⟩ | ⟨-, rfl⟩ | ⟨-, c, b, -, rfl⟩ | ⟨-, r, v, -, rfl⟩ | ⟨v, rfl⟩ | ⟨b, v, hb, rfl⟩ | ⟨-, rfl⟩ | ⟨-, rfl⟩ :=
    perform_cases hp
  · exact engine_memoryOk h he
  · exact memoryOk_congr (State.tick_mem s) (State.tick_params s) h
  · exact memoryOk_congr (State.launch_mem c b s) (State.launch_params c b s) h
  · exact memoryOk_congr (writeReg_mem v r s) (writeReg_params v r s) h
  · exact h -- a host load
  · exact State.memoryOk_write h hb v
  · exact h -- a poll
  · exact h -- a reset

/-- Settles O60: of everything one step can do, only two writes touch memory, the engine's at an admitted address and
the host's below 2^HOST_ADDR_WIDTH, and a write keeps the list sorted and free of the blank byte. -/
theorem memoryKeepsItsForm : Obligations.MemoryKeepsItsForm := by
  intro s t h hs
  obtain ⟨e, n, he⟩ := takeAction_eq s
  have htaken : s.takeAction.memoryOk := by rw [he]; exact h
  exact perform_memoryOk htaken hs

/-! ### The engine's payload accesses -/

/-- The last byte of the register block is SDSPI_BASE + 0x1F (R67). -/
theorem inRegisterBlock_iff (s : State) (a : Nat) :
    s.inRegisterBlock a = true ↔ s.params.sdspiBase ≤ a ∧ a ≤ s.params.sdspiBase + 0x1F := by
  rw [State.inRegisterBlock, decide_eq_true_iff, Config.blockSize]
  omega

theorem hostMemOK_iff (s : State) (a : Nat) :
    s.hostMemOK a = true ↔ ∃ r ∈ s.params.hostMemory, r.lo ≤ a ∧ a ≤ r.hi := by
  simp only [State.hostMemOK, List.any_eq_true, decide_eq_true_iff]

/-- The three clauses of R64 and R67. -/
theorem admits_iff (s : State) (a : Nat) : s.admits a = true ↔
    a < 2 ^ s.params.hostAddrWidth ∧ (∃ r ∈ s.params.hostMemory, r.lo ≤ a ∧ a ≤ r.hi) ∧
      ¬(s.params.sdspiBase ≤ a ∧ a ≤ s.params.sdspiBase + 0x1F) := by
  rw [← hostMemOK_iff, ← inRegisterBlock_iff, State.admits, State.hostSpace]
  simp only [Bool.and_eq_true, decide_eq_true_iff, Bool.not_eq_true', Bool.not_eq_true, and_assoc]

theorem receiveStep_store_refused {base i : Nat} {s : State} (v : Byte) (h : ¬s.admits (base + i) = true) :
    receiveStep base (.store i v) s = .error .hostAddress := by
  simp only [receiveStep, State.memWrite, if_neg h]

theorem receiveStep_store_admitted {base i : Nat} {s : State} (v : Byte) (h : s.admits (base + i) = true) :
    receiveStep base (.store i v) s = .ok (.goOn (payloadFrom s.params.sectorSize (i + 1)),
      { s with mem := Memory.write s.mem (base + i) v }) := by
  simp only [receiveStep, State.memWrite, if_pos h]

theorem transmitStep_fetch_refused {base i : Nat} {s : State} (token : Byte) (h : ¬s.admits (base + i) = true) :
    transmitStep base token (.fetch i) s = .error .hostAddress := by
  simp only [transmitStep, State.memRead, if_neg h]

theorem transmitStep_fetch_admitted {base i : Nat} {s : State} (token : Byte) (h : s.admits (base + i) = true) :
    transmitStep base token (.fetch i) s = .ok (.goOn (.send i (Memory.read s.mem (base + i))), s) := by
  simp only [transmitStep, State.memRead, if_pos h]

/-- What a block operation does at a payload byte it is about to store: `f q` is its place while it stands at `q`. -/
theorem advance_store {f : RcvPos → Activity} {base i : Nat} {s : State} (v : Byte)
    (hf : ReceivesInto f base s.buf s.params)
    (herr : ∀ e, receiveStep base (.store i v) s = .error e → advance (f (.store i v)) s = .fault e) :
    (¬s.admits (base + i) = true → advance (f (.store i v)) s = .fault .hostAddress) ∧
    (s.admits (base + i) = true →
      ∃ t, advance (f (.store i v)) s = .next t ∧ t.mem = Memory.write s.mem (base + i) v) :=
  ⟨fun h => herr _ (receiveStep_store_refused v h),
    fun h => ⟨_, hf _ _ s _ rfl rfl (receiveStep_store_admitted v h), State.goto_mem ..⟩⟩

/-- What a block operation does at a payload byte it is about to fetch. -/
theorem advance_fetch {f : XmtPos → Activity} {base i : Nat} {token : Byte} {inv : State → Prop} {s : State}
    (hf : TransmitsFrom f base token inv) (hs : inv s)
    (herr : ∀ e, transmitStep base token (.fetch i) s = .error e → advance (f (.fetch i)) s = .fault e) :
    (¬s.admits (base + i) = true → advance (f (.fetch i)) s = .fault .hostAddress) ∧
    (s.admits (base + i) = true →
      advance (f (.fetch i)) s = .next { s with seq := .running (f (.send i (Memory.read s.mem (base + i)))) }) :=
  ⟨fun h => herr _ (transmitStep_fetch_refused token h),
    fun h => hf _ _ s _ hs (transmitStep_fetch_admitted token h)⟩

/-! A fault of the block's own step is the operation's. -/

theorem read_block_error {k : Nat} {q : RcvPos} {s : State} {e : Fault}
    (h : receiveStep (s.blockBase k) q s = .error e) : advance (.read (.block k q)) s = .fault e := by
  simp only [advance, State.readTurn, h]

theorem rcvrblk_block_error {q : RcvPos} {s : State} {e : Fault}
    (h : receiveStep (s.blockBase 0) q s = .error e) : advance (.rcvrblk (.block q)) s = .fault e := by
  simp only [advance, State.rcvrblkTurn, h]

theorem write_block_error {k : Nat} {q : XmtPos} {s : State} {e : Fault}
    (h : transmitStep (s.blockBase k) s.writeToken q s = .error e) : advance (.write (.block k q)) s = .fault e := by
  simp only [advance, State.writeTurn, h]

theorem xmitblk_block_error {q : XmtPos} {s : State} {e : Fault}
    (h : transmitStep (s.blockBase 0) s.data q s = .error e) : advance (.xmitblk (.block q)) s = .fault e := by
  simp only [advance, State.xmitblkTurn, h]

/-- Settles O31: the operation's step at a payload byte is the block's, which tests the unwrapped address. -/
theorem inadmissibleAccessFaults : Obligations.InadmissibleAccessFaults := by
  intro s k i v hb a admitted
  have hadm : admitted ↔ s.admits a = true := (admits_iff s a).symm
  rw [hadm]
  refine ⟨fun hs => ?_, fun hs => ?_, fun hk hs => ?_, fun hk hs => ?_⟩
  · rw [show exec .read s = _ from exec_instr hb hs]
    exact advance_store v (read_receives k s.buf s.params) fun _ => read_block_error
  · rw [show exec .write s = _ from exec_instr hb hs]
    exact advance_fetch (write_transmits k s.buf s.writeToken s.params) ⟨rfl, rfl, rfl⟩ fun _ => write_block_error
  · subst hk
    rw [show exec .rcvrblk s = _ from exec_instr hb hs]
    exact advance_store v (rcvrblk_receives s.buf s.params) fun _ => rcvrblk_block_error
  · subst hk
    rw [show exec .xmitblk s = _ from exec_instr hb hs]
    exact advance_fetch (xmitblk_transmits s.buf s.data) ⟨rfl, rfl⟩ fun _ => xmitblk_block_error

/-! ### The host's accesses to memory -/

/-- In memory that has its form, a write is seen at its own address and nowhere else. -/
theorem Memory.read_write {m : List Host.Cell} (hm : Memory.wf m) (a b : Nat) (v : Byte) :
    Memory.read (Memory.write m a v) b = if b = a then v else Memory.read m b := by
  split
  · next h => rw [h]; exact Memory.read_write_same m hm.1 a v
  · next h => exact Memory.read_write_other m v h

/-- The race region of R70, operation by operation: CNT blocks for READ and WRITE, one for RCVRBLK and XMITBLK. -/
theorem racesAt_iff (s : State) (a : Nat) : s.racesAt a = true ↔
    (s.busy = true ∧ ∃ x, s.seq = .running x ∧ ((∃ p, x = .read p) ∨ ∃ p, x = .write p)) ∧
      (s.buf.toNat ≤ a ∧ a < s.buf.toNat + s.params.sectorSize * s.cnt.toNat) ∨
    (s.busy = true ∧ ∃ x, s.seq = .running x ∧ ((∃ p, x = .rcvrblk p) ∨ ∃ p, x = .xmitblk p)) ∧
      (s.buf.toNat ≤ a ∧ a < s.buf.toNat + s.params.sectorSize * 1) := by
  rw [State.racesAt, Bool.and_eq_true, decide_eq_true_iff]
  cases hs : s.seq with
  | idle => simp [State.bufferBlocks, hs] -- no operation, no buffer
  | running x =>
    cases x with
    | read p | write p | rcvrblk p | xmitblk p => simp [State.bufferBlocks, hs]
    | nop | select | deselect | xmit | rcvr | clktrain | waitready | sendcmd | sendacmd | reserved =>
      simp [State.bufferBlocks, hs] -- a buffer of no blocks

/-- A host store to a byte outside the register block. -/
theorem hostMemStore_outside {s : State} {a : Nat} (v : Byte) (h : ¬s.inRegisterBlock a = true) :
    hostMemStore a v s =
      if s.racesAt a then .fault .bufferRace
      else if s.hostSpace ≤ a then .fault .noSuchAddress
      else .next { s with mem := Memory.write s.mem a v } := by
  rw [hostMemStore, if_neg h]

/-- A host load of a byte outside the register block. -/
theorem hostMemLoad_outside {s : State} {a : Nat} (h : ¬s.inRegisterBlock a = true) :
    hostMemLoad a s =
      if s.racesAt a then .fault .bufferRace
      else if s.hostSpace ≤ a then .fault .noSuchAddress
      else .next { s with rdata := (Memory.read s.mem a).zeroExtend 32 } := by
  rw [hostMemLoad, if_neg h]

/-- Settles O49: outside the register block the race test comes first, then the end of host memory. -/
theorem hostMemoryAccess : Obligations.HostMemoryAccess := by
  intro s a v rest running inBuffer racing hout
  have hrace : racing ↔ s.racesAt a = true := (racesAt_iff s a).symm
  rw [← inRegisterBlock_iff] at hout
  rw [hrace]
  refine ⟨fun he => ?_, fun he => ?_⟩
  · have hstep := (step_env he).trans (hostMemStore_outside (s := { s with env := rest }) v hout)
    refine ⟨fun hr => hstep.trans (if_pos hr), fun hr ha => ?_, fun hr ha => ?_⟩
    · exact hstep.trans ((if_neg hr).trans (if_pos ha))
    · exact ⟨_, hstep.trans ((if_neg hr).trans (if_neg (Nat.not_le_of_lt ha))), rfl,
        fun hm b => Memory.read_write hm a b v⟩
  · have hstep := (step_env he).trans (hostMemLoad_outside (s := { s with env := rest }) hout)
    refine ⟨fun hr => hstep.trans (if_pos hr), fun hr ha => ?_, fun hr ha => ?_⟩
    · exact hstep.trans ((if_neg hr).trans (if_pos ha))
    · exact hstep.trans ((if_neg hr).trans (if_neg (Nat.not_le_of_lt ha)))

end Sys2Proof.Machine
end

/-! ## The opcode table: its bytes, its decoder, and the steps its token and response rows mean (30_encoding.md)

In each place the well-formed rows and the accepted bytes answer to each other; a frame goes through its index and
argument. A token's or a response's row is the running operation's own step at that place (log entry 5). -/

section
namespace Sys2Proof.Machine

/-! ### The rows of a command frame (R83 to R86, R94) -/

/-- The six bytes of a frame, written out. -/
theorem frameBytes_eq (p : Params) (idx : BitVec 6) (arg : Word) :
    frameBytes p idx arg = [opcodeByte p idx, arg.extractLsb' 24 8, arg.extractLsb' 16 8, arg.extractLsb' 8 8,
      arg.extractLsb' 0 8, checksum p idx] := rfl

/-- The 64 indices: SDCMD_OTHER is the row of one only where no named row is. -/
theorem commandRow_space_wf (p : Params) (idx : BitVec 6) (arg : Word) :
    (commandRow idx arg).space = .frame ∧ (commandRow idx arg).wf p = true := by
  revert idx; exact of_decide_eq_true rfl

/-- A well-formed row of a frame is the row of its index and argument. -/
theorem commandRow_of_frame? {p : Params} {i : Instr} {idx : BitVec 6} {arg : Word}
    (hframe : i.frame? = some (idx, arg)) (hwf : i.wf p = true) : commandRow idx arg = i := by
  cases i <;> cases hframe
  case sdcmdOther => exact commandRow_other hwf
  all_goals rfl

/-- An accepted frame is the six bytes of its own index and argument. -/
theorem decodeFrame_ok {p : Params} {b0 b1 b2 b3 b4 b5 : Byte} {i : Instr}
    (h : decodeFrame p b0 b1 b2 b3 b4 b5 = .ok i) :
    ∃ idx arg, i = commandRow idx arg ∧ frameBytes p idx arg = [b0, b1, b2, b3, b4, b5] := by
  simp only [decodeFrame] at h
  split_ifs at h with hopcode hchecksum
  cases h
  obtain ⟨h1, h2, h3, h4⟩ := bytes_word b1 b2 b3 b4
  refine ⟨_, _, rfl, ?_⟩
  rw [frameBytes_eq, h1, h2, h3, h4, ← not_not.mp hopcode, ← not_not.mp hchecksum]

/-! ### What a decoder of one place accepts -/

/-- The bytes are the row's, and the row is a well-formed one of the place: what a decoder may accept. -/
def Encodes (p : Params) (i : Instr) (place : Space) (bs : List Byte) : Prop :=
  encode p i = bs ∧ i.space = place ∧ i.wf p = true

theorem decodeOpr_encodes (p : Params) (c : Byte) : Encodes p (decodeOpr c) .opr [c] :=
  ⟨(decodeOpr_encode p c).1, decodeOpr_space c, (decodeOpr_encode p c).2⟩

theorem commandRow_encodes (p : Params) (idx : BitVec 6) (arg : Word) :
    Encodes p (commandRow idx arg) .frame (frameBytes p idx arg) :=
  ⟨encode_commandRow p idx arg, commandRow_space_wf p idx arg⟩

theorem decodeToken_encodes {p : Params} {t : Byte} {i : Instr} (h : decodeToken p t = .ok i) :
    Encodes p i .token [t] := by
  unfold decodeToken at h
  split_ifs at h <;> cases h <;> subst_vars <;> exact ⟨rfl, rfl, rfl⟩

/-- Settles O2, place by place. -/
theorem encodeOfDecodeIsTheBytes : Obligations.EncodeOfDecodeIsTheBytes := by
  intro p place bs i h
  show Encodes p i place bs
  unfold decode at h
  split at h
  · next c => cases h; exact decodeOpr_encodes p c
  · obtain ⟨idx, arg, rfl, hbytes⟩ := decodeFrame_ok h
    exact hbytes ▸ commandRow_encodes p idx arg
  · exact decodeToken_encodes h
  · obtain ⟨rfl, rfl⟩ := decodeReadToken_ok h
    exact ⟨rfl, rfl, rfl⟩
  · obtain ⟨rfl, haccepted⟩ := decodeResponse_ok h
    exact ⟨rfl, rfl, haccepted⟩
  · obtain ⟨e, rfl, rfl⟩ := decodeR1_ok h
    exact ⟨rfl, rfl, rfl⟩
  all_goals cases h

/-! ### What an encoding decodes to -/

/-- A well-formed frame row decodes by its index and argument. -/
theorem decode_encode_of_frame? {p : Params} {i : Instr} {idx : BitVec 6} {arg : Word}
    (hprefix : p.opcodePrefix &&& 0x3F = 0) (hframe : i.frame? = some (idx, arg)) (hwf : i.wf p = true) :
    decode p .frame (encode p i) = .ok i := by
  rw [← commandRow_of_frame? hframe hwf, encode_commandRow, decode_frameBytes hprefix]

/-- Settles O1, row by row: a frame by its index and argument, a written token because it differs from the others. -/
theorem decodeOfEncodeIsTheInstruction : Obligations.DecodeOfEncodeIsTheInstruction := by
  intro p i hcodes hwf
  obtain ⟨hsingle, hmulti, hstop⟩ := decodeToken_written hcodes
  cases i with
  | nop | select | deselect | xmit | rcvr | clktrain | waitready | sendcmd | sendacmd | rcvrblk | xmitblk | read | write =>
    rfl
  | reserved code => exact congrArg Except.ok (decodeOpr_reserved hwf)
  | goIdle arg | opCondMmc arg | sendIfCond arg | sendCsd arg | sendCid arg | stopTransmission arg | setBlocklen arg
  | readSingleBlock arg | readMultipleBlock arg | acmdSetBlockCount arg | writeBlock arg | writeMultipleBlock arg
  | acmdOpCond arg | appCmd arg | readOcr arg | sdcmdOther idx arg => exact decode_encode_of_frame? hcodes.1 rfl hwf
  | tokenStartSingle => exact hsingle
  | tokenStartMulti => exact hmulti
  | tokenStop => exact hstop
  | tokenReadStart => exact if_pos rfl
  | dataResponseAccepted response => exact decodeResponse_accepted hwf
  | r1Valid status => exact decodeR1_valid status

/-! ### Fixed words -/

/-- Where OPCODE_PREFIX is 0x40, a frame begins with the bits 01 (R84). -/
theorem opcodeByte_start {p : Params} (h : p.opcodePrefix = 0x40) (idx : BitVec 6) :
    (opcodeByte p idx).extractLsb' 6 2 = 1#2 := by
  rw [opcodeByte, h]
  revert idx; decide

/-- Settles O3: the row's bytes are those of its frame. -/
theorem frameLayout : Obligations.FrameLayout := by
  refine ⟨fun p idx arg => ⟨opcodeByte p idx, checksum p idx, ?_, rfl, fun hprefix => ?_, rfl⟩, rfl, rfl, rfl, rfl⟩
  · rw [encode_commandRow, frameBytes_eq]
  · exact ⟨opcodeByte_start hprefix idx, opcodeByte_index (by rw [hprefix]; decide) idx⟩

/-- The defaults of R8 tell the rows apart. -/
theorem codesDistinct_default : codesDistinct Config.params := by
  decide

/-- Settles O4: each word is the encoding of its row, and decodes to it by O1. -/
theorem specWordsDecode : Obligations.SpecWordsDecode := by
  have roundTrip (i : Instr) (hwf : i.wf Config.params = true) :
      decode Config.params i.space (encode Config.params i) = .ok i :=
    decodeOfEncodeIsTheInstruction Config.params i codesDistinct_default hwf
  exact ⟨roundTrip .write rfl, roundTrip (.reserved 0x07) rfl, roundTrip (.goIdle 0) rfl,
    roundTrip (.sendIfCond 0x1AA) rfl, roundTrip (.readSingleBlock 0x12345678) rfl,
    roundTrip (.sdcmdOther 63 0xFFFFFFFF) rfl, roundTrip .tokenStartMulti rfl,
    roundTrip (.dataResponseAccepted 0xE5) rfl, roundTrip (.r1Valid 1) rfl⟩

/-! ### Reserved operation codes (R82) -/

theorem decodeOpr_eq_reserved_iff (c : Byte) : decodeOpr c = .reserved c ↔
    (0x06 ≤ c ∧ c ≤ 0x0F) ∨ (0x13 ≤ c ∧ c ≤ 0x1F) ∨ (0x22 ≤ c ∧ c ≤ 0x2F) ∨ 0x32 ≤ c := by
  revert c; decide

/-- An operation of one step leaves its code, its result and an Idle block. -/
theorem launch_finish (c : Byte) (a : Activity) (res : Result) {s : State} (hb : s.busy = false) :
    (s.launch c a).finish res = { s with opr := c, result := res.code, seq := .idle } := by
  simp only [State.finish, State.launch, stat_restored hb]

/-- Settles O15: the start, then `finish(ParameterError)`. -/
theorem reservedCodesRun : Obligations.ReservedCodesRun := by
  refine fun c => ⟨decodeOpr_eq_reserved_iff c, fun _ s hb => ⟨s.launch c .reserved, ?_, ?_⟩⟩
  · simp only [exec, execReserved, hb, Bool.false_eq_true, if_false]
  · rw [engineRun_one (engine_running (State.launch_busy ..) (State.launch_seq ..))]
    exact congrArg Host.Outcome.next (launch_finish c .reserved .parameter hb)

/-! ### The step a token's or a response's row means: the running operation's own -/

/-- An exchange that receives `b`, and a move of the sequencer. -/
theorem exchange_goto {s : State} {b : Byte} (m : Byte) (a : Activity) (hb : s.nextByte = b) :
    (s.exchange m).goto a = { s with
      card := s.card.tail, bus := s.bus ++ [.xfer s.csa s.clksel m b], seq := .running a } := by
  subst hb; rfl

theorem sendToken_at {a : Activity} {s : State} {t : Byte} (hb : s.busy = true) (hs : s.seq = .running a)
    (ht : a.outToken? s = some t) : s.sendToken t = advance a s := by
  rw [← blockTurn_eq_advance (.inl (by simp [ht]))]
  simp [State.sendToken, hb, hs, ht]

theorem exec_tokenReadStart_at {a : Activity} {s : State} (hb : s.busy = true) (hs : s.seq = .running a)
    (ha : a.awaitsToken = true) (hn : s.nextByte = s.params.readToken) : exec .tokenReadStart s = advance a s := by
  rw [← blockTurn_eq_advance (.inr (.inl ha))]
  simp [exec, execTokenReadStart, hb, hs, ha, hn]

theorem exec_dataResponseAccepted_at {a : Activity} {s : State} {d : Byte} (hb : s.busy = true)
    (hs : s.seq = .running a) (ha : a.awaitsResponse = true) (hn : s.nextByte = d)
    (hd : responseAccepted s.params d = true) : exec (.dataResponseAccepted d) s = advance a s := by
  rw [← blockTurn_eq_advance (.inr (.inr ha))]
  simp [exec, execDataResponseAccepted, hb, hs, ha, hn, hd]

theorem exec_r1Valid_at {a : Activity} {s : State} {idx : BitVec 6} {arg : Word} {n : Nat} {e : BitVec 7}
    (hb : s.busy = true) (hs : s.seq = .running a) (hc : a.command? s = some (idx, arg, .poll n))
    (hn : s.nextByte = 0#1 ++ e) : exec (.r1Valid e) s = .next (s.commandTurn a idx arg (.poll n)) := by
  simp [exec, execR1Valid, hb, hs, hc, hn]

theorem r1IsValid_status (e : BitVec 7) : r1IsValid (0#1 ++ e) = true := by
  revert e; decide

/-- A valid byte ends the response poll, however many exchanges are left (41_command.md R132). -/
theorem commandTurn_poll_valid (a : Activity) (idx : BitVec 6) (arg : Word) (n : Nat) {s : State}
    (hv : r1IsValid s.nextByte = true) : s.commandTurn a idx arg (.poll n) =
      (s.exchange s.params.filler).goto (a.withCommand (.record s.nextByte)) := by
  simp [State.commandTurn, commandStep, hv]

/-- Settles O24: the R1 row is the command's own step, and a valid byte ends its poll. -/
theorem validResponseIsTaken : Obligations.ValidResponseIsTaken := by
  intro e idx arg a n s hb hs hc hn
  rw [exec_r1Valid_at hb hs hc hn, commandTurn_poll_valid a idx arg n (hn ▸ r1IsValid_status e), hn,
    exchange_goto _ _ hn]

/-- A start token is followed by payload byte 0 (42_block_io.md R184). -/
theorem transmitStep_startToken (base : Nat) {token : Byte} {s : State} (ht : token ≠ s.params.tokenStop)
    (hsize : s.params.sectorSize ≠ 0) :
    transmitStep base token .token s = .ok (.goOn (.fetch 0), s.exchange token) := by
  simp [transmitStep, ht, fetchFrom, Nat.pos_of_ne_zero hsize]

/-- The stop token is followed by nothing (R185). -/
theorem transmitStep_stopToken (base : Nat) (s : State) :
    transmitStep base s.params.tokenStop .token s = .ok (.done true, s.exchange s.params.tokenStop) := by
  simp [transmitStep]

/-- A block operation that stands at a start token sends it and goes on with the payload. -/
theorem sendToken_transmits {f : XmtPos → Activity} {base : Nat} {token : Byte} {inv : State → Prop} {s : State}
    (hf : TransmitsFrom f base token inv) (hi : inv s) (hb : s.busy = true) (hs : s.seq = .running (f .token))
    (ha : (f .token).outToken? s = some token) (ht : token ≠ s.params.tokenStop) (hsize : s.params.sectorSize ≠ 0) :
    s.sendToken token = .next { s with
      card := s.card.tail, bus := s.bus ++ [.xfer s.csa s.clksel token s.nextByte]
      seq := .running (f (.fetch 0)) } := by
  rw [sendToken_at hb hs ha, hf _ _ s _ hi (transmitStep_startToken base ht hsize), exchange_goto _ _ rfl]

theorem writeToken_single {s : State} (h : s.cnt = 1) : s.writeToken = s.params.tokenSingle :=
  if_pos (beq_iff_eq.mpr h)

theorem writeToken_multi {s : State} (h : s.cnt ≠ 1) : s.writeToken = s.params.tokenMulti :=
  if_neg fun hsingle => h (beq_iff_eq.mp hsingle)

/-- Settles O25: the row is the operation's own step at the token it is about to send. -/
theorem writtenTokensAreSent : Obligations.WrittenTokensAreSent := by
  intro s hb ⟨_, _, hsingle, hmulti⟩ hsize
  have xmitblk {token : Byte} (hd : s.data = token) :=
    sendToken_transmits (xmitblk_transmits s.buf token) ⟨rfl, hd⟩ hb (ha := congrArg some hd) (hsize := hsize)
  have write (k : Nat) {token : Byte} (hw : s.writeToken = token) :=
    sendToken_transmits (write_transmits k s.buf token s.params) ⟨rfl, rfl, hw⟩ hb (ha := congrArg some hw)
      (hsize := hsize)
  refine ⟨fun hd hs => xmitblk hd hs hsingle, fun hd hs => xmitblk hd hs hmulti,
    fun k hc hs => write k (writeToken_single hc) hs hsingle, fun k hc hs => write k (writeToken_multi hc) hs hmulti,
    fun k ready hs => sendToken_at hb hs rfl, fun hd hs => ?_⟩
  refine (sendToken_at hb hs (congrArg some hd)).trans ?_
  simp only [advance, State.xmitblkTurn, hd, transmitStep_stopToken, exchange_goto _ _ rfl]

/-- The read token is followed by payload byte 0 (R183). -/
theorem receiveStep_readToken (base : Nat) {s : State} (hn : s.nextByte = s.params.readToken)
    (ht : s.params.readToken ≠ 0xFF) (hsize : s.params.sectorSize ≠ 0) :
    receiveStep base .token s = .ok (.goOn (.payload 0), s.exchange s.params.filler) := by
  simp only [receiveStep, hn, if_neg ht, if_true, payloadFrom, if_pos (Nat.pos_of_ne_zero hsize)]

/-- An accepted data response ends the block with success (R184). -/
theorem transmitStep_response (base : Nat) (token : Byte) {s : State}
    (h : responseAccepted s.params s.nextByte = true) :
    transmitStep base token .response s = .ok (.done true, s.exchange s.params.filler) := by
  simp [transmitStep, h]

/-- A block operation that stands at the read token goes on with the payload. -/
theorem exec_tokenReadStart_receives {f : RcvPos → Activity} {base : Nat} {s : State}
    (hf : ReceivesInto f base s.buf s.params) (hb : s.busy = true) (hs : s.seq = .running (f .token))
    (ha : (f .token).awaitsToken = true) (hn : s.nextByte = s.params.readToken) (ht : s.params.readToken ≠ 0xFF)
    (hsize : s.params.sectorSize ≠ 0) :
    exec .tokenReadStart s = .next { s with
      card := s.card.tail, bus := s.bus ++ [.xfer s.csa s.clksel s.params.filler s.params.readToken]
      seq := .running (f (.payload 0)) } := by
  rw [exec_tokenReadStart_at hb hs ha hn, hf _ _ s _ rfl rfl (receiveStep_readToken base hn ht hsize),
    exchange_goto _ _ hn]

/-- Settles O26: the row is the operation's own step at the byte it awaits. -/
theorem cardTokensAreTaken : Obligations.CardTokensAreTaken := by
  intro s hb
  refine ⟨fun ht hsize hn => ⟨fun hs => ?_, fun k hs => ?_⟩, fun d hn hmask => ?_⟩
  · exact exec_tokenReadStart_receives (rcvrblk_receives s.buf s.params) hb hs rfl hn ht hsize
  · exact exec_tokenReadStart_receives (read_receives k s.buf s.params) hb hs rfl hn ht hsize
  · have hd : responseAccepted s.params d = true := beq_iff_eq.mpr hmask
    refine ⟨fun hs => ?_, fun k hs => ?_⟩ <;>
      rw [exec_dataResponseAccepted_at hb hs rfl hn hd, ← exchange_goto _ _ hn]
    · simp only [advance, State.xmitblkTurn, transmitStep_response _ _ (hn ▸ hd)]
    · simp only [advance, State.writeTurn, transmitStep_response _ _ (hn ▸ hd)]
      rfl

end Sys2Proof.Machine
end

/-! ## The transport operations, from the OPR store to `finish` (40_transport.md R114 to R119) -/

section
namespace Sys2Proof.Machine

/-! ### Everything one step of such an operation can do -/

/-- The rows of R114 to R119, of R135 and of R82. -/
abbrev transportRow (i : Instr) : Prop :=
  i = .nop ∨ i = .select ∨ i = .deselect ∨ i = .xmit ∨ i = .rcvr ∨ i = .clktrain ∨ i = .waitready ∨
    ∃ c, i = .reserved c

/-- What a transport row can make of `s`: its start, one primitive and a move of the sequencer, or `finish`; and which rows
drive the chip-select line, write DATA or use T_SHORT. -/
inductive TransportStep (i : Instr) (s : State) : State → Prop where
  | start (c : Byte) (a : Activity) (hb : s.busy = false) : TransportStep i s (s.launch c a)
  | exchange (m : Byte) (a : Activity) : TransportStep i s ((s.exchange m).goto a)
  | chipSelect (v : Bool) (a : Activity) (hi : i = .select ∨ i = .deselect ∨ i = .clktrain) :
      TransportStep i s ((s.setCs v).goto a)
  | data (b : Byte) (a : Activity) (hi : i = .rcvr ∨ i = .waitready) : TransportStep i s ((s.setData b).goto a)
  | load (a : Activity) (hi : i = .waitready) : TransportStep i s (s.loadShort.goto a)
  | sample (a : Activity) : TransportStep i s (s.goto a)
  | finish (res : Result) : TransportStep i s (s.finish res)

/-- Inside its ready wait WAITREADY does what the wait does, and moves on. -/
theorem waitreadyTurn_wait (w : WaitPos) (s : State) :
    ∃ a, s.waitreadyTurn (.wait w) = (waitStep w s).2.goto a := by
  simp only [State.waitreadyTurn]
  split <;> (next h => exact ⟨_, by rw [h]⟩)

theorem advance_transportStep {a : Activity} {s t u : State} (hi : transportRow (a.instr u))
    (h : advance a s = .next t) : TransportStep (a.instr u) s t := by
  cases a with
  | nop | reserved => cases h; exact .finish _
  | select p =>
    cases p <;> cases h
    · exact .chipSelect _ _ (.inl rfl)
    · exact .finish _
  | deselect p =>
    cases p <;> cases h
    · exact .chipSelect _ _ (.inr (.inl rfl))
    · exact .exchange _ _
    · exact .finish _
  | xmit p =>
    cases p <;> cases h
    · exact .exchange _ _
    · exact .finish _
  | rcvr p =>
    cases p <;> cases h
    · exact .exchange _ _
    · exact .data _ _ (.inl rfl)
    · exact .finish _
  | clktrain p =>
    cases p <;> cases h
    · exact .chipSelect _ _ (.inr (.inr rfl))
    · exact .exchange _ _
    · exact .finish _
  | waitready p =>
    cases p with
    | wait w =>
      obtain ⟨b, hw⟩ := waitreadyTurn_wait w s
      obtain rfl : _ = t := hw.symm.trans (Host.Outcome.next.inj h)
      cases w with
      | load => exact .load _ rfl
      | exchange => exact .exchange _ _
      | sample c => exact .sample _
    | record b => cases h; exact .data _ _ (.inr rfl)
    | finish res => cases h; exact .finish _
  | sendcmd p | sendacmd p | rcvrblk p | xmitblk p | read p | write p => simp [transportRow, Activity.instr] at hi

theorem transportRow_space {i : Instr} (hi : transportRow i) : i.space = .opr := by
  obtain rfl | rfl | rfl | rfl | rfl | rfl | rfl | ⟨c, rfl⟩ := hi <;> rfl

theorem exec_transportStep {i : Instr} {s t : State} (hi : transportRow i) (h : exec i s = .next t) :
    TransportStep i s t := by
  obtain ⟨hb, c, a, rfl⟩ | ⟨-, a, -, ha, u, rfl⟩ := exec_operation h (transportRow_space hi)
  · exact .start c a hb
  · exact advance_transportStep hi ha

/-- Settles O52, by the list of everything one step of such a row can do. -/
theorem transportFrame : Obligations.TransportFrame := by
  intro i s t hi h
  cases exec_transportStep hi h with
  | start c a hb => simpa [hb] using setBit0_high s.stat true
  | exchange m a | sample a => simp
  | chipSelect v a hi => obtain rfl | rfl | rfl := hi <;> simpa using setBit0_high s.ctrl v
  | data b a hi => obtain rfl | rfl := hi <;> simp
  | load a hi => subst hi; simp
  | finish res => simpa using setBit0_high s.stat false

/-! ### Runs -/

/-- With BUSY = 0 an operation's row runs from its launch at its first position (R23, R38). -/
theorem runsTo_of_launch {i : Instr} {n : Nat} {s t : State} {c : Byte} {a : Activity} (hi : i.space = .opr)
    (hb : s.busy = false) (hc : encode s.params i = [c]) (ha : firstPosition i s = some a)
    (hr : engineRun n (s.launch c a) = .next t) : runsTo i n s t := by
  obtain ⟨c', a', hc', ha', h⟩ := exec_operation_idle hi hb
  cases hc.symm.trans hc'
  cases ha.symm.trans ha'
  exact ⟨_, h, hr⟩

/-- The last step of a run started with BUSY = 0: `finish` leaves STAT as it was before the start. -/
theorem run_finish {a : Activity} {s u : State} (res : Result) (hb : s.busy = false)
    (hstat : u.stat = setBit0 s.stat true) (hseq : u.seq = .running a) (h : advance a u = .next (u.finish res)) :
    engineRun 1 u = .next { u with result := res.code, stat := s.stat, seq := .idle } := by
  have hu : u.busy = true := by rw [State.busy, hstat, setBit0_getLsbD_zero]
  rw [engineRun_one ((engine_running hu hseq).trans h), State.finish, hstat, stat_restored hb]

/-- Settles O11: the start, then `finish(Ok)`. -/
theorem nopRuns : Obligations.NopRuns :=
  fun _ hb => runsTo_of_launch rfl hb rfl rfl (run_finish .ok hb rfl rfl rfl)

/-- Settles O13: one exchange, RCVR's write of DATA, `finish(Ok)`. -/
theorem xmitAndRcvrRun : Obligations.XmitAndRcvrRun := by
  refine fun s hb => ⟨runsTo_of_launch rfl hb rfl rfl ?_, runsTo_of_launch rfl hb rfl rfl ?_⟩
  · have hbusy := State.launch_busy 0x03 (.xmit .exchange) s
    exact run_step hbusy rfl rfl (run_finish .ok hb rfl rfl rfl)
  · have hbusy := State.launch_busy 0x04 (.rcvr .exchange) s
    exact run_step hbusy rfl rfl (run_step hbusy rfl rfl (run_finish .ok hb rfl rfl rfl))

/-- An operation that releases the line, sends `n` fillers and finishes (R116, R119): `f k` is its place with `k` of them
left, and the card answers whatever it answers. -/
theorem release_fillers_run {c : Byte} {first : Activity} {f : Nat → Activity} {n : Nat} {s : State}
    (hb : s.busy = false)
    (hfirst : advance first (s.launch c first) = .next (((s.launch c first).setCs false).goto (f n)))
    (hf : ∀ (k : Nat) (u : State), advance (f (k + 1)) u = .next ((u.exchange u.params.filler).goto (f k)))
    (hlast : ∀ u : State, advance (f 0) u = .next (u.finish .ok)) :
    ∃ received : List Byte, received.length = n ∧ engineRun (n + 2) (s.launch c first) = .next { s with
      opr := c, result := 0x00, seq := .idle, ctrl := setBit0 s.ctrl false, card := s.card.drop n
      bus := s.bus ++ .cs false :: exchanges false s.clksel (fillers s.params n) received } := by
  obtain ⟨received, hlen, -, hr⟩ :=
    fillers_run hf n (s := ((s.launch c first).setCs false).goto (f n)) (State.launch_busy c first s) rfl
  have hcsa : (((s.launch c first).setCs false).goto (f n)).csa = false := State.setCs_csa false s
  have hclk : (((s.launch c first).setCs false).goto (f n)).clksel = s.clksel := State.setCs_clksel false s
  rw [hcsa, hclk] at hr
  refine ⟨received, hlen, run_step (State.launch_busy ..) rfl hfirst (run_trans hr
    ((run_finish .ok hb rfl rfl (hlast _)).trans ?_))⟩
  simp [State.goto, State.setCs, State.launch, Result.code]

/-- Settles O12: one chip-select primitive, DESELECT's trailer, `finish(Ok)`. -/
theorem selectAndDeselectRun : Obligations.SelectAndDeselectRun := by
  intro s hb
  constructor
  · have hbusy := State.launch_busy 0x01 (.select .assert) s
    exact ⟨_, runsTo_of_launch rfl hb rfl rfl (run_step hbusy rfl rfl (run_finish .ok hb rfl rfl rfl)),
      State.setCs_csa true s, setBit0_high s.ctrl true, rfl⟩
  · obtain ⟨received, hlen, hr⟩ := release_fillers_run (c := 0x02) (first := .deselect .release)
      (f := fun n => .deselect (deselectTrailerFrom n)) hb rfl (fun _ _ => rfl) fun _ => rfl
    exact ⟨_, received, runsTo_of_launch rfl hb rfl rfl hr, hlen, setBit0_getLsbD_zero s.ctrl false,
      setBit0_high s.ctrl false, rfl⟩

/-- Settles O14: the release of the line, the training bytes, `finish(Ok)`. -/
theorem clktrainRuns : Obligations.ClktrainRuns := by
  intro s hb
  obtain ⟨received, hlen, hr⟩ := release_fillers_run (c := 0x05) (first := .clktrain .release)
    (f := fun n => .clktrain (trainFrom n)) hb rfl (fun _ _ => rfl) fun _ => rfl
  exact ⟨_, received, runsTo_of_launch rfl hb rfl rfl hr, hlen, setBit0_getLsbD_zero s.ctrl false,
    setBit0_high s.ctrl false, rfl⟩

end Sys2Proof.Machine
end

/-! ## The places of the sequencer (Safety.lean; 41_command.md R130 to R134, 42_block_io.md R181 to R189, R194)

The bounds of a place speak of the settings alone, so each engine step is a question about the place it moves to: a
command goes on or hands its answer to its operation, a block goes on or ends, and a chip-select primitive is the one
update that changes a setting. -/

section
namespace Sys2Proof.Machine

theorem sameSettings_refl (s : State) : s.sameSettings s := ⟨rfl, rfl, rfl, rfl, rfl, rfl, rfl⟩

theorem placeOk_idle {s : State} (hs : s.seq = .idle) : s.placeOk := by
  simp [State.placeOk, hs]

theorem placeOk_running {s : State} {a : Activity} (hs : s.seq = .running a) : s.placeOk ↔ a.ok s := by
  simp only [State.placeOk, hs]

theorem placeOk_congr {s t : State} (hseq : t.seq = s.seq) (h : s.sameSettings t) (hs : s.placeOk) : t.placeOk := by
  cases hsq : s.seq with
  | idle => exact placeOk_idle (hseq.trans hsq)
  | running a => exact (placeOk_running (hseq.trans hsq)).mpr (ok_congr h ((placeOk_running hsq).mp hs))

/-! ### Validation and the block count -/

theorem single_iff (s : State) : s.single = true ↔ s.cnt.toNat = 1 := by
  rw [State.single, beq_iff_eq, ← BitVec.toNat_inj]; rfl

/-- READ goes on only with a count of at least one block (42_block_io.md R181). -/
theorem cnt_pos_of_readRejection {s : State} (h : s.readRejection = none) : 0 < s.cnt.toNat := by
  have hc : s.cnt ≠ 0 := fun hc => by simp [State.readRejection, hc] at h
  exact Nat.pos_of_ne_zero fun h0 => hc (BitVec.eq_of_toNat_eq h0)

/-- And so does WRITE (R182). -/
theorem cnt_pos_of_writeRejection {s : State} (h : s.writeRejection = none) : 0 < s.cnt.toNat := by
  have hc : s.cnt ≠ 0 := fun hc => by simp [State.writeRejection, hc] at h
  exact Nat.pos_of_ne_zero fun h0 => hc (BitVec.eq_of_toNat_eq h0)

theorem writeIndex_multi {s : State} (h : s.single = false) : s.writeIndex = 25 := by
  simp [State.writeIndex, h]

/-! ### Commands (41_command.md R132 to R134) -/

theorem commandStep_settings (idx : BitVec 6) (arg : Word) (p : CmdPos) (s : State) :
    s.sameSettings (commandStep idx arg p s).2 := by
  obtain ⟨ts, r, c, b, h⟩ := commandStep_frame idx arg p s
  rw [h]; exact sameSettings_refl s

/-- The bounds of an operation's place bound the command it stands in. -/
theorem command?_ok {a : Activity} {s : State} {idx : BitVec 6} {arg : Word} {p : CmdPos}
    (hc : a.command? s = some (idx, arg, p)) (ha : a.ok s) : p.ok s.params idx := by
  unfold Activity.command? at hc
  split at hc <;> cases hc
  · exact ha
  · exact ha
  · exact ha
  · obtain ⟨-, hp⟩ := ha; exact hp
  · obtain ⟨-, -, -, hp⟩ := ha; exact hp
  · obtain ⟨-, -, -, hp⟩ := ha; exact hp
  · obtain ⟨-, -, -, hp⟩ := ha; exact hp
  · obtain ⟨-, hp⟩ := ha; exact hp

/-- The command may stand anywhere within its own bounds. -/
theorem withCommand_ok {a : Activity} {s : State} {idx : BitVec 6} {arg : Word} {p q : CmdPos}
    (hc : a.command? s = some (idx, arg, p)) (ha : a.ok s) (hq : q.ok s.params idx) : (a.withCommand q).ok s := by
  unfold Activity.command? at hc
  split at hc <;> cases hc
  · exact hq
  · exact hq
  · exact hq
  · obtain ⟨hr, -⟩ := ha; exact ⟨hr, hq⟩
  · obtain ⟨hr, hm, hk, -⟩ := ha; exact ⟨hr, hm, hk, hq⟩
  · obtain ⟨hw, hm, hpre, -⟩ := ha; exact ⟨hw, hm, hpre, hq⟩
  · obtain ⟨hw, hm, hpre, -⟩ := ha; exact ⟨hw, hm, hpre, hq⟩
  · obtain ⟨hw, -⟩ := ha; exact ⟨hw, hq⟩

/-- Whatever its command answered, an operation goes on at a place within its bounds. -/
theorem afterCommand_ok {a : Activity} {s : State} (r : Byte) (ha : a.ok s) : (a.afterCommand r s).ok s := by
  unfold Activity.afterCommand
  split
  · trivial -- SENDCMD
  · split -- SENDACMD's index-55 command
    · exact commandStart_ok ..
    · trivial
  · trivial -- SENDACMD's own command
  · obtain ⟨hr, -⟩ := ha -- READ's data command
    have hpos := cnt_pos_of_readRejection hr.1
    split
    · exact ⟨hr, hpos, trivial⟩
    · split
      · exact ⟨hr, Nat.zero_le _⟩
      · exact ⟨hr, Bool.eq_false_of_not_eq_true ‹_›, Nat.zero_le _, commandStart_ok ..⟩
  · obtain ⟨hr, -, hk, -⟩ := ha -- READ's stop command
    exact ⟨hr, hk⟩
  · obtain ⟨hw, hm, hpre, -⟩ := ha -- WRITE's index-55 command
    split
    · exact ⟨hw, hm, hpre, commandStart_ok ..⟩
    · exact ⟨hw, writeIndex_multi hm ▸ commandStart_ok ..⟩
  · obtain ⟨hw, hm, -⟩ := ha -- WRITE's set-block-count
    exact ⟨hw, writeIndex_multi hm ▸ commandStart_ok ..⟩
  · obtain ⟨hw, -⟩ := ha -- WRITE's data command
    have hpos := cnt_pos_of_writeRejection hw.1
    split
    · exact ⟨hw, hpos, trivial⟩
    · split
      · exact ⟨hw, Nat.zero_le _, nofun⟩
      · exact ⟨hw, Bool.eq_false_of_not_eq_true ‹_›, Nat.zero_le _, trivial⟩
  · exact ha -- no command

/-- Every step of a command an operation stands in. -/
theorem commandTurn_placeOk {a : Activity} {s : State} {idx : BitVec 6} {arg : Word} {p : CmdPos}
    (hc : a.command? s = some (idx, arg, p)) (ha : a.ok s) : (s.commandTurn a idx arg p).placeOk := by
  have hset := commandStep_settings idx arg p s
  unfold State.commandTurn
  split
  · next q u h =>
    rw [h] at hset
    exact goto_placeOk hset (withCommand_ok hc ha (commandStep_ok (command?_ok hc ha) h))
  · next r u h =>
    rw [h] at hset
    exact goto_placeOk (sameSettings_refl u) (afterCommand_ok r (ok_congr hset ha))

/-! ### Blocks and trailers (42_block_io.md R188, R189, R194) -/

theorem afterReadBlock_ok {s : State} {k : Nat} (ok : Bool) (hr : s.reading) (hk : k < s.cnt.toNat) :
    (s.afterReadBlock k ok).ok s := by
  unfold State.afterReadBlock
  by_cases hone : s.single = true
  · have hcnt := (single_iff s).mp hone
    rw [if_pos hone]
    exact ⟨hr, by split <;> omega⟩
  · have hmulti := Bool.eq_false_of_not_eq_true hone
    rw [if_neg hone]
    split
    · split
      · exact ⟨hr, ‹_›, trivial⟩
      · exact ⟨hr, hmulti, hk, commandStart_ok ..⟩
    · exact ⟨hr, hmulti, Nat.le_of_lt hk, commandStart_ok ..⟩

theorem afterWriteBlock_ok {s : State} {k : Nat} (ok : Bool) (hw : s.writing) (hk : k < s.cnt.toNat) :
    (s.afterWriteBlock k ok).ok s := by
  unfold State.afterWriteBlock
  by_cases hone : s.single = true
  · have hcnt := (single_iff s).mp hone
    rw [if_pos hone]
    exact ⟨hw, by split <;> omega, fun hok => by rw [if_pos hok, hcnt]⟩
  · have hmulti := Bool.eq_false_of_not_eq_true hone
    rw [if_neg hone]
    split
    · split
      · exact ⟨hw, ‹_›, trivial⟩
      · exact ⟨hw, hmulti, hk, trivial⟩
    · exact ⟨hw, hmulti, Nat.le_of_lt hk, trivial⟩

theorem readTrailerFrom_ok {s : State} {k n : Nat} (hv : s.readRejection = none) (hk : k ≤ s.cnt.toNat)
    (hn : n ≤ s.params.deselectTrailer) : (readTrailerFrom k n).ok s := by
  unfold readTrailerFrom
  split
  · exact ⟨hv, hk⟩
  · exact ⟨hv, hk, Nat.pos_of_ne_zero ‹_›, hn⟩

theorem writeTrailerFrom_ok {s : State} {k n : Nat} {ok : Bool} (hv : s.writeRejection = none)
    (hk : k ≤ s.cnt.toNat) (hall : ok = true → k = s.cnt.toNat) (hn : n ≤ s.params.deselectTrailer) :
    (writeTrailerFrom k ok n).ok s := by
  unfold writeTrailerFrom
  split
  · exact ⟨hv, hk, hall⟩
  · exact ⟨hv, hk, hall, Nat.pos_of_ne_zero ‹_›, hn⟩

theorem deselectTrailerFrom_ok {s : State} {n : Nat} (hn : n ≤ s.params.deselectTrailer) :
    (Activity.deselect (deselectTrailerFrom n)).ok s := by
  unfold deselectTrailerFrom
  split
  · trivial
  · exact ⟨Nat.pos_of_ne_zero ‹_›, hn⟩

theorem trainFrom_ok {s : State} {n : Nat} (hn : n ≤ s.params.trainBytes) :
    (Activity.clktrain (trainFrom n)).ok s := by
  unfold trainFrom
  split
  · trivial
  · exact ⟨Nat.pos_of_ne_zero ‹_›, hn⟩

/-! ### READ and WRITE -/

theorem readTurn_placeOk {p : ReadPos} {s t : State} (hp : p.ok s) (h : s.readTurn p = .next t) : t.placeOk := by
  cases p with
  | start =>
    simp only [State.readTurn] at h
    split at h <;> cases h
    · trivial
    · exact goto_placeOk (sameSettings_refl _) ⟨⟨‹_›, State.setCs_csa true s⟩, commandStart_ok ..⟩
  | command q => cases h; exact commandTurn_placeOk rfl hp
  | block k q =>
    obtain ⟨hr, hk, hq⟩ := hp
    simp only [State.readTurn] at h
    split at h <;> cases h
    · next q' u hstep => exact goto_placeOk (receiveStep_settings hstep) ⟨hr, hk, receiveStep_ok hq hstep⟩
    · next ok u hstep =>
      obtain ⟨hr', hk', -⟩ : (Activity.read (.block k q)).ok u := ok_congr (receiveStep_settings hstep) ⟨hr, hk, hq⟩
      exact goto_placeOk (sameSettings_refl u) (afterReadBlock_ok ok hr' hk')
  | stop k q => cases h; exact commandTurn_placeOk rfl hp
  | release k =>
    obtain ⟨⟨hv, -⟩, hk⟩ := hp
    cases h
    exact goto_placeOk (sameSettings_refl (s.setCs false)) (readTrailerFrom_ok hv hk (Nat.le_refl _))
  | trailer k n =>
    obtain ⟨hv, hk, -, hn⟩ := hp
    cases h
    exact goto_placeOk (sameSettings_refl s) (readTrailerFrom_ok hv hk (by omega))
  | record k | finish res => cases h; trivial

theorem writeStart_ok {s : State} (hw : s.writing) : s.writeStart.ok s := by
  unfold State.writeStart
  split
  · next h =>
    rw [Bool.and_eq_true, Bool.not_eq_true'] at h
    exact ⟨hw, h.1, h.2, commandStart_ok ..⟩
  · exact ⟨hw, commandStart_ok ..⟩

theorem writeTurn_placeOk {p : WritePos} {s t : State} (hp : p.ok s) (h : s.writeTurn p = .next t) : t.placeOk := by
  cases p with
  | start =>
    simp only [State.writeTurn] at h
    split at h <;> cases h
    · trivial
    · exact goto_placeOk (sameSettings_refl _) (writeStart_ok (s := s.setCs true) ⟨‹_›, State.setCs_csa true s⟩)
  | appPrefix q | count q | command q => cases h; exact commandTurn_placeOk rfl hp
  | block k q =>
    obtain ⟨hw, hk, hq⟩ := hp
    simp only [State.writeTurn] at h
    split at h <;> cases h
    · next q' u hstep => exact goto_placeOk (transmitStep_settings hstep) ⟨hw, hk, transmitStep_ok hq hstep⟩
    · next ok u hstep =>
      obtain ⟨hw', hk', -⟩ : (Activity.write (.block k q)).ok u := ok_congr (transmitStep_settings hstep) ⟨hw, hk, hq⟩
      exact goto_placeOk (sameSettings_refl u) (afterWriteBlock_ok ok hw' hk')
  | stopWait k w =>
    obtain ⟨hw, hmulti, hk, -⟩ := hp
    have hset := waitStep_settings w s
    simp only [State.writeTurn] at h
    split at h <;> cases h
    · next hstep => rw [hstep] at hset; exact goto_placeOk hset ⟨hw, hmulti, hk, waitStep_ok hstep⟩
    · next hstep => rw [hstep] at hset; exact goto_placeOk hset ⟨hw, hmulti, hk⟩
  | stopToken k ready =>
    obtain ⟨hw, -, hk⟩ := hp
    cases h
    refine goto_placeOk (sameSettings_refl s) ⟨hw, hk, fun hok => ?_⟩
    rw [Bool.and_eq_true, beq_iff_eq] at hok
    exact hok.1
  | release k ok =>
    obtain ⟨⟨hv, -⟩, hk, hall⟩ := hp
    cases h
    exact goto_placeOk (sameSettings_refl (s.setCs false)) (writeTrailerFrom_ok hv hk hall (Nat.le_refl _))
  | trailer k ok n =>
    obtain ⟨hv, hk, hall, -, hn⟩ := hp
    cases h
    exact goto_placeOk (sameSettings_refl s) (writeTrailerFrom_ok hv hk hall (by omega))
  | record k ok | finish res => cases h; trivial

/-! ### Steps -/

/-- The engine step of an operation within its bounds. -/
theorem advance_placeOk {a : Activity} {s t : State} (ha : a.ok s) (h : advance a s = .next t) : t.placeOk := by
  cases a with
  | nop | reserved => cases h; trivial
  | select p => cases p <;> cases h <;> trivial
  | xmit p => cases p <;> cases h <;> trivial
  | rcvr p => cases p <;> cases h <;> trivial
  | deselect p =>
    cases p with
    | release =>
      cases h
      exact goto_placeOk (sameSettings_refl (s.setCs false)) (deselectTrailerFrom_ok (Nat.le_refl _))
    | trailer n =>
      obtain ⟨-, hn⟩ := ha
      cases h
      exact goto_placeOk (sameSettings_refl s) (deselectTrailerFrom_ok (by omega))
    | finish => cases h; trivial
  | clktrain p =>
    cases p with
    | release => cases h; exact goto_placeOk (sameSettings_refl (s.setCs false)) (trainFrom_ok (Nat.le_refl _))
    | train n =>
      obtain ⟨-, hn⟩ := ha
      cases h
      exact goto_placeOk (sameSettings_refl s) (trainFrom_ok (by omega))
    | finish => cases h; trivial
  | waitready p =>
    cases p with
    | wait w =>
      have hset := waitStep_settings w s
      simp only [advance, State.waitreadyTurn] at h
      split at h <;> cases h
      · next hstep => rw [hstep] at hset; exact goto_placeOk hset (waitStep_ok hstep)
      · trivial
    | record b | finish res => cases h; trivial
  | sendcmd p =>
    cases p with
    | command q => cases h; exact commandTurn_placeOk rfl ha
    | finish res => cases h; trivial
  | sendacmd p =>
    cases p with
    | appPrefix q | command q => cases h; exact commandTurn_placeOk rfl ha
    | finish res => cases h; trivial
  | rcvrblk p =>
    cases p with
    | block q =>
      simp only [advance, State.rcvrblkTurn] at h
      split at h <;> cases h
      · next hstep => exact goto_placeOk (receiveStep_settings hstep) (receiveStep_ok ha hstep)
      · trivial
    | record ok | finish res => cases h; trivial
  | xmitblk p =>
    cases p with
    | block q =>
      simp only [advance, State.xmitblkTurn] at h
      split at h <;> cases h
      · next hstep => exact goto_placeOk (transmitStep_settings hstep) (transmitStep_ok ha hstep)
      · trivial
    | record ok | finish res => cases h; trivial
  | read p => exact readTurn_placeOk ha h
  | write p => exact writeTurn_placeOk ha h

theorem engine_placeOk {s t : State} (hs : s.placeOk) (he : engine s = .next t) : t.placeOk := by
  by_cases hb : s.busy = true
  · cases hsq : s.seq with
    | idle => rw [engine_idle (.inr hsq)] at he; cases he; exact hs
    | running a =>
      rw [engine_running hb hsq] at he
      exact advance_placeOk ((placeOk_running hsq).mp hs) he
  · rw [engine_idle (.inl (Bool.eq_false_of_not_eq_true hb))] at he; cases he; exact hs

/-- Every operation begins within its bounds. -/
theorem firstPosition_ok {i : Instr} {s : State} {a : Activity} (h : firstPosition i s = some a) : a.ok s := by
  cases i <;> cases h
  case sendcmd => exact commandStart_ok ..
  case sendacmd => exact ⟨by decide, trivial⟩
  all_goals trivial

theorem launch_placeOk {i : Instr} {s : State} {a : Activity} (c : Byte) (h : firstPosition i s = some a) :
    (s.launch c a).placeOk :=
  (placeOk_running (State.launch_seq c a s)).mpr (ok_congr (sameSettings_refl s) (firstPosition_ok h))

/-- A coherent block with BUSY = 0 is Idle (10_state.md R38). -/
theorem coherent_seq_idle {s : State} (h : s.coherent) (hb : s.busy = false) : s.seq = .idle := by
  obtain ⟨hiff, -⟩ := h
  by_contra hs
  exact Bool.false_ne_true (hb.symm.trans (hiff.mpr hs))

theorem writeReg_seq (v : Word) (r : Reg) (s : State) : (s.writeReg v r).seq = s.seq := by
  cases r <;> rfl

theorem perform_placeOk {a : Action} {s t : State} (hc : s.coherent) (h : s.placeOk) (hp : perform a s = .next t) :
    t.placeOk := by
  obtain ⟨-, he⟩ | ⟨-, rfl⟩ | ⟨-, c, b, hfirst, rfl⟩ | ⟨hb, r, v, -, rfl⟩ | ⟨v, rfl⟩ | ⟨b, v, -, rfl⟩ | ⟨-, rfl⟩ |
    ⟨-, rfl⟩ := perform_cases hp
  · exact engine_placeOk h he
  · exact placeOk_congr (State.tick_seq s) (sameSettings_refl s) h
  · exact launch_placeOk c hfirst
  · exact placeOk_idle ((writeReg_seq v r s).trans (coherent_seq_idle hc hb))
  · exact h -- a host load
  · exact h -- a host store to memory
  · exact h -- a poll
  · exact placeOk_idle rfl

/-- Settles O58: an engine step within bounds ends within bounds; a host store reaches the operands only of an Idle
block; and no other action but reset changes the place or a setting it speaks of. -/
theorem sequencerStaysInPlace : Obligations.SequencerStaysInPlace := by
  intro s t hc h hs
  obtain ⟨e, n, he⟩ := takeAction_eq s
  refine perform_placeOk (coherent_congr (s := s) ?_ ?_ ?_ hc) (placeOk_congr (s := s) ?_ ?_ h) hs <;> rw [he]
  exact sameSettings_refl s

end Sys2Proof.Machine
end

/-! ## Each step of a wait and of a command (41_command.md R130 to R137, 42_block_io.md R183, R184)

One equation for each position of a shared sub-sequence, then the step of every row that stands there. -/

section
namespace Sys2Proof.Machine

/-! ### The results of R136 and R137 -/

theorem ofBool_beq (b c : Byte) : Result.ofBool (b == c) = if b = c then .ok else .error := by
  by_cases h : b = c <;> simp [Result.ofBool, h]

/-- A response is valid when its bit 7 is clear (30_encoding.md R88). -/
theorem r1IsValid_iff (r : Byte) : r1IsValid r = true ↔ r.getLsbD 7 = false := by
  rw [r1IsValid, Bool.not_eq_true']

theorem commandResult_eq (r : Byte) : commandResult r = if r.getLsbD 7 then .error else .ok := by
  rw [commandResult, r1IsValid, Result.ofBool]
  cases r.getLsbD 7 <;> rfl

/-! ### The ready wait (R130), and in WAITREADY (R135) -/

theorem waitStep_ready {s : State} (hn : s.nextByte = 0xFF) :
    waitStep .exchange s = (.done 0xFF, s.exchange s.params.filler) := by
  rw [waitStep, if_pos hn]

theorem waitStep_notReady {s : State} (hn : s.nextByte ≠ 0xFF) :
    waitStep .exchange s = (.goOn (.sample s.nextByte), s.exchange s.params.filler) := by
  rw [waitStep, if_neg hn]

theorem waitStep_sample_zero (b : Byte) {s : State} (ht : s.tshort = 0) : waitStep (.sample b) s = (.done b, s) := by
  rw [waitStep, if_pos ht]

theorem waitStep_sample (b : Byte) {s : State} (ht : s.tshort ≠ 0) :
    waitStep (.sample b) s = (.goOn .exchange, s) := by
  rw [waitStep, if_neg ht]

theorem waitreadyTurn_exchange (s : State) :
    s.waitreadyTurn (.wait .exchange) = (s.exchange s.params.filler).goto
      (.waitready (if s.nextByte = 0xFF then .record 0xFF else .wait (.sample s.nextByte))) := by
  split
  · simp only [State.waitreadyTurn, waitStep_ready ‹_›]
  · simp only [State.waitreadyTurn, waitStep_notReady ‹_›]

theorem waitreadyTurn_sample (b : Byte) (s : State) :
    s.waitreadyTurn (.wait (.sample b)) =
      s.goto (.waitready (if s.tshort = 0 then .record b else .wait .exchange)) := by
  split
  · simp only [State.waitreadyTurn, waitStep_sample_zero b ‹_›]
  · simp only [State.waitreadyTurn, waitStep_sample b ‹_›]

theorem waitreadyTurn_record (b : Byte) (s : State) :
    s.waitreadyTurn (.record b) =
      (s.setData b).goto (.waitready (.finish (if b = 0xFF then .ok else .error))) := by
  rw [← ofBool_beq]; rfl

/-! ### The ready wait before a token, and the wait for a token (R183, R184) -/

theorem transmitStep_exchange (base : Nat) (token : Byte) (s : State) :
    transmitStep base token (.wait .exchange) s =
      .ok (.goOn (if s.nextByte = 0xFF then .token else .wait (.sample s.nextByte)), s.exchange s.params.filler) := by
  split
  · simp only [transmitStep, waitStep_ready ‹_›, if_true]
  · simp only [transmitStep, waitStep_notReady ‹_›]

theorem transmitStep_sample (base : Nat) (token b : Byte) {s : State} (ht : s.tshort ≠ 0) :
    transmitStep base token (.wait (.sample b)) s = .ok (.goOn (.wait .exchange), s) := by
  simp only [transmitStep, waitStep_sample b ht]

theorem transmitStep_sample_zero (base : Nat) (token : Byte) {b : Byte} {s : State} (ht : s.tshort = 0)
    (hb : b ≠ 0xFF) : transmitStep base token (.wait (.sample b)) s = .ok (.done false, s) := by
  simp only [transmitStep, waitStep_sample_zero b ht, if_neg hb]

theorem receiveStep_token_skipped (base : Nat) {s : State} (hn : s.nextByte = 0xFF) :
    receiveStep base .token s = .ok (.goOn .sample, s.exchange s.params.filler) := by
  simp only [receiveStep, if_pos hn]

theorem receiveStep_sample (base : Nat) {s : State} (ht : s.tshort ≠ 0) :
    receiveStep base .sample s = .ok (.goOn .token, s) := by
  rw [receiveStep, if_neg ht]

theorem receiveStep_sample_zero (base : Nat) {s : State} (ht : s.tshort = 0) :
    receiveStep base .sample s = .ok (.done false, s) := by
  rw [receiveStep, if_pos ht]

/-- Settles O16: each operation's own step, position by position. -/
theorem waitReadySteps : Obligations.WaitReadySteps := by
  intro s hb
  have xmitblk {q q' : XmtPos} {u : State} := xmitblk_transmits s.buf s.data q q' s u ⟨rfl, rfl⟩
  have rcvrblk {q q' : RcvPos} {u : State} := rcvrblk_receives s.buf s.params q q' s u rfl rfl
  refine ⟨fun hs => exec_instr hb hs, fun hs => ?_, fun b hs => ?_, fun b hs => ?_, fun res hs => ?_,
    fun hs => (exec_instr hb hs).trans (xmitblk (u := s.loadShort) rfl), fun hs => ?_, fun b ht hs => ?_,
    fun hs => (exec_instr hb hs).trans (rcvrblk (u := s.loadShort) rfl), fun hn hs => ?_, fun ht hs => ?_⟩
  · exact (exec_instr hb hs).trans (congrArg Host.Outcome.next (waitreadyTurn_exchange s))
  · exact (exec_instr hb hs).trans (congrArg Host.Outcome.next (waitreadyTurn_sample b s))
  · exact (exec_instr hb hs).trans (congrArg Host.Outcome.next (waitreadyTurn_record b s))
  · exact ⟨_, exec_instr hb hs, State.finish_busy res s, rfl⟩
  · exact (exec_instr hb hs).trans (xmitblk (transmitStep_exchange ..))
  · exact (exec_instr hb hs).trans (xmitblk (transmitStep_sample _ _ b ht))
  · exact (exec_instr hb hs).trans
      ((rcvrblk (receiveStep_token_skipped _ hn)).trans (congrArg Host.Outcome.next (exchange_goto _ _ hn)))
  · exact (exec_instr hb hs).trans (rcvrblk (receiveStep_sample _ ht))

/-! ### The positions of a command (R132, R133) -/

section
variable (a : Activity) (idx : BitVec 6) (arg : Word) (s : State)

theorem commandTurn_exchange : s.commandTurn a idx arg (.wait .exchange) =
    (s.exchange s.params.filler).goto
      (a.withCommand (if s.nextByte = 0xFF then .frame 0 else .wait (.sample s.nextByte))) := by
  split
  · simp only [State.commandTurn, commandStep, waitStep_ready ‹_›, if_true]
  · simp only [State.commandTurn, commandStep, waitStep_notReady ‹_›]

theorem commandTurn_sample {b : Byte} (hb : b ≠ 0xFF) : s.commandTurn a idx arg (.wait (.sample b)) =
    s.goto (a.withCommand (if s.tshort = 0 then .record 0xFF else .wait .exchange)) := by
  split
  · simp only [State.commandTurn, commandStep, waitStep_sample_zero b ‹_›, if_neg hb]
  · simp only [State.commandTurn, commandStep, waitStep_sample b ‹_›]

theorem frameBytes_getD (p : Params) {n : Nat} (hn : n < 6) :
    (frameBytes p idx arg).getD n 0 = frameByte p idx arg n := by
  simp [frameBytes, hn]

theorem commandTurn_frame_byte {n : Nat} (hn : n < 6) : s.commandTurn a idx arg (.frame n) =
    (s.exchange ((frameBytes s.params idx arg).getD n 0)).goto
      (a.withCommand (if n < 5 then .frame (n + 1) else afterFrame s.params idx)) := by
  have hlast : n + 1 < 6 ↔ n < 5 := by omega
  simp only [State.commandTurn, commandStep, frameBytes_getD idx arg s.params hn, hlast]

/-- The response poll ends at a valid byte, and at the last exchange of its budget. -/
theorem commandTurn_poll {n : Nat} (hn : 1 ≤ n) : s.commandTurn a idx arg (.poll n) =
    (s.exchange s.params.filler).goto (a.withCommand
      (if s.nextByte.getLsbD 7 = false ∨ n = 1 then .record s.nextByte else .poll (n - 1))) := by
  have hlast : n ≤ 1 ↔ n = 1 := by omega
  simp only [State.commandTurn, commandStep, r1IsValid_iff, hlast]

/-- The stop variant ends at the last exchange of its budget alone. -/
theorem commandTurn_stopPoll {n : Nat} (last : Byte) (hn : 1 ≤ n) : s.commandTurn a idx arg (.stopPoll n last) =
    (s.exchange s.params.filler).goto (a.withCommand
      (if n = 1 then .record (if s.nextByte = 0xFF then last else s.nextByte)
       else .stopPoll (n - 1) (if s.nextByte = 0xFF then last else s.nextByte))) := by
  have hlast : n - 1 = 0 ↔ n = 1 := by omega
  simp only [State.commandTurn, commandStep, stopPollFrom, hlast]

/-- What an operation does after its command does not depend on the R1 just written. -/
theorem commandTurn_record (r : Byte) : s.commandTurn a idx arg (.record r) =
    (s.setR1 r).goto (a.afterCommand r s) := rfl

end

/-- The row of a frame is its command's step, whether or not the index has another row of its own. -/
theorem exec_of_frame? {i : Instr} {idx : BitVec 6} {arg : Word} (h : i.frame? = some (idx, arg)) (s : State) :
    exec i s = s.wireCommand idx arg := by
  cases i <;> cases h <;> rfl

/-- Settles O23: a row where its command stands is the command's step there. -/
theorem commandRowsStep : Obligations.CommandRowsStep := by
  intro i idx arg a p s hframe hb hs hc
  have hrow : exec i s = .next (s.commandTurn a idx arg p) :=
    (exec_of_frame? hframe s).trans (wireCommand_at hb hs hc)
  rw [hrow]
  refine ⟨?_, ?_, ?_, ?_, ?_, ?_, ?_⟩
  · rintro rfl; rfl
  · rintro rfl; exact congrArg Host.Outcome.next (commandTurn_exchange a idx arg s)
  · rintro b hne rfl; exact congrArg Host.Outcome.next (commandTurn_sample a idx arg s hne)
  · rintro n hn rfl; exact congrArg Host.Outcome.next (commandTurn_frame_byte a idx arg s hn)
  · rintro n hn rfl; exact congrArg Host.Outcome.next (commandTurn_poll a idx arg s hn)
  · rintro n last hn rfl; exact congrArg Host.Outcome.next (commandTurn_stopPoll a idx arg s last hn)
  · rintro r rfl; rfl

/-- What SENDACMD makes of the response to its index-55 command (R134, R137, R139). -/
theorem afterCommand_appPrefix (q : CmdPos) (p : Byte) (s : State) :
    (Activity.sendacmd (.appPrefix q)).afterCommand p s = .sendacmd
      (if p ≤ s.params.idleR1 then .command (commandStart s.commandIndex) else .finish (commandResult p)) := by
  simp only [Activity.afterCommand, prefixAccepted, decide_eq_true_iff]
  split <;> rfl

/-- Settles O21: the write of R1, and what SENDACMD makes of the response. -/
theorem sendacmdPrefixDecides : Obligations.SendacmdPrefixDecides := by
  intro s p hb hs
  rw [← commandResult_eq]
  refine (exec_instr hb hs).trans (congrArg Host.Outcome.next ?_)
  exact (commandTurn_record _ 55 0 s p).trans (congrArg (State.goto · (s.setR1 p)) (afterCommand_appPrefix ..))

/-! ### A wait that fails (R130, R183, R184, R188, R189, 43_timer.md R213) -/

/-- The last three steps of an operation whose wait failed: the sample, the record, `finish`. -/
theorem failed_wait_run {a b c : Activity} {s u : State} {res : Result} (hb : s.busy = true)
    (hs : s.seq = .running a) (hsample : advance a s = .next (s.goto b))
    (hrecord : advance b (s.goto b) = .next (u.goto c)) (hu : u.busy = true)
    (hfinish : advance c (u.goto c) = .next ((u.goto c).finish res)) :
    engineRun 3 s = .next ((u.goto c).finish res) :=
  have hlast : engine (u.goto c) = .next ((u.goto c).finish res) := (engine_running (by exact hu) rfl).trans hfinish
  run_step hb hs hsample (run_step hb rfl hrecord (engineRun_one hlast))

/-- A failed block ends READ's loop (R188). -/
theorem afterReadBlock_failed (k : Nat) (s : State) :
    s.afterReadBlock k false = if s.cnt = 1 then .release 0 else .stop k (.frame 0) := by
  by_cases h : s.cnt = 1 <;> simp [State.afterReadBlock, State.single, commandStart, h]

/-- And WRITE's (R189). -/
theorem afterWriteBlock_failed (k : Nat) (s : State) :
    s.afterWriteBlock k false = if s.cnt = 1 then .release 0 false else .stopWait k .load := by
  by_cases h : s.cnt = 1 <;> simp [State.afterWriteBlock, State.single, h]

/-- Settles O18: the sample of 0 ends each wait, and the operation's next steps record the failure. -/
theorem waitFailsWhenTheCounterIsZero : Obligations.WaitFailsWhenTheCounterIsZero := by
  intro s b hb ht hne
  refine ⟨fun hs => ?_, fun hs => ?_, fun hs => ?_, fun hs => ?_, fun k hs => ?_, fun k hs => ?_⟩
  · have hsample : advance (.waitready (.wait (.sample b))) s = .next (s.goto (.waitready (.record b))) := by
      rw [advance, waitreadyTurn_sample, if_pos ht]
    have hrecord : ∀ u : State, advance (.waitready (.record b)) u =
        .next ((u.setData b).goto (.waitready (.finish .error))) := fun u => by
      rw [advance, waitreadyTurn_record, if_neg hne]
    exact ⟨_, failed_wait_run hb hs hsample (hrecord _) hb rfl, State.finish_busy .., rfl⟩
  · have hsample : advance (.sendcmd (.command (.wait (.sample b)))) s =
        .next (s.goto (.sendcmd (.command (.record 0xFF)))) :=
      (advance_command rfl).trans (by rw [commandTurn_sample _ _ _ _ hne, if_pos ht]; rfl)
    exact ⟨_, failed_wait_run (u := (s.goto _).setR1 0xFF) hb hs hsample rfl hb rfl, State.finish_busy .., rfl⟩
  · have hsample : advance (.rcvrblk (.block .sample)) s = .next (s.goto (.rcvrblk (.record false))) := by
      simp only [advance, State.rcvrblkTurn, receiveStep_sample_zero _ ht]
    exact ⟨_, failed_wait_run (u := (s.goto _).setBlkdone 0) hb hs hsample rfl hb rfl, State.finish_busy .., rfl⟩
  · have hsample : advance (.xmitblk (.block (.wait (.sample b)))) s = .next (s.goto (.xmitblk (.record false))) := by
      simp only [advance, State.xmitblkTurn, transmitStep_sample_zero _ _ ht hne]
    exact ⟨_, failed_wait_run (u := (s.goto _).setBlkdone 0) hb hs hsample rfl hb rfl, State.finish_busy .., rfl⟩
  · refine (exec_instr hb hs).trans ?_
    simp only [advance, State.readTurn, receiveStep_sample_zero _ ht, afterReadBlock_failed]
    rfl
  · refine (exec_instr hb hs).trans ?_
    simp only [advance, State.writeTurn, transmitStep_sample_zero _ _ ht hne, afterWriteBlock_failed]
    rfl

/-! ### What a command's row leaves unchanged -/

/-- The rows of a frame and of its response make one step of the command that stands there. -/
theorem exec_wireRow {i : Instr} {s t : State} (hi : (∃ f, i.frame? = some f) ∨ ∃ e, i = .r1Valid e)
    (h : exec i s = .next t) : ∃ a idx arg p, t = s.commandTurn a idx arg p := by
  obtain ⟨⟨idx, arg⟩, hf⟩ | ⟨e, rfl⟩ := hi
  · rw [exec_of_frame? hf, State.wireCommand] at h
    split_ifs at h
    split at h
    · split at h
      · split_ifs at h; cases h; exact ⟨_, _, _, _, rfl⟩
      · cases h
    · cases h
  · simp only [exec, execR1Valid] at h
    split_ifs at h
    split at h
    · split at h
      · cases h; exact ⟨_, _, _, _, rfl⟩
      · cases h
    · cases h

/-- SENDCMD's and SENDACMD's rows start the operation, make one step of its command, or finish it. -/
theorem exec_commandOperation {i : Instr} {s t : State} (hi : i = .sendcmd ∨ i = .sendacmd) (h : exec i s = .next t) :
    (s.busy = false ∧ ∃ c a, t = s.launch c a) ∨ (∃ a idx arg p, t = s.commandTurn a idx arg p) ∨
      ∃ res, t = s.finish res := by
  have hspace : i.space = .opr := by obtain rfl | rfl := hi <;> rfl
  obtain hstart | ⟨-, a, -, ha, u, rfl⟩ := exec_operation h hspace
  · exact .inl hstart
  · refine .inr ?_
    cases a with
    | sendcmd p =>
      cases p with
      | command q => cases ha; exact .inl ⟨_, _, _, _, rfl⟩
      | finish res => cases ha; exact .inr ⟨_, rfl⟩
    | sendacmd p =>
      cases p with
      | appPrefix q | command q => cases ha; exact .inl ⟨_, _, _, _, rfl⟩
      | finish res => cases ha; exact .inr ⟨_, rfl⟩
    | _ => simp [Activity.instr] at hi

/-- Settles O53: a command's step writes T_SHORT, R1, the bus and the sequencer; the start and `finish` also write OPR,
BUSY and RESULT. -/
theorem commandFrame : Obligations.CommandFrame := by
  intro i s t hi h
  obtain hop | hrow := or_assoc.mpr hi
  · have hnot : i ≠ .sendcmd → i ≠ .sendacmd → False := fun h1 h2 => hop.elim h1 h2
    obtain ⟨hb, c, a, rfl⟩ | ⟨a, idx, arg, p, rfl⟩ | ⟨res, rfl⟩ := exec_commandOperation hop h
    · simpa [hb] using ⟨setBit0_high s.stat true, fun h1 h2 => (hnot h1 h2).elim⟩
    · obtain ⟨ts, r, c, b, q, hframe⟩ := commandTurn_frame a idx arg p s
      simp [hframe]
    · simpa using ⟨setBit0_high s.stat false, fun h1 h2 => (hnot h1 h2).elim⟩
  · obtain ⟨a, idx, arg, p, rfl⟩ := exec_wireRow hrow h
    obtain ⟨ts, r, c, b, q, hframe⟩ := commandTurn_frame a idx arg p s
    simp [hframe]

end Sys2Proof.Machine
end

/-! ## Whole waits and whole commands (41_command.md R130 to R137, 43_timer.md R211 to R216) -/

section
namespace Sys2Proof.Machine

theorem fillers_length (p : Params) (n : Nat) : (fillers p n).length = n := List.length_replicate

/-! ### Places that wait -/

/-- Where an operation waits for a byte: `waiting` is the place of the exchange, `sampling b` that of the sample after a
byte it does not await, `failed b` where a sample of 0 leads (R130, 42_block_io.md R183). -/
structure Waits (waiting : Activity) (sampling failed : Byte → Activity) (skipped : Byte → Prop) : Prop where
  exchange (s : State) : skipped s.nextByte →
    advance waiting s = .next ((s.exchange s.params.filler).goto (sampling s.nextByte))
  goesOn (b : Byte) (s : State) : s.tshort ≠ 0 → advance (sampling b) s = .next (s.goto waiting)
  fails (b : Byte) (s : State) : s.tshort = 0 → advance (sampling b) s = .next (s.goto (failed b))

theorem waitready_waits : Waits (.waitready (.wait .exchange)) (fun b => .waitready (.wait (.sample b)))
    (fun b => .waitready (.record b)) (· ≠ 0xFF) where
  exchange s hn := by rw [advance, waitreadyTurn_exchange, if_neg hn]
  goesOn b s ht := by rw [advance, waitreadyTurn_sample, if_neg ht]
  fails b s ht := by rw [advance, waitreadyTurn_sample, if_pos ht]

theorem rcvrblk_waits : Waits (.rcvrblk (.block .token)) (fun _ => .rcvrblk (.block .sample))
    (fun _ => .rcvrblk (.record false)) (· = 0xFF) where
  exchange s hn := rcvrblk_receives s.buf s.params _ _ s _ rfl rfl (receiveStep_token_skipped _ hn)
  goesOn b s ht := rcvrblk_receives s.buf s.params _ _ s _ rfl rfl (receiveStep_sample _ ht)
  fails b s ht := by simp only [advance, State.rcvrblkTurn, receiveStep_sample_zero _ ht]

/-- STAT as the start of an operation left it. -/
theorem busy_of_started {s u : State} (hstat : u.stat = setBit0 s.stat true) : u.busy = true := by
  rw [State.busy, hstat, setBit0_getLsbD_zero]

/-- WAITREADY's last steps: the ready byte, DATA, `finish(Ok)` (R135). -/
theorem waitready_ready_run {s u : State} {rest : List Byte} (hb : s.busy = false)
    (hstat : u.stat = setBit0 s.stat true) (hseq : u.seq = .running (.waitready (.wait .exchange)))
    (hk : u.card = 0xFF :: rest) : engineRun 3 u = .next { u with
      data := 0xFF, result := 0x00, stat := s.stat, seq := .idle, card := rest
      bus := u.bus ++ [.xfer u.csa u.clksel u.params.filler 0xFF] } := by
  have hu := busy_of_started hstat
  have hn : u.nextByte = 0xFF := nextByte_cons hk
  have hready : advance (.waitready (.wait .exchange)) u =
      .next ((u.exchange u.params.filler).goto (.waitready (.record 0xFF))) := by
    rw [advance, waitreadyTurn_exchange, if_pos hn]
  refine (run_step hu hseq hready (run_step hu rfl rfl (run_finish .ok hb hstat rfl rfl))).trans ?_
  simp only [State.exchange, State.goto, hn, hk]
  rfl

/-- Settles O17: the load, the bytes the wait skips, then the ready one. -/
theorem waitReadySucceeds : Obligations.WaitReadySucceeds := by
  intro s notReady rest hb hload hk hall
  have hbusy := State.launch_busy 0x10 (.waitready (.wait .load)) s
  have hskip := wait_run waitready_waits.exchange waitready_waits.goesOn notReady
    (s := (s.launch 0x10 (.waitready (.wait .load))).loadShort.goto (.waitready (.wait .exchange)))
    (tail := 0xFF :: rest) hbusy rfl (.inr hload) hk hall
  refine runsTo_of_launch rfl hb rfl rfl ?_
  refine (run_step hbusy rfl rfl (run_trans hskip (waitready_ready_run hb rfl rfl rfl))).trans ?_
  rw [fillers_add, exchanges_append _ _ (fillers_length ..), ← List.append_assoc]
  rfl

/-! ### Commands of SENDCMD and SENDACMD (R136, R137) -/

theorem commandResult_code (r : Byte) : (commandResult r).code = if r.getLsbD 7 then 0x01 else 0x00 := by
  rw [commandResult_eq, apply_ite Result.code]; rfl

/-- The write of a command's response, and where its operation goes on. -/
theorem engine_record {a b : Activity} {u : State} {idx : BitVec 6} {arg : Word} {r : Byte} (hu : u.busy = true)
    (hseq : u.seq = .running a) (hc : a.command? u = some (idx, arg, .record r)) (hafter : a.afterCommand r u = b) :
    engine u = .next ((u.setR1 r).goto b) := by
  rw [engine_command hu hseq hc, commandTurn_record, hafter]

/-- The last two steps of SENDCMD and SENDACMD: R1, then `finish` with the response's result. -/
theorem record_finish_run {a b : Activity} {s u : State} {idx : BitVec 6} {arg : Word} {r : Byte} (hb : s.busy = false)
    (hstat : u.stat = setBit0 s.stat true) (hseq : u.seq = .running a)
    (hc : a.command? u = some (idx, arg, .record r)) (hafter : a.afterCommand r u = b)
    (hfinish : ∀ v : State, advance b v = .next (v.finish (commandResult r))) :
    engineRun 2 u = .next { u with
      r1 := r, result := if r.getLsbD 7 then 0x01 else 0x00, stat := s.stat, seq := .idle } := by
  have hu := busy_of_started hstat
  rw [engineRun_succ (engine_record hu hseq hc hafter), ← commandResult_code]
  exact run_finish (u := (u.setR1 r).goto b) _ hb hstat rfl (hfinish _)

/-- A command's first position is its ready wait, but for the stop variant (R132, R133). -/
theorem commandStart_wait {idx : BitVec 6} (h : idx ≠ 12) : commandStart idx = .wait .load := if_neg h

theorem commandStart_stop : commandStart 12 = .frame 0 := if_pos rfl

/-- A whole SendCmd of an index other than 12 that its operation ends with, to a card that is ready at once: from the
ready wait to the Idle block. -/
theorem sendCmd_finish_run {a b : Activity} {s u : State} {idx : BitVec 6} {arg : Word} {junk invalid tail : List Byte}
    {r : Byte} (hb : s.busy = false) (hstat : u.stat = setBit0 s.stat true)
    (hseq : u.seq = .running (a.withCommand (.wait .load)))
    (hc : (a.withCommand (.wait .load)).command? u = some (idx, arg, .wait .load)) (hidx : idx ≠ 12)
    (hk : u.card = 0xFF :: (junk ++ (invalid ++ r :: tail))) (hj : junk.length = 6)
    (hbad : ∀ x ∈ invalid, r1IsValid x = false)
    (hr : r1IsValid r = true ∧ invalid.length < u.params.respPoll ∨ invalid.length + 1 = u.params.respPoll)
    (hafter : ∀ v : State, (a.withCommand (.record r)).afterCommand r v = b)
    (hfinish : ∀ v : State, advance b v = .next (v.finish (commandResult r))) :
    engineRun (invalid.length + 11) u = .next { u with
      tshort := shortLoad u.params, r1 := r, result := if r.getLsbD 7 then 0x01 else 0x00
      stat := s.stat, seq := .idle, card := tail
      bus := u.bus ++ exchanges u.csa u.clksel
        (u.params.filler :: (frameBytes u.params idx arg ++ fillers u.params (invalid.length + 1)))
        (0xFF :: (junk ++ (invalid ++ [r]))) } := by
  have hu := busy_of_started hstat
  exact run_trans (m := invalid.length + 9) (sendCmd_run hu hseq hc hidx hk hj hbad hr)
    (record_finish_run hb hstat rfl (command_at hc _ rfl rfl rfl rfl rfl) (hafter _) hfinish)

/-- Settles O19: the start, then the whole SendCmd up to `finish`. -/
theorem sendcmdTransaction : Obligations.SendcmdTransaction := by
  intro s junk invalid rest r hb hidx hk hj hbad hr
  have hfirst : firstPosition .sendcmd s = some (.sendcmd (.command (.wait .load))) := by
    rw [firstPosition, commandStart_wait hidx]
  have hinvalid : ∀ x ∈ invalid, r1IsValid x = false := fun x hx => by rw [r1IsValid, hbad x hx]; rfl
  rw [← r1IsValid_iff] at hr
  refine runsTo_of_launch rfl hb rfl hfirst ?_
  rw [encode_commandRow]
  exact sendCmd_finish_run (a := .sendcmd (.command (.wait .load))) hb rfl rfl rfl hidx hk hj hinvalid hr
    (fun _ => rfl) fun _ => rfl

/-- Settles O20: the start, the whole StopCmd, R1 and `finish`. -/
theorem sendcmdStopTransaction : Obligations.SendcmdStopTransaction := by
  intro s junk polled rest hb hidx hk hj hp
  have hfirst : firstPosition .sendcmd s = some (.sendcmd (.command (.frame 0))) := by
    rw [firstPosition, hidx, commandStart_stop]
  have hplace : (Activity.sendcmd (.command (.frame 0))).command? s = some (12, s.arg, .frame 0) := by
    rw [← hidx]; rfl
  have hcommand := stopCmd_run (a := .sendcmd (.command (.frame 0)))
    (s := s.launch 0x11 (.sendcmd (.command (.frame 0)))) (State.launch_busy ..) rfl hplace hk hj hp
  refine runsTo_of_launch rfl hb rfl hfirst (run_trans (m := s.params.stopBudget + 6) (n := 2) hcommand ?_)
  exact record_finish_run (b := .sendcmd (.finish (commandResult (lastNonFiller polled)))) hb rfl rfl rfl rfl
    fun _ => rfl

/-- SENDACMD's index-55 command to a card that is ready at once and accepts it at once (R134). -/
theorem appPrefix_run {u : State} {junk tail : List Byte} {p : Byte} (hu : u.busy = true)
    (hseq : u.seq = .running (.sendacmd (.appPrefix (.wait .load)))) (hk : u.card = 0xFF :: (junk ++ p :: tail))
    (hj : junk.length = 6) (hpoll : 0 < u.params.respPoll) (hp : p ≤ u.params.idleR1) (hv : r1IsValid p = true) :
    engineRun 10 u = .next { u with
      tshort := shortLoad u.params, r1 := p, card := tail
      seq := .running (.sendacmd (.command (commandStart u.commandIndex)))
      bus := u.bus ++ exchanges u.csa u.clksel
        (u.params.filler :: (frameBytes u.params 55 0 ++ [u.params.filler])) (0xFF :: (junk ++ [p])) } := by
  have hcommand := sendCmd_run (a := .sendacmd (.appPrefix (.wait .load))) (invalid := []) hu hseq rfl (by decide) hk hj
    (List.forall_mem_nil _) (.inl ⟨hv, hpoll⟩)
  exact run_trans (m := 9) (n := 1) hcommand
    (engineRun_one (engine_record hu rfl rfl ((afterCommand_appPrefix ..).trans (congrArg _ (if_pos hp)))))

/-- Settles O22: the start, the index-55 command, then the command's own SendCmd up to `finish`. -/
theorem sendacmdTransaction : Obligations.SendacmdTransaction := by
  intro s junk junk' rest p r hb hidx hpoll hk hj hj' hp hpv hrv
  have hpos := Nat.pos_of_ne_zero hpoll
  have hprefix := appPrefix_run (State.launch_busy 0x12 (.sendacmd (.appPrefix (.wait .load))) s) rfl hk hj hpos hp
    ((r1IsValid_iff p).mpr hpv)
  refine runsTo_of_launch rfl hb rfl rfl (run_trans (m := 10) (n := 11) hprefix ?_)
  have hseq : Activity.sendacmd (.command (commandStart s.commandIndex)) = .sendacmd (.command (.wait .load)) := by
    rw [commandStart_wait hidx]
  have hlen : (s.params.filler :: (frameBytes s.params 55 0 ++ [s.params.filler])).length =
      ((0xFF : Byte) :: (junk ++ [p])).length := by
    simp [hj, frameBytes]
  have hsent : s.params.filler :: (encode s.params (.appCmd 0) ++ s.params.filler :: s.params.filler ::
      (encode s.params (commandRow s.commandIndex s.arg) ++ [s.params.filler])) =
      s.params.filler :: (frameBytes s.params 55 0 ++ [s.params.filler]) ++
        s.params.filler :: (frameBytes s.params s.commandIndex s.arg ++ fillers s.params 1) := by
    rw [encode_commandRow]; simp [encode, fillers]
  have hreceived : (0xFF : Byte) :: (junk ++ p :: 0xFF :: (junk' ++ [r])) =
      0xFF :: (junk ++ [p]) ++ 0xFF :: (junk' ++ [r]) := by
    simp
  have hresult : (if r.getLsbD 7 then 0x01 else 0x00 : Byte) = 0x00 := by rw [hrv]; rfl
  rw [hsent, hreceived, exchanges_append _ _ hlen, ← List.append_assoc, ← hresult]
  exact sendCmd_finish_run (a := .sendacmd (.command (.wait .load))) (invalid := []) hb rfl
    (congrArg Seq.running hseq) rfl hidx rfl hj' (List.forall_mem_nil _) (.inl ⟨(r1IsValid_iff r).mpr hrv, hpos⟩)
    (fun _ => rfl) fun _ => rfl

end Sys2Proof.Machine
end

/-! ## Ticks in a wait (43_timer.md R211, R213, R214, R216) -/

section
namespace Sys2Proof.Machine

/-! ### Ticks -/

/-- Ticks count down both counters, and touch nothing else (R214). -/
theorem ticks_eq : ∀ (n : Nat) (s : State),
    ticks n s = { s with tshort := countDown^[n] s.tshort, tlong := countDown^[n] s.tlong }
  | 0, _ => rfl
  | n + 1, s => ticks_eq n s.tick

theorem countDown_iterate_toNat : ∀ (n : Nat) (c : Byte), (countDown^[n] c).toNat = c.toNat - n
  | 0, _ => rfl
  | n + 1, c => by
    rw [Function.iterate_succ_apply, countDown_iterate_toNat n, countDown_toNat, Nat.sub_sub, Nat.add_comm 1]

theorem countDown_iterate_eq_zero_iff (n : Nat) (c : Byte) : countDown^[n] c = 0 ↔ c.toNat ≤ n := by
  rw [← BitVec.toNat_inj, countDown_iterate_toNat, ← Nat.sub_eq_zero_iff_le]; rfl

/-! ### Schedules -/

theorem ticksIn_cons (x : Nat × Nat) (l : List (Nat × Nat)) : ticksIn (x :: l) = x.1 + x.2 + ticksIn l := rfl

theorem waitSchedule_append (l m : List (Nat × Nat)) : waitSchedule (l ++ m) = waitSchedule l ++ waitSchedule m := by
  induction l with
  | nil => rfl
  | cons x l ih => simp [waitSchedule, ih]

/-- Where a tick falls in every iteration there are at most as many iterations as ticks (log entry 23). -/
theorem length_le_ticksIn : ∀ {l : List (Nat × Nat)}, (∀ x ∈ l, 1 ≤ x.1 + x.2) → l.length ≤ ticksIn l
  | [], _ => Nat.le_refl 0
  | x :: l, h => by
    have hx := h x List.mem_cons_self
    have hl := length_le_ticksIn fun y hy => h y (List.mem_cons_of_mem x hy)
    rw [List.length_cons, ticksIn_cons]
    omega

/-- Ticks, then the engine's turn. -/
theorem steps_ticks_engine {n : Nat} {s u : State} {a : Activity} {later : List Action} (hb : s.busy = true)
    (hs : s.seq = .running a) (he : s.env = List.replicate n .tick ++ .engine :: later)
    (h : advance a { s with
      tshort := countDown^[n] s.tshort, tlong := countDown^[n] s.tlong, env := later } = .next u) :
    steps (n + 1) s = .next u := by
  have hticks : steps n s = .next { s with
      tshort := countDown^[n] s.tshort, tlong := countDown^[n] s.tlong, env := .engine :: later } := by
    rw [steps_ticks he, ticks_eq]
  refine (steps_add hticks).trans (steps_succ ?_)
  rw [step_engine (a := a) (rest := later) rfl (by exact hb) (by exact hs)]
  exact h

/-! ### One iteration of a wait, and a schedule of them -/

section
variable {waiting : Activity} {sampling failed : Byte → Activity} {skipped : Byte → Prop}
  (hw : Waits waiting sampling failed skipped)
include hw

/-- The sample goes back to the exchange while T_SHORT is not 0. -/
theorem Waits.sample (b : Byte) (s : State) :
    advance (sampling b) s = .next (s.goto (if s.tshort = 0 then failed b else waiting)) := by
  split
  · exact hw.fails b s ‹_›
  · exact hw.goesOn b s ‹_›

/-- An iteration: some ticks, an exchange that receives a byte the wait does not await, some ticks, the sample. -/
theorem Waits.iteration {s : State} {i : Nat × Nat} {b : Byte} {tail : List Byte} {later : List Action}
    (hb : s.busy = true) (hs : s.seq = .running waiting) (he : s.env = waitSchedule [i] ++ later)
    (hk : s.card = b :: tail) (hskip : skipped b) :
    steps (waitSchedule [i]).length s = .next { s with
      tshort := countDown^[i.2 + i.1] s.tshort, tlong := countDown^[i.2 + i.1] s.tlong, env := later, card := tail
      bus := s.bus ++ [.xfer s.csa s.clksel s.params.filler b]
      seq := .running (if countDown^[i.2 + i.1] s.tshort = 0 then failed b else waiting) } := by
  have hn : s.nextByte = b := nextByte_cons hk
  have hlength : (waitSchedule [i]).length = (i.1 + 1) + (i.2 + 1) := by simp [waitSchedule]; omega
  have hexchange : steps (i.1 + 1) s = .next { s with
      tshort := countDown^[i.1] s.tshort, tlong := countDown^[i.1] s.tlong
      env := List.replicate i.2 .tick ++ .engine :: later, card := tail
      bus := s.bus ++ [.xfer s.csa s.clksel s.params.filler b], seq := .running (sampling b) } := by
    refine steps_ticks_engine (later := List.replicate i.2 .tick ++ .engine :: later) hb hs
      (by simp [he, waitSchedule]) ?_
    rw [hw.exchange _ (by exact hn ▸ hskip)]
    simp only [State.exchange, State.goto, State.nextByte, hk]
    rfl
  rw [hlength, steps_add hexchange, Function.iterate_add_apply, Function.iterate_add_apply]
  exact steps_ticks_engine (by exact hb) rfl rfl (hw.sample b _)

/-- Iterations that together bring fewer ticks than T_SHORT holds: one exchange and one sample each, and the wait goes
on. -/
theorem Waits.schedule {tail : List Byte} {later : List Action} : ∀ (l : List (Nat × Nat)) {s : State}
    {bytes : List Byte},
    s.busy = true → s.seq = .running waiting → s.env = waitSchedule l ++ later → s.card = bytes ++ tail →
    bytes.length = l.length → (∀ b ∈ bytes, skipped b) → ticksIn l < s.tshort.toNat →
      steps (waitSchedule l).length s = .next { s with
        tshort := countDown^[ticksIn l] s.tshort, tlong := countDown^[ticksIn l] s.tlong, env := later, card := tail
        bus := s.bus ++ exchanges s.csa s.clksel (fillers s.params l.length) bytes } := by
  intro l
  induction l with
  | nil =>
    intro s bytes _ _ he hk hlen _ _
    obtain rfl : bytes = [] := List.eq_nil_of_length_eq_zero hlen
    obtain rfl : s.env = later := he
    obtain rfl : s.card = tail := hk
    simp only [exchanges, List.zipWith_nil_right, List.append_nil]
    rfl
  | cons i l ih =>
    intro s bytes hb hs he hk hlen hskip hticks
    obtain ⟨b, bytes, rfl⟩ := List.exists_cons_of_length_eq_add_one hlen
    have hsum : ticksIn (i :: l) = ticksIn l + (i.2 + i.1) := by rw [ticksIn_cons]; omega
    have hsplit : waitSchedule (i :: l) = waitSchedule [i] ++ waitSchedule l := waitSchedule_append [i] l
    have hleft : ¬ countDown^[i.2 + i.1] s.tshort = 0 := by rw [countDown_iterate_eq_zero_iff]; omega
    have hfirst := hw.iteration (later := waitSchedule l ++ later) hb hs (by rw [he, hsplit, List.append_assoc]) hk
      (hskip b List.mem_cons_self)
    rw [if_neg hleft] at hfirst
    rw [hsplit, List.length_append, steps_add hfirst, ih (by exact hb) rfl rfl rfl (Nat.succ.inj hlen)
      (fun c hc => hskip c (List.mem_cons_of_mem b hc)) (by rw [countDown_iterate_toNat]; omega)]
    simp only [hsum, Function.iterate_add_apply, List.length_cons, fillers, List.replicate_succ, exchanges_cons,
      List.append_assoc, hs]
    rfl

/-- The iteration that brings the ticks to what T_SHORT held ends the wait, its sample being 0. -/
theorem Waits.schedule_fails {tail : List Byte} {later : List Action} {l : List (Nat × Nat)} {last : Nat × Nat}
    {s : State} {bytes : List Byte} {b : Byte} (hb : s.busy = true) (hs : s.seq = .running waiting)
    (he : s.env = waitSchedule l ++ waitSchedule [last] ++ later) (hk : s.card = bytes ++ b :: tail)
    (hlen : bytes.length = l.length) (hskip : ∀ x ∈ bytes ++ [b], skipped x) (hbefore : ticksIn l < s.tshort.toNat)
    (hlast : s.tshort.toNat ≤ ticksIn (l ++ [last])) :
    steps (waitSchedule (l ++ [last])).length s = .next { s with
      tshort := 0, tlong := countDown^[ticksIn (l ++ [last])] s.tlong, env := later, card := tail
      seq := .running (failed b)
      bus := s.bus ++ exchanges s.csa s.clksel (fillers s.params (l.length + 1)) (bytes ++ [b]) } := by
  have hsum : ticksIn (l ++ [last]) = last.2 + last.1 + ticksIn l := by
    simp [ticksIn]; omega
  have hzero : countDown^[ticksIn (l ++ [last])] s.tshort = 0 := (countDown_iterate_eq_zero_iff ..).mpr hlast
  have hgoes := hw.schedule (later := waitSchedule [last] ++ later) l hb hs (by rw [he, List.append_assoc]) hk hlen
    (fun x hx => hskip x (List.mem_append_left _ hx)) hbefore
  have hends := hw.iteration (i := last) (later := later) (b := b) (tail := tail)
    (s := { s with
      tshort := countDown^[ticksIn l] s.tshort, tlong := countDown^[ticksIn l] s.tlong
      env := waitSchedule [last] ++ later, card := b :: tail
      bus := s.bus ++ exchanges s.csa s.clksel (fillers s.params l.length) bytes })
    hb hs rfl rfl (hskip b (by simp))
  simp only [← Function.iterate_add_apply, ← hsum, hzero, if_true] at hends
  have hfill : (fillers s.params l.length).length = bytes.length := (fillers_length ..).trans hlen.symm
  rw [waitSchedule_append, List.length_append, steps_add hgoes, hends, fillers_add, exchanges_append _ _ hfill,
    ← List.append_assoc]
  rfl

end

/-- Settles O42: the ticks of a schedule count T_SHORT down, and the sample of 0 ends the wait wherever it stands. -/
theorem ticksSaturateAndEndTheWaits : Obligations.TicksSaturateAndEndTheWaits := by
  refine ⟨fun n s => ?_, fun s l last bytes rest b later waiting failed hb hload hplace hs hk hlen he hbefore => ?_⟩
  · rw [ticks_eq]
    exact ⟨countDown_iterate_toNat n _, countDown_iterate_toNat n _, rfl⟩
  · rw [← hload] at hbefore ⊢
    obtain ⟨sampling, failedAt, skipped, hw, rfl, hskip⟩ :
        ∃ sampling failedAt skipped, Waits waiting sampling failedAt skipped ∧ failed = failedAt b ∧
          ∀ x ∈ bytes ++ [b], skipped x := by
      obtain ⟨rfl, rfl, hskip⟩ | ⟨rfl, rfl, hskip⟩ := hplace
      · exact ⟨_, _, _, waitready_waits, rfl, hskip⟩
      · exact ⟨_, _, _, rcvrblk_waits, rfl, hskip⟩
    refine ⟨?_, fun hlast => ⟨⟨_, hw.schedule_fails hb hs he hk hlen hskip hbefore hlast, rfl⟩, fun htick => ?_⟩⟩
    · refine ⟨_, hw.schedule l hb hs (he.trans (List.append_assoc ..)) hk hlen
        (fun x hx => hskip x (List.mem_append_left _ hx)) hbefore, countDown_iterate_toNat .., rfl⟩
    · cases hall : l ++ [last] with
      | nil => exact Nat.zero_le _
      | cons first others =>
        rw [hall] at htick
        have hothers := length_le_ticksIn htick
        rw [List.length_cons, ticksIn_cons]
        rw [List.tail_cons] at hothers
        omega

end Sys2Proof.Machine
end

/-! ## The steps of READ and WRITE, position by position (42_block_io.md R180 to R185, R188, R189) -/

section
namespace Sys2Proof.Machine

/-! ### The card address (R180) and the single-block forms -/

/-- CTYPE's two bits, masked in the register or taken out of it. -/
theorem ctype_masked_iff (s : State) (x : BitVec 2) : s.ctype &&& 0x03 = x.zeroExtend 8 ↔ s.cardType = x := by
  have key : ∀ (c : Byte) (x : BitVec 2), c &&& 0x03 = x.zeroExtend 8 ↔ c.truncate 2 = x := by decide
  exact key s.ctype x

/-- Settles O32: multiplication of words is multiplication modulo 2^32. -/
theorem cardAddressOfSector : Obligations.CardAddressOfSector := by
  intro s
  have hblock : s.ctype &&& 0x03 = 0x03 ↔ s.cardType = 3#2 := ctype_masked_iff s 3#2
  refine ⟨fun h => if_pos (hblock.mp h), fun h => ?_⟩
  rw [State.cardAddress, cardAddr, if_neg (mt hblock.mpr h), BitVec.toNat_mul, BitVec.toNat_ofNat, Nat.mul_mod_mod]

theorem readIndex_eq (s : State) : s.readIndex = if s.cnt = 1 then 17 else 18 := by
  by_cases h : s.cnt = 1 <;> simp [State.readIndex, State.single, h]

theorem writeIndex_eq (s : State) : s.writeIndex = if s.cnt = 1 then 24 else 25 := by
  by_cases h : s.cnt = 1 <;> simp [State.writeIndex, State.single, h]

theorem readIndex_ne_stop (s : State) : s.readIndex ≠ 12 := by
  rw [readIndex_eq]; split <;> decide

theorem writeIndex_ne_stop (s : State) : s.writeIndex ≠ 12 := by
  rw [writeIndex_eq]; split <;> decide

theorem commandRow_readIndex (s : State) (arg : Word) : commandRow s.readIndex arg =
    if s.cnt = 1 then .readSingleBlock arg else .readMultipleBlock arg := by
  rw [readIndex_eq]; split <;> rfl

theorem commandRow_writeIndex (s : State) (arg : Word) : commandRow s.writeIndex arg =
    if s.cnt = 1 then .writeBlock arg else .writeMultipleBlock arg := by
  rw [writeIndex_eq]; split <;> rfl

/-- The row fetched where a command begins with its ready wait. -/
theorem fetch_commandWait {a : Activity} {s : State} {idx : BitVec 6} {arg : Word}
    (h : a.command? s = some (idx, arg, .wait .load)) : fetch a s = commandRow idx arg := by
  simp only [fetch, h, commandFetch]

theorem ofBool_nat_beq (k n : Nat) : Result.ofBool (k == n) = if k = n then .ok else .error := by
  by_cases h : k = n <;> simp [Result.ofBool, h]

/-! ### Validation (R181, R182) -/

theorem readRejection_parameter {s : State} (h : s.drv ≠ 0 ∨ s.cnt = 0) : s.readRejection = some .parameter :=
  if_pos h

/-- DRV and CNT pass the first clause of both validations. -/
theorem operands_accepted {s : State} (hd : s.drv = 0) (hc : s.cnt ≠ 0) : ¬(s.drv ≠ 0 ∨ s.cnt = 0) :=
  not_or.mpr ⟨not_not.mpr hd, hc⟩

theorem readRejection_notReady {s : State} (hd : s.drv = 0) (hc : s.cnt ≠ 0) (hi : s.noInit = true) :
    s.readRejection = some .notReady := by
  rw [State.readRejection, if_neg (operands_accepted hd hc), hi]; rfl

theorem readRejection_none {s : State} (hd : s.drv = 0) (hc : s.cnt ≠ 0) (hi : s.noInit = false) :
    s.readRejection = none := by
  rw [State.readRejection, if_neg (operands_accepted hd hc), hi]; rfl

theorem writeRejection_parameter {s : State} (h : s.drv ≠ 0 ∨ s.cnt = 0) : s.writeRejection = some .parameter :=
  if_pos h

theorem writeRejection_notReady {s : State} (hd : s.drv = 0) (hc : s.cnt ≠ 0) (hi : s.noInit = true) :
    s.writeRejection = some .notReady := by
  rw [State.writeRejection, if_neg (operands_accepted hd hc), hi]; rfl

theorem writeRejection_writeProtected {s : State} (hd : s.drv = 0) (hc : s.cnt ≠ 0) (hi : s.noInit = false)
    (hp : s.protect = true) : s.writeRejection = some .writeProtected := by
  rw [State.writeRejection, if_neg (operands_accepted hd hc), hi, hp]; rfl

theorem writeRejection_none {s : State} (hd : s.drv = 0) (hc : s.cnt ≠ 0) (hi : s.noInit = false)
    (hp : s.protect = false) : s.writeRejection = none := by
  rw [State.writeRejection, if_neg (operands_accepted hd hc), hi, hp]; rfl

theorem advance_read_rejected {s : State} {res : Result} (h : s.readRejection = some res) :
    advance (.read .start) s = .next ((s.setBlkdone 0).goto (.read (.finish res))) := by
  simp only [advance, State.readTurn, h]

theorem advance_read_accepted {s : State} (h : s.readRejection = none) :
    advance (.read .start) s = .next ((s.setCs true).goto (.read (.command (.wait .load)))) := by
  simp only [advance, State.readTurn, h, commandStart_wait (readIndex_ne_stop s)]

theorem advance_write_rejected {s : State} {res : Result} (h : s.writeRejection = some res) :
    advance (.write .start) s = .next ((s.setBlkdone 0).goto (.write (.finish res))) := by
  simp only [advance, State.writeTurn, h]

theorem advance_write_accepted {s : State} (h : s.writeRejection = none) :
    advance (.write .start) s = .next ((s.setCs true).goto (.write s.writeStart)) := by
  simp only [advance, State.writeTurn, h]

/-- WRITE begins with the pre-command only for several blocks and an SDC card (R189). -/
theorem writeStart_eq (s : State) : s.writeStart =
    if s.cnt ≠ 1 ∧ (s.ctype &&& 0x03 = 0x02 ∨ s.ctype &&& 0x03 = 0x03) then .appPrefix (.wait .load)
    else .command (.wait .load) := by
  have h2 : s.ctype &&& 0x03 = 0x02 ↔ s.cardType = 2#2 := ctype_masked_iff s 2#2
  have h3 : s.ctype &&& 0x03 = 0x03 ↔ s.cardType = 3#2 := ctype_masked_iff s 3#2
  have hpre : commandStart 55 = .wait .load := commandStart_wait (by decide)
  simp only [State.writeStart, State.single, State.preErase, h2, h3, hpre, commandStart_wait (writeIndex_ne_stop s),
    Bool.and_eq_true, Bool.not_eq_true', beq_eq_false_iff_ne, Bool.or_eq_true, beq_iff_eq, ne_eq]

/-- A rejected operation: BLKDONE, then `finish`. -/
theorem rejected_run {i : Instr} {c : Byte} {first last : Activity} {res : Result} {s : State} (hi : i.space = .opr)
    (hb : s.busy = false) (hc : encode s.params i = [c]) (ha : firstPosition i s = some first)
    (hreject : advance first (s.launch c first) = .next (((s.launch c first).setBlkdone 0).goto last))
    (hlast : ∀ u : State, advance last u = .next (u.finish res)) :
    runsTo i 2 s { s with opr := c, blkdone := 0, result := res.code, seq := .idle } :=
  runsTo_of_launch hi hb hc ha (run_step (State.launch_busy ..) rfl hreject (run_finish res hb rfl rfl (hlast _)))

/-- Settles O33: READ's first step is decided by the validation, which reads no register that the start writes. -/
theorem readValidation : Obligations.ReadValidation := by
  intro s hb
  have rejected {res : Result} (h : s.readRejection = some res) :=
    rejected_run (i := .read) (first := .read .start) rfl hb rfl rfl (advance_read_rejected h) fun _ => rfl
  refine ⟨fun h => rejected (readRejection_parameter h), fun hd hc hi => rejected (readRejection_notReady hd hc hi),
    fun hd hc hi => ?_⟩
  have haccept : (s.launch 0x30 (.read .start)).readRejection = none := readRejection_none hd hc hi
  exact ⟨_, runsTo_of_launch rfl hb rfl rfl (engineRun_one
    ((engine_running (State.launch_busy ..) rfl).trans (advance_read_accepted haccept))), State.setCs_csa .., rfl⟩

/-- Settles O34: and so is WRITE's. -/
theorem writeValidation : Obligations.WriteValidation := by
  intro s hb
  have rejected {res : Result} (h : s.writeRejection = some res) :=
    rejected_run (i := .write) (first := .write .start) rfl hb rfl rfl (advance_write_rejected h) fun _ => rfl
  refine ⟨fun h => rejected (writeRejection_parameter h), fun hd hc hi => rejected (writeRejection_notReady hd hc hi),
    fun hd hc hi hp => rejected (writeRejection_writeProtected hd hc hi hp), fun hd hc hi hp => ?_⟩
  have haccept : (s.launch 0x31 (.write .start)).writeRejection = none := writeRejection_none hd hc hi hp
  refine ⟨_, runsTo_of_launch rfl hb rfl rfl (engineRun_one
    ((engine_running (State.launch_busy ..) rfl).trans (advance_write_accepted haccept))), State.setCs_csa .., ?_⟩
  rw [State.goto_seq, writeStart_eq]
  split
  · exact .inr rfl
  · exact .inl rfl

/-! ### The end of a block, of a command and of the trailer -/

theorem read_block_done {k : Nat} {q : RcvPos} {ok : Bool} {s u : State}
    (h : receiveStep (s.blockBase k) q s = .ok (.done ok, u)) :
    advance (.read (.block k q)) s = .next (u.goto (.read (u.afterReadBlock k ok))) := by
  simp only [advance, State.readTurn, h]

theorem write_block_done {k : Nat} {q : XmtPos} {ok : Bool} {s u : State}
    (h : transmitStep (s.blockBase k) s.writeToken q s = .ok (.done ok, u)) :
    advance (.write (.block k q)) s = .next (u.goto (.write (u.afterWriteBlock k ok))) := by
  simp only [advance, State.writeTurn, h]

/-- After a whole block READ goes on to the next one, to its stop command or to the release (R188). -/
theorem afterReadBlock_received (k : Nat) (s : State) : s.afterReadBlock k true =
    if s.cnt = 1 then .release 1
    else if k + 1 < s.cnt.toNat then .block (k + 1) .load else .stop (k + 1) (.frame 0) := by
  by_cases h : s.cnt = 1 <;> simp [State.afterReadBlock, State.single, commandStart, h]

/-- After an accepted block WRITE goes on to the next one, to its stop token or to the release (R189). -/
theorem afterWriteBlock_accepted (k : Nat) (s : State) : s.afterWriteBlock k true =
    if s.cnt = 1 then .release 1 true
    else if k + 1 < s.cnt.toNat then .block (k + 1) (.wait .load) else .stopWait (k + 1) .load := by
  by_cases h : s.cnt = 1 <;> simp [State.afterWriteBlock, State.single, h]

theorem receiveStep_badToken (base : Nat) {s : State} (h1 : s.nextByte ≠ 0xFF) (h2 : s.nextByte ≠ s.params.readToken) :
    receiveStep base .token s = .ok (.done false, s.exchange s.params.filler) := by
  simp only [receiveStep, if_neg h1, if_neg h2]

theorem responseAccepted_eq (p : Params) (d : Byte) :
    responseAccepted p d = decide (d &&& p.drespMask = p.drespOk) := by
  rw [responseAccepted, beq_eq_decide]

theorem afterCommand_read (q : CmdPos) (r : Byte) (s : State) : (Activity.read (.command q)).afterCommand r s =
    .read (if r = 0x00 then .block 0 .load else if s.cnt = 1 then .release 0 else .stop 0 (.frame 0)) := by
  simp only [Activity.afterCommand, dataCommandAccepted, State.single, commandStart_stop, beq_iff_eq]
  split_ifs <;> rfl

theorem afterCommand_write (q : CmdPos) (r : Byte) (s : State) : (Activity.write (.command q)).afterCommand r s =
    .write (if r = 0x00 then .block 0 (.wait .load)
      else if s.cnt = 1 then .release 0 false else .stopWait 0 .load) := by
  simp only [Activity.afterCommand, dataCommandAccepted, State.single, beq_iff_eq]
  split_ifs <;> rfl

theorem afterCommand_write_appPrefix (q : CmdPos) (r : Byte) (s : State) :
    (Activity.write (.appPrefix q)).afterCommand r s =
      .write (if r ≤ s.params.idleR1 then .count (.wait .load) else .command (.wait .load)) := by
  have hcount : commandStart 23 = .wait .load := commandStart_wait (by decide)
  have hmulti : commandStart 25 = .wait .load := commandStart_wait (by decide)
  simp only [Activity.afterCommand, prefixAccepted, decide_eq_true_iff, hcount, hmulti]
  split_ifs <;> rfl

theorem afterCommand_write_count (q : CmdPos) (r : Byte) (s : State) :
    (Activity.write (.count q)).afterCommand r s = .write (.command (.wait .load)) := by
  rw [Activity.afterCommand, commandStart_wait (by decide)]

theorem readTrailerFrom_pred (k : Nat) {n : Nat} (hn : 1 ≤ n) :
    readTrailerFrom k (n - 1) = if n = 1 then .record k else .trailer k (n - 1) := by
  have hlast : n - 1 = 0 ↔ n = 1 := by omega
  simp only [readTrailerFrom, hlast]

theorem writeTrailerFrom_pred (k : Nat) (ok : Bool) {n : Nat} (hn : 1 ≤ n) :
    writeTrailerFrom k ok (n - 1) = if n = 1 then .record k ok else .trailer k ok (n - 1) := by
  have hlast : n - 1 = 0 ↔ n = 1 := by omega
  simp only [writeTrailerFrom, hlast]

theorem writeTurn_stopWait_exchange (k : Nat) (s : State) :
    s.writeTurn (.stopWait k .exchange) = .next ((s.exchange s.params.filler).goto
      (.write (if s.nextByte = 0xFF then .stopToken k true else .stopWait k (.sample s.nextByte)))) := by
  split
  · simp only [State.writeTurn, waitStep_ready ‹_›]; rfl
  · simp only [State.writeTurn, waitStep_notReady ‹_›]

theorem writeTurn_stopWait_sample (k : Nat) {b : Byte} (hb : b ≠ 0xFF) (s : State) :
    s.writeTurn (.stopWait k (.sample b)) = .next (s.goto
      (.write (if s.tshort = 0 then .stopToken k false else .stopWait k .exchange))) := by
  split
  · simp only [State.writeTurn, waitStep_sample_zero b ‹_›, beq_false_of_ne hb]
  · simp only [State.writeTurn, waitStep_sample b ‹_›]

/-! ### READ (R188) -/

/-- Settles O35: at each position READ's step is that of its command, of its block, or its own. -/
theorem readSteps : Obligations.ReadSteps := by
  intro s hb
  have step {p : ReadPos} {u : State} (hs : s.seq = .running (.read p)) (h : advance (.read p) s = .next u) :
      exec .read s = .next u := (exec_instr hb hs).trans h
  have block {k : Nat} {q q' : RcvPos} {u : State} := read_receives k s.buf s.params q q' s u rfl rfl
  refine ⟨fun hs hd hc hi => ?start,
    fun r hs => ?command,
    fun k hs => step hs (block (u := s.loadShort) rfl),
    fun k hs hn => ?skipped,
    fun k hs ht => step hs (block (receiveStep_sample _ ht)),
    fun k i hs => step hs (block (q := .payload i) rfl),
    fun k i v hs ha => step hs (block (receiveStep_store_admitted v ha)),
    fun k hs => step hs (block (q := .crc1) rfl),
    fun k hs => ?received,
    fun k hs h1 h2 => ?badToken,
    fun k r hs => step hs rfl,
    fun k hs => ⟨_, step hs rfl, State.setCs_csa false s, rfl⟩,
    fun k n hn hs => ?trailer,
    fun k hs => ?record,
    fun res hs => ⟨_, step hs rfl, State.finish_busy res s, rfl⟩⟩
  case start =>
    exact ⟨_, step hs (advance_read_accepted (readRejection_none hd hc hi)), State.setCs_csa true s, rfl,
      (fetch_commandWait rfl).trans (commandRow_readIndex s s.cardAddress)⟩
  case command =>
    exact step hs (congrArg (fun a => Host.Outcome.next ((s.setR1 r).goto a)) (afterCommand_read (.record r) r s))
  case skipped =>
    exact step hs ((block (receiveStep_token_skipped _ hn)).trans (congrArg Host.Outcome.next (exchange_goto _ _ hn)))
  case received =>
    refine step hs ((read_block_done rfl).trans ?_)
    rw [afterReadBlock_received]; rfl
  case badToken =>
    refine step hs ((read_block_done (receiveStep_badToken _ h1 h2)).trans ?_)
    rw [afterReadBlock_failed]; rfl
  case trailer =>
    refine step hs ?_
    rw [advance, State.readTurn, readTrailerFrom_pred k hn]; rfl
  case record =>
    refine step hs ?_
    rw [advance, State.readTurn, ofBool_nat_beq]; rfl

/-! ### WRITE (R189) -/

/-- Settles O36: the same for WRITE, whose stop token has a ready wait of its own. -/
theorem writeSteps : Obligations.WriteSteps := by
  intro s hb
  have step {p : WritePos} {u : State} (hs : s.seq = .running (.write p)) (h : advance (.write p) s = .next u) :
      exec .write s = .next u := (exec_instr hb hs).trans h
  have block {k : Nat} {q q' : XmtPos} {u : State} :=
    write_transmits k s.buf s.writeToken s.params q q' s u ⟨rfl, rfl, rfl⟩
  have command {p : WritePos} {r : Byte} {b : Activity} (hs : s.seq = .running (.write p))
      (h : advance (.write p) s = .next ((s.setR1 r).goto ((Activity.write p).afterCommand r s)))
      (hafter : (Activity.write p).afterCommand r s = b) : exec .write s = .next ((s.setR1 r).goto b) :=
    hafter ▸ step hs h
  refine ⟨fun hs hd hc hi hp => ?start,
    fun r hs => command hs rfl (afterCommand_write_appPrefix ..),
    fun r hs => command hs rfl (afterCommand_write_count ..),
    fun r hs => command hs rfl (afterCommand_write ..),
    fun k hs => step hs (block (u := s.loadShort) rfl),
    fun k hs => step hs (block (transmitStep_exchange ..)),
    fun k b ht hs => step hs (block (transmitStep_sample _ _ b ht)),
    fun k i v hs => step hs (block (q := .send i v) rfl),
    fun k hs => step hs (block (q := .crc1) rfl),
    fun k hs => step hs (block (q := .crc2) rfl),
    fun k hs => ?response,
    fun k hs => step hs rfl,
    fun k hs => step hs (writeTurn_stopWait_exchange k s),
    fun k b hne hs => step hs (writeTurn_stopWait_sample k hne s),
    fun k ok hs => ⟨_, step hs rfl, State.setCs_csa false s, rfl⟩,
    fun k ok n hn hs => ?trailer,
    fun k ok hs => step hs rfl,
    fun res hs => ⟨_, step hs rfl, State.finish_busy res s, rfl⟩⟩
  case start =>
    exact ⟨_, _, step hs (advance_write_accepted (writeRejection_none hd hc hi hp)), State.setCs_csa true s, rfl,
      writeStart_eq s, (fetch_commandWait rfl).trans rfl, (fetch_commandWait rfl).trans rfl,
      (fetch_commandWait rfl).trans (commandRow_writeIndex s s.cardAddress)⟩
  case response =>
    refine step hs ((write_block_done rfl).trans ?_)
    rw [responseAccepted_eq]
    by_cases hd : s.nextByte &&& s.params.drespMask = s.params.drespOk
    · simp only [hd, decide_true, afterWriteBlock_accepted, if_true]; rfl
    · simp only [hd, decide_false, afterWriteBlock_failed, if_false]; rfl
  case trailer =>
    refine step hs ?_
    rw [advance, State.writeTurn, writeTrailerFrom_pred k ok hn]; rfl

end Sys2Proof.Machine
end

/-! ## Whole blocks, and whole transactions of one block (42_block_io.md R183 to R189, R192) -/

section
namespace Sys2Proof.Machine

/-! ### One exchange, and BLKDONE with the finish -/

/-- A step that is one exchange, the card's next byte being `b`. -/
theorem exchange_run {a a' : Activity} {m b : Byte} {tail : List Byte} {u : State} (hu : u.busy = true)
    (hseq : u.seq = .running a) (hk : u.card = b :: tail) (h : advance a u = .next ((u.exchange m).goto a')) :
    engineRun 1 u = .next { u with
      card := tail, bus := u.bus ++ [.xfer u.csa u.clksel m b], seq := .running a' } := by
  rw [engineRun_one ((engine_running hu hseq).trans h), exchange_goto _ _ (nextByte_cons hk), hk, List.tail_cons]

/-- The last two steps of a block operation: BLKDONE, then `finish`. -/
theorem blkdone_finish_run {a last : Activity} {k : Nat} {res : Result} {s u : State} (hb : s.busy = false)
    (hstat : u.stat = setBit0 s.stat true) (hseq : u.seq = .running a)
    (hrecord : advance a u = .next ((u.setBlkdone k).goto last))
    (hlast : ∀ v : State, advance last v = .next (v.finish res)) :
    engineRun 2 u = .next { u with
      blkdone := BitVec.ofNat 16 k, result := res.code, stat := s.stat, seq := .idle } :=
  run_step (busy_of_started hstat) hseq hrecord
    (run_finish (u := (u.setBlkdone k).goto last) res hb hstat rfl (hlast _))

theorem exchanges_fillers_append (cs clk : Bool) (p : Params) (l m : List Byte) {i : Nat} (j : Nat)
    (hi : l.length = i) :
    exchanges cs clk (fillers p (i + j)) (l ++ m) =
      exchanges cs clk (fillers p i) l ++ exchanges cs clk (fillers p j) m := by
  rw [fillers_add, exchanges_append _ _ ((fillers_length ..).trans hi.symm)]

/-! ### Receiving a block (R183) -/

/-- What the bytes of a block leave in memory: each at its place, every other byte as before. -/
theorem read_writtenBlock {m : List Host.Cell} {a n : Nat} {payload : List Byte} (hm : Memory.wf m)
    (hlen : payload.length = n) :
    (∀ i, i < n → Memory.read (Memory.writeBytes m a payload) (a + i) = payload.getD i 0) ∧
    (∀ b, (b < a ∨ a + n ≤ b) → Memory.read (Memory.writeBytes m a payload) b = Memory.read m b) := by
  subst hlen
  refine ⟨fun i hi => ?_, fun b hb => ?_⟩
  · rw [Memory.read_writeBytes hm, if_pos (by omega), Nat.add_sub_cancel_left]
  · rw [Memory.read_writeBytes hm, if_neg (by omega)]

section
variable {f : RcvPos → Activity} {k : Nat} (hf : ∀ s : State, ReceivesInto f (s.blockBase k) s.buf s.params)
include hf

/-- The fillers before the read token, each with its sample of a counter that is not 0. -/
theorem receive_fillers_run {n : Nat} {u : State} {tail : List Byte} (hu : u.busy = true)
    (hseq : u.seq = .running (f .token)) (hn : n = 0 ∨ u.tshort ≠ 0) (hk : u.card = List.replicate n 0xFF ++ tail) :
    engineRun (2 * n) u = .next { u with
      card := tail
      bus := u.bus ++ exchanges u.csa u.clksel (fillers u.params n) (List.replicate n 0xFF) } := by
  have hwait := wait_run (waiting := f .token) (sampling := fun _ => f .sample) (skipped := (· = 0xFF))
    (fun s hskip => hf s _ _ s _ rfl rfl (receiveStep_token_skipped _ hskip))
    (fun _ s ht => hf s _ _ s _ rfl rfl (receiveStep_sample _ ht))
    (List.replicate n 0xFF) hu hseq (hn.imp (fun h => by rw [h]; rfl) id) hk fun b hb => List.eq_of_mem_replicate hb
  rwa [List.length_replicate] at hwait

/-- From the read token to the first CRC byte. -/
theorem receive_payload_run {u : State} {payload tail : List Byte} {c : Byte} (hu : u.busy = true)
    (hseq : u.seq = .running (f .token)) (htoken : u.params.readToken ≠ 0xFF)
    (hk : u.card = u.params.readToken :: (payload ++ c :: tail)) (hlen : payload.length = u.params.sectorSize)
    (hadm : ∀ i, i < u.params.sectorSize → u.admits (u.blockBase k + i) = true) :
    engineRun (1 + (2 * u.params.sectorSize + 1)) u = .next { u with
      card := tail, mem := Memory.writeBytes u.mem (u.blockBase k) payload, seq := .running (f .crc2)
      bus := u.bus ++ exchanges u.csa u.clksel (fillers u.params (1 + (u.params.sectorSize + 1)))
        ([u.params.readToken] ++ (payload ++ [c])) } := by
  have hstart : receiveStep (u.blockBase k) .token u =
      .ok (.goOn (payloadFrom u.params.sectorSize 0), u.exchange u.params.filler) := by
    simp only [receiveStep, nextByte_cons hk, if_neg htoken, if_true]
  have hopen := exchange_run hu hseq hk (hf u _ _ u _ rfl rfl hstart)
  have hbytes := payload_run (hf u) payload (i := 0) rfl rfl (s := { u with
      card := payload ++ c :: tail
      bus := u.bus ++ [.xfer u.csa u.clksel u.params.filler u.params.readToken]
      seq := .running (f (payloadFrom u.params.sectorSize 0)) }) (by exact hu) rfl rfl
    ((Nat.zero_add _).trans hlen) fun j _ hj => hadm j hj
  rw [hlen] at hbytes
  rw [exchanges_fillers_append _ _ _ [_] _ (i := 1) _ rfl, exchanges_fillers_append _ _ _ payload [c] 1 hlen,
    ← List.append_assoc, ← List.append_assoc]
  exact run_trans hopen (run_trans hbytes (exchange_run (by exact hu) rfl rfl (hf u _ _ _ _ rfl rfl rfl)))

/-- A whole block, after `n` fillers: the load of T_SHORT, the fillers, the token, the payload and two CRC bytes. -/
theorem receiveBlock_run {after : Activity} {n : Nat} {u : State} {payload tail : List Byte} {c1 c2 : Byte}
    (hlast : ∀ v : State, v.cnt = u.cnt →
      advance (f .crc2) v = .next ((v.exchange v.params.filler).goto after))
    (hu : u.busy = true) (hseq : u.seq = .running (f .load)) (hn : n = 0 ∨ shortLoad u.params ≠ 0)
    (htoken : u.params.readToken ≠ 0xFF)
    (hk : u.card = List.replicate n 0xFF ++ u.params.readToken :: (payload ++ c1 :: c2 :: tail))
    (hlen : payload.length = u.params.sectorSize)
    (hadm : ∀ i, i < u.params.sectorSize → u.admits (u.blockBase k + i) = true) :
    engineRun (2 * n + 2 * u.params.sectorSize + 4) u = .next { u with
      tshort := shortLoad u.params, card := tail, seq := .running after
      mem := Memory.writeBytes u.mem (u.blockBase k) payload
      bus := u.bus ++ exchanges u.csa u.clksel (fillers u.params (n + u.params.sectorSize + 3))
        (List.replicate n 0xFF ++ u.params.readToken :: (payload ++ [c1, c2])) } := by
  have hload := hf u .load .token u u.loadShort rfl rfl rfl
  have hskip := receive_fillers_run hf (u := u.loadShort.goto (f .token)) hu rfl hn hk
  have hcount : 2 * n + 2 * u.params.sectorSize + 4 =
      (2 * n + ((1 + (2 * u.params.sectorSize + 1)) + 1)) + 1 := by omega
  have hsent : n + u.params.sectorSize + 3 = n + ((1 + (u.params.sectorSize + 1)) + 1) := by omega
  have hreceived : u.params.readToken :: (payload ++ [c1, c2]) =
      ([u.params.readToken] ++ (payload ++ [c1])) ++ [c2] := by simp
  rw [hcount, hsent, hreceived]
  rw [exchanges_fillers_append _ _ _ (List.replicate n 0xFF) _ _ List.length_replicate,
    exchanges_fillers_append _ _ _ _ [c2] 1 (by simp [hlen]; omega), ← List.append_assoc, ← List.append_assoc]
  exact run_step hu hseq hload (run_trans hskip (run_trans
    (receive_payload_run hf (by exact hu) rfl htoken rfl hlen hadm) (exchange_run (by exact hu) rfl rfl (hlast _ rfl))))

end

theorem rcvrblk_block_done {q : RcvPos} {ok : Bool} {s u : State}
    (h : receiveStep (s.blockBase 0) q s = .ok (.done ok, u)) :
    advance (.rcvrblk (.block q)) s = .next (u.goto (.rcvrblk (.record ok))) := by
  simp only [advance, State.rcvrblkTurn, h]

theorem xmitblk_block_done {q : XmtPos} {ok : Bool} {s u : State}
    (h : transmitStep (s.blockBase 0) s.data q s = .ok (.done ok, u)) :
    advance (.xmitblk (.block q)) s = .next (u.goto (.xmitblk (.record ok))) := by
  simp only [advance, State.xmitblkTurn, h]

/-- Settles O27: the start, the block, BLKDONE and `finish`. -/
theorem rcvrblkTransaction : Obligations.RcvrblkTransaction := by
  intro s n payload rest c1 c2 hb hm hn htoken hk hlen hadm
  have hblock := receiveBlock_run (f := fun q => .rcvrblk (.block q)) (k := 0)
    (fun v => rcvrblk_receives v.buf v.params) (fun v _ => rcvrblk_block_done (q := .crc2) rfl)
    (State.launch_busy 0x20 (.rcvrblk (.block .load)) s) rfl hn htoken hk hlen hadm
  obtain ⟨hbytes, hothers⟩ := read_writtenBlock (a := s.buf.toNat) hm hlen
  exact ⟨_, runsTo_of_launch rfl hb rfl rfl (run_trans (n := 2) hblock
    (blkdone_finish_run (res := .ok) hb rfl rfl rfl fun _ => rfl)), rfl, hbytes, hothers⟩

/-- Settles O28: the exchange of the bad byte, BLKDONE and `finish`. -/
theorem rcvrblkBadToken : Obligations.RcvrblkBadToken := by
  intro s t rest hb hk h1 h2
  have hbusy := State.launch_busy 0x20 (.rcvrblk (.block .load)) s
  have hn : (s.launch 0x20 (.rcvrblk (.block .load))).loadShort.nextByte = t := nextByte_cons hk
  have hbad := exchange_run (u := (s.launch 0x20 (.rcvrblk (.block .load))).loadShort.goto (.rcvrblk (.block .token)))
    hbusy rfl hk (rcvrblk_block_done (receiveStep_badToken _ (hn.trans_ne h1) (hn.trans_ne h2)))
  exact runsTo_of_launch rfl hb rfl rfl (run_step hbusy rfl rfl (run_trans (n := 2) hbad
    (blkdone_finish_run (res := .error) hb rfl rfl rfl fun _ => rfl)))

/-! ### Sending a block (R184) -/

/-- A block operation sends block `k` of its buffer with the token that a state's registers say: `f q` is its place
while it stands at `q`. -/
structure SendsBlock (f : XmtPos → Activity) (k : Nat) (token : State → Byte) : Prop where
  goesOn (s : State) : TransmitsFrom f (s.blockBase k) (token s)
    (fun u => u.buf = s.buf ∧ u.params = s.params ∧ token u = token s)
  token_congr {s u : State} : u.data = s.data → u.cnt = s.cnt → u.params = s.params → token u = token s

theorem xmitblk_sends : SendsBlock (fun q => .xmitblk (.block q)) 0 State.data where
  goesOn s _ _ u _ hu h := xmitblk_transmits s.buf s.data _ _ u _ ⟨hu.1, hu.2.2⟩ h
  token_congr hdata _ _ := hdata

theorem write_sends (k : Nat) : SendsBlock (fun q => .write (.block k q)) k State.writeToken where
  goesOn s := write_transmits k s.buf s.writeToken s.params
  token_congr _ hcnt hparams := by rw [State.writeToken, State.writeToken, State.single, State.single, hcnt, hparams]

section
variable {f : XmtPos → Activity} {k : Nat} {token : State → Byte} (hf : SendsBlock f k token)
include hf

/-- A step of the block that goes on, where the operation stands. -/
theorem SendsBlock.step {q q' : XmtPos} {s u : State}
    (h : transmitStep (s.blockBase k) (token s) q s = .ok (.goOn q', u)) :
    advance (f q) s = .next (u.goto (f q')) :=
  hf.goesOn s q q' s u ⟨rfl, rfl, rfl⟩ h

/-- The ready wait before the token: the load of T_SHORT, the busy bytes, the ready one. -/
theorem SendsBlock.ready_run {notReady : List Byte} {u : State} {tail : List Byte} (hu : u.busy = true)
    (hseq : u.seq = .running (f (.wait .load))) (hload : notReady = [] ∨ shortLoad u.params ≠ 0)
    (hbusy : ∀ b ∈ notReady, b ≠ 0xFF) (hk : u.card = notReady ++ 0xFF :: tail) :
    engineRun ((2 * notReady.length + 1) + 1) u = .next { u with
      tshort := shortLoad u.params, card := tail, seq := .running (f .token)
      bus := u.bus ++ exchanges u.csa u.clksel (fillers u.params (notReady.length + 1)) (notReady ++ [0xFF]) } := by
  have hskip := wait_run (waiting := f (.wait .exchange)) (sampling := fun b => f (.wait (.sample b)))
    (skipped := (· ≠ 0xFF))
    (fun s hn => hf.step ((transmitStep_exchange ..).trans (by rw [if_neg hn])))
    (fun b s ht => hf.step (transmitStep_sample _ _ b ht))
    notReady (s := u.loadShort.goto (f (.wait .exchange))) hu rfl hload hk hbusy
  rw [exchanges_fillers_append _ _ _ notReady [0xFF] 1 rfl, ← List.append_assoc]
  exact run_step hu hseq (hf.step rfl) (run_trans hskip (exchange_run (by exact hu) rfl rfl
    (hf.step ((transmitStep_exchange ..).trans rfl))))

/-- From a start token to the second CRC byte: the payload is read at its place in memory. -/
theorem SendsBlock.payload_run {junk : List Byte} {u : State} {tail : List Byte} {t x c1 c2 : Byte} (hu : u.busy = true)
    (hseq : u.seq = .running (f .token)) (ht : token u = t) (htoken : t ≠ u.params.tokenStop)
    (hk : u.card = x :: (junk ++ c1 :: c2 :: tail)) (hlen : junk.length = u.params.sectorSize)
    (hadm : ∀ i, i < u.params.sectorSize → u.admits (u.blockBase k + i) = true) :
    engineRun (1 + (2 * u.params.sectorSize + (1 + 1))) u = .next { u with
      card := tail, seq := .running (f .response)
      bus := u.bus ++ exchanges u.csa u.clksel
        (t :: ((List.range u.params.sectorSize).map (fun i => Memory.read u.mem (u.blockBase k + i)) ++
          [u.params.crcFill, u.params.crcFill])) (x :: (junk ++ [c1, c2])) } := by
  subst ht
  have hstart : transmitStep (u.blockBase k) (token u) .token u =
      .ok (.goOn (fetchFrom u.params.sectorSize 0), u.exchange (token u)) := by
    simp only [transmitStep, if_neg htoken]
  have hopen := exchange_run hu hseq hk (hf.step hstart)
  have hbytes := fetch_run (hf.goesOn u)
    (fun s v ⟨h1, h2, h3⟩ hb hd hc hp => ⟨hb.trans h1, hp.trans h2, (hf.token_congr hd hc hp).trans h3⟩)
    junk (i := 0) (p := u.params) (s := { u with
      card := junk ++ c1 :: c2 :: tail, bus := u.bus ++ [.xfer u.csa u.clksel (token u) x]
      seq := .running (f (fetchFrom u.params.sectorSize 0)) })
    ⟨rfl, rfl, hf.token_congr rfl rfl rfl⟩ rfl (by exact hu) rfl rfl ((Nat.zero_add _).trans hlen)
    fun j _ hj => hadm j hj
  rw [← List.range_eq_range', hlen] at hbytes
  rw [exchanges_cons, exchanges_append _ _ (by simp [hlen]), List.append_cons u.bus,
    ← List.append_assoc, exchanges_cons, List.append_cons]
  exact run_trans hopen (run_trans hbytes (run_trans (exchange_run (by exact hu) rfl rfl
    (hf.step (q := .crc1) rfl)) (exchange_run (by exact hu) rfl rfl (hf.step (q := .crc2) rfl))))

/-- A whole block: the ready wait, a start token, the payload, two CRC bytes, and the data response `d`. -/
theorem SendsBlock.run {after : Activity} {notReady junk : List Byte} {u : State} {tail : List Byte}
    {x c1 c2 d : Byte}
    (hlast : ∀ v : State, v.cnt = u.cnt → v.params = u.params → v.nextByte = d →
      advance (f .response) v = .next ((v.exchange v.params.filler).goto after))
    (hu : u.busy = true) (hseq : u.seq = .running (f (.wait .load))) (htoken : token u ≠ u.params.tokenStop)
    (hload : notReady = [] ∨ shortLoad u.params ≠ 0) (hbusy : ∀ b ∈ notReady, b ≠ 0xFF)
    (hk : u.card = notReady ++ 0xFF :: x :: (junk ++ c1 :: c2 :: d :: tail)) (hlen : junk.length = u.params.sectorSize)
    (hadm : ∀ i, i < u.params.sectorSize → u.admits (u.blockBase k + i) = true) :
    engineRun (2 * notReady.length + 2 * u.params.sectorSize + 6) u = .next { u with
      tshort := shortLoad u.params, card := tail, seq := .running after
      bus := u.bus ++ exchanges u.csa u.clksel
        (fillers u.params (notReady.length + 1) ++ token u ::
          ((List.range u.params.sectorSize).map (fun i => Memory.read u.mem (u.blockBase k + i)) ++
            [u.params.crcFill, u.params.crcFill, u.params.filler]))
        (notReady ++ 0xFF :: x :: (junk ++ [c1, c2, d])) } := by
  have hcount : 2 * notReady.length + 2 * u.params.sectorSize + 6 =
      ((2 * notReady.length + 1) + 1) + ((1 + (2 * u.params.sectorSize + (1 + 1))) + 1) := by omega
  have hsent (l : List Byte) : token u :: (l ++ [u.params.crcFill, u.params.crcFill, u.params.filler]) =
      token u :: (l ++ [u.params.crcFill, u.params.crcFill]) ++ [u.params.filler] := by simp
  have hreceived : notReady ++ 0xFF :: x :: (junk ++ [c1, c2, d]) =
      (notReady ++ [0xFF]) ++ (x :: (junk ++ [c1, c2]) ++ [d]) := by simp
  rw [hcount, hsent, hreceived, exchanges_append _ _ (by simp [fillers]), exchanges_append _ _ (by simp [hlen]),
    ← List.append_assoc, ← List.append_assoc]
  exact run_trans (hf.ready_run hu hseq hload hbusy hk) (run_trans
    (hf.payload_run (t := token u) (by exact hu) rfl (hf.token_congr rfl rfl rfl) htoken rfl hlen hadm)
    (exchange_run (by exact hu) rfl rfl (hlast _ rfl rfl rfl)))

end

/-! What the data response makes of BLKDONE and RESULT (30_encoding.md R92, 42_block_io.md R187, R189). -/

theorem response_count (p : Params) (d : Byte) :
    BitVec.ofNat 16 (if responseAccepted p d then 1 else 0) = if d &&& p.drespMask = p.drespOk then 1 else 0 := by
  by_cases h : d &&& p.drespMask = p.drespOk <;> simp [responseAccepted_eq, h]

theorem response_code (p : Params) (d : Byte) :
    (Result.ofBool (responseAccepted p d)).code = if d &&& p.drespMask = p.drespOk then 0x00 else 0x01 := by
  by_cases h : d &&& p.drespMask = p.drespOk <;> simp [responseAccepted_eq, Result.ofBool, Result.code, h]

/-- After a token other than TOKEN_STOP the data response decides (R187). -/
theorem advance_xmitblk_record (ok : Bool) {s : State} (h : s.data ≠ s.params.tokenStop) :
    advance (.xmitblk (.record ok)) s = .next ((s.setBlkdone (if ok then 1 else 0)).goto
      (.xmitblk (.finish (Result.ofBool ok)))) := by
  rw [advance, State.xmitblkTurn, bne_iff_ne.mpr h, Bool.and_true]

/-- After TOKEN_STOP no block counts (R187). -/
theorem advance_xmitblk_record_stop (ok : Bool) {s : State} (h : s.data = s.params.tokenStop) :
    advance (.xmitblk (.record ok)) s =
      .next ((s.setBlkdone 0).goto (.xmitblk (.finish (Result.ofBool ok)))) := by
  rw [advance, State.xmitblkTurn, bne_eq_false_iff_eq.mpr h, Bool.and_false, if_neg Bool.false_ne_true]

/-- Settles O29: the start, the block, BLKDONE and `finish`. -/
theorem xmitblkTransaction : Obligations.XmitblkTransaction := by
  intro s x c1 c2 d notReady junk rest hb htoken hload hbusy hk hlen hadm
  have hblock := xmitblk_sends.run (u := s.launch 0x21 (.xmitblk (.block (.wait .load))))
    (after := .xmitblk (.record (responseAccepted s.params d)))
    (fun v _ hp hd => (xmitblk_block_done rfl).trans (by rw [hp, hd]; rfl)) (State.launch_busy ..) rfl htoken
    hload hbusy hk hlen hadm
  rw [← response_count, ← response_code]
  exact runsTo_of_launch rfl hb rfl rfl (run_trans (n := 2) hblock
    (blkdone_finish_run hb rfl rfl (advance_xmitblk_record _ (by exact htoken)) fun _ => rfl))

/-- Settles O30: the ready wait, the stop token, BLKDONE and `finish`. -/
theorem xmitblkStopToken : Obligations.XmitblkStopToken := by
  intro s x rest hb htoken hk
  have hbusy := State.launch_busy 0x21 (.xmitblk (.block (.wait .load))) s
  have hready := xmitblk_sends.ready_run (u := s.launch 0x21 (.xmitblk (.block (.wait .load)))) (notReady := [])
    hbusy rfl (.inl rfl) (List.forall_mem_nil _) hk
  have hbus : exchanges s.csa s.clksel [s.params.filler, s.params.tokenStop] [0xFF, x] =
      exchanges s.csa s.clksel (fillers s.params 1) [0xFF] ++ [.xfer s.csa s.clksel s.params.tokenStop x] := rfl
  have hstop (v : State) (h : v.data = v.params.tokenStop) : advance (.xmitblk (.block .token)) v =
      .next ((v.exchange v.params.tokenStop).goto (.xmitblk (.record true))) :=
    xmitblk_block_done (by rw [h, transmitStep_stopToken])
  rw [hbus, ← List.append_assoc]
  exact runsTo_of_launch rfl hb rfl rfl (run_trans (m := 2) (n := 3) hready (run_trans (m := 1) (n := 2)
    (exchange_run (by exact hbusy) rfl rfl (hstop _ (by exact htoken)))
    (blkdone_finish_run (res := .ok) hb rfl rfl (advance_xmitblk_record_stop true (by exact htoken)) fun _ => rfl)))

/-! ### Transactions of one block (R188, R189): select and command, the block, deselect -/

@[simp] theorem State.goto_csa (a : Activity) (s : State) : (s.goto a).csa = s.csa := rfl
@[simp] theorem State.goto_clksel (a : Activity) (s : State) : (s.goto a).clksel = s.clksel := rfl
@[simp] theorem State.launch_clksel (c : Byte) (a : Activity) (s : State) : (s.launch c a).clksel = s.clksel := rfl

/-- READ or WRITE in its transaction, `c` its code, after its data command was answered with 0x00: the card selected, at
place `a` with history `bus`, the card about to send `card`. -/
def State.inTransaction (c : Byte) (a : Activity) (bus : List BusEvent) (card : List Byte) (s : State) : State :=
  { s.launch c a with
    ctrl := setBit0 s.ctrl true, tshort := shortLoad s.params, r1 := 0x00, bus := bus, card := card }

section
variable (c : Byte) (a : Activity) (bus : List BusEvent) (card : List Byte) (s : State)

@[simp] theorem State.inTransaction_busy : (s.inTransaction c a bus card).busy = true := State.launch_busy c a s

@[simp] theorem State.inTransaction_params : (s.inTransaction c a bus card).params = s.params := rfl

@[simp] theorem State.inTransaction_csa : (s.inTransaction c a bus card).csa = true := State.setCs_csa true s

@[simp] theorem State.inTransaction_clksel : (s.inTransaction c a bus card).clksel = s.clksel :=
  State.setCs_clksel true s

end

/-- The first steps of an accepted operation: the card is selected, and the command at `cmd` is answered with 0x00 after
some invalid bytes. -/
theorem select_command_run {c : Byte} {first cmd after : Activity} {idx : BitVec 6} {arg : Word} {s : State}
    {junk invalid tail : List Byte}
    (hselect : advance first (s.launch c first) =
      .next (((s.launch c first).setCs true).goto (cmd.withCommand (.wait .load))))
    (hc : (cmd.withCommand (.wait .load)).command? s = some (idx, arg, .wait .load)) (hidx : idx ≠ 12)
    (hafter : ∀ v : State, (cmd.withCommand (.record 0x00)).afterCommand 0x00 v = after)
    (hk : s.card = 0xFF :: (junk ++ (invalid ++ 0x00 :: tail))) (hj : junk.length = 6)
    (hbad : ∀ b ∈ invalid, b.getLsbD 7 = true) (hpoll : invalid.length < s.params.respPoll) :
    engineRun (invalid.length + 11) (s.launch c first) = .next (s.inTransaction c after
      (s.bus ++ [.cs true] ++ exchanges true s.clksel
        (s.params.filler :: (frameBytes s.params idx arg ++ fillers s.params (invalid.length + 1)))
        (0xFF :: (junk ++ (invalid ++ [0x00])))) tail) := by
  have hbusy := State.launch_busy c first s
  have hcommand := sendCmd_run (a := cmd) (s := ((s.launch c first).setCs true).goto (cmd.withCommand (.wait .load)))
    (tail := tail) hbusy rfl (command_at hc _ rfl rfl rfl rfl rfl) hidx hk hj
    (fun b hb => by rw [r1IsValid, hbad b hb]; rfl) (.inl ⟨rfl, hpoll⟩)
  rw [State.goto_csa, State.setCs_csa, State.goto_clksel, State.setCs_clksel, State.launch_clksel] at hcommand
  exact run_step hbusy rfl hselect (run_trans (n := 1) hcommand (engineRun_one
    (engine_record (by exact hbusy) rfl (command_at hc _ rfl rfl rfl rfl rfl) (hafter _))))

/-- The last steps: the release at `first`, the trailer, BLKDONE and `finish`; `f n` is the place with `n` exchanges of
the trailer left. -/
theorem deselect_run {c : Byte} {first last : Activity} {f : Nat → Activity} {k : Nat} {res : Result} {s : State}
    {bus : List BusEvent} {trailer tail : List Byte} (hb : s.busy = false)
    (hrelease : ∀ v : State, advance first v = .next ((v.setCs false).goto (f v.params.deselectTrailer)))
    (hf : ∀ (n : Nat) (v : State), advance (f (n + 1)) v = .next ((v.exchange v.params.filler).goto (f n)))
    (hrecord : ∀ v : State, v.cnt = s.cnt → advance (f 0) v = .next ((v.setBlkdone k).goto last))
    (hlast : ∀ v : State, advance last v = .next (v.finish res)) (hlen : trailer.length = s.params.deselectTrailer) :
    engineRun (trailer.length + 3) (s.inTransaction c first bus (trailer ++ tail)) = .next { s with
      opr := c, ctrl := setBit0 s.ctrl false, tshort := shortLoad s.params, r1 := 0x00, blkdone := BitVec.ofNat 16 k
      result := res.code, seq := .idle, card := tail
      bus := bus ++ [.cs false] ++ exchanges false s.clksel (fillers s.params trailer.length) trailer } := by
  have hbusy := State.inTransaction_busy c first bus (trailer ++ tail) s
  obtain ⟨received, -, htake, hfill⟩ := fillers_run hf trailer.length
    (s := ((s.inTransaction c first bus (trailer ++ tail)).setCs false).goto (f trailer.length)) hbusy rfl
  obtain rfl : received = trailer := (htake (List.length_append ▸ Nat.le_add_right ..)).trans List.take_left
  rw [State.goto_csa, State.setCs_csa, State.goto_clksel, State.setCs_clksel, State.inTransaction_clksel] at hfill
  have hrelease' := hrelease (s.inTransaction c first bus (received ++ tail))
  rw [State.inTransaction_params, ← hlen] at hrelease'
  refine (run_step hbusy rfl hrelease' (run_trans (n := 2) hfill
    (blkdone_finish_run hb rfl rfl (hrecord _ rfl) hlast))).trans ?_
  simp [State.inTransaction, State.launch, State.goto, State.setCs]

/-- The exchanges of a command answered with 0x00, and those after it. -/
theorem exchanges_command_append (cs clk : Bool) (p : Params) (idx : BitVec 6) (arg : Word) {junk : List Byte}
    (invalid l m : List Byte) (hj : junk.length = 6) :
    exchanges cs clk (p.filler :: (frameBytes p idx arg ++ (fillers p (invalid.length + 1) ++ l)))
        (0xFF :: (junk ++ (invalid ++ 0x00 :: m))) =
      exchanges cs clk (p.filler :: (frameBytes p idx arg ++ fillers p (invalid.length + 1)))
        (0xFF :: (junk ++ (invalid ++ [0x00]))) ++ exchanges cs clk l m := by
  rw [← exchanges_append _ _ (by simp [frameBytes, fillers, hj])]
  simp only [List.cons_append, List.append_assoc, List.nil_append]

/-- The bus history of a transaction, part by part. -/
theorem transaction_events (bus command block trailer : List BusEvent) :
    bus ++ .cs true :: (command ++ block ++ .cs false :: trailer) =
      bus ++ [.cs true] ++ command ++ block ++ [.cs false] ++ trailer := by
  simp only [List.append_assoc, List.cons_append, List.nil_append]

/-- READ's only block. -/
theorem read_singleBlock_run {s : State} {bus : List BusEvent} {payload tail : List Byte} {c1 c2 : Byte}
    (hc : s.cnt = 1) (htoken : s.params.readToken ≠ 0xFF) (hlen : payload.length = s.params.sectorSize)
    (hadm : ∀ i, i < s.params.sectorSize → s.admits (s.buf.toNat + i) = true) :
    engineRun (2 * s.params.sectorSize + 4) (s.inTransaction 0x30 (.read (.block 0 .load)) bus
        (s.params.readToken :: (payload ++ c1 :: c2 :: tail))) =
      .next ({ s with mem := Memory.writeBytes s.mem s.buf.toNat payload }.inTransaction 0x30 (.read (.release 1))
        (bus ++ exchanges true s.clksel (fillers s.params (s.params.sectorSize + 3))
          (s.params.readToken :: (payload ++ [c1, c2]))) tail) := by
  have hafter (v : State) (hv : v.cnt = s.cnt) : advance (.read (.block 0 .crc2)) v =
      .next ((v.exchange v.params.filler).goto (.read (.release 1))) :=
    (read_block_done rfl).trans (by rw [afterReadBlock_received, if_pos (by exact hv.trans hc)])
  have hblock := receiveBlock_run (f := fun q => .read (.block 0 q)) (n := 0)
    (fun v => read_receives 0 v.buf v.params) hafter
    (u := s.inTransaction 0x30 (.read (.block 0 .load)) bus (s.params.readToken :: (payload ++ c1 :: c2 :: tail)))
    (State.inTransaction_busy ..) rfl (.inl rfl) htoken rfl hlen hadm
  rw [State.inTransaction_csa, State.inTransaction_clksel, Nat.mul_zero, Nat.zero_add, Nat.zero_add] at hblock
  exact hblock

/-- Settles O37: select and command, the block, deselect. -/
theorem readSingleTransaction : Obligations.ReadSingleTransaction := by
  intro s junk invalid payload trailer rest c1 c2 hb hm hd hc hi htoken hk hj hpoll hbad hlen htrailer hadm
  have hcnt : s.cnt ≠ 0 := by rw [hc]; decide
  have hplace : (Activity.read (.command (.wait .load))).command? s = some (17, s.cardAddress, .wait .load) := by
    rw [Activity.command?, readIndex_eq, if_pos hc]
  have hcommand := select_command_run (c := 0x30) (cmd := .read (.command (.wait .load)))
    (after := .read (.block 0 .load)) (advance_read_accepted (readRejection_none hd hcnt hi)) hplace (by decide)
    (fun _ => rfl) hk hj hbad hpoll
  have hrecord (v : State) (hv : v.cnt = s.cnt) : advance (.read (.record 1)) v =
      .next ((v.setBlkdone 1).goto (.read (.finish .ok))) := by
    rw [advance, State.readTurn, hv, hc]; rfl
  obtain ⟨hbytes, hothers⟩ := read_writtenBlock (a := s.buf.toNat) hm hlen
  have hcount : invalid.length + 2 * s.params.sectorSize + trailer.length + 18 =
      (invalid.length + 11) + ((2 * s.params.sectorSize + 4) + (trailer.length + 3)) := by omega
  have hfillers : fillers s.params (invalid.length + s.params.sectorSize + 4) =
      fillers s.params (invalid.length + 1) ++ fillers s.params (s.params.sectorSize + 3) := by
    rw [← fillers_add]; congr 1; omega
  rw [hcount, hfillers]
  refine ⟨_, runsTo_of_launch rfl hb rfl rfl (run_trans hcommand (run_trans (read_singleBlock_run hc htoken hlen hadm)
    (deselect_run (f := fun n => .read (readTrailerFrom 1 n)) (res := .ok) (by exact hb) (fun _ => rfl) (fun _ _ => rfl)
      hrecord (fun _ => rfl) htrailer))), State.setCs_csa false s, setBit0_high .., ?_, hbytes, hothers⟩
  rw [show encode s.params (.readSingleBlock s.cardAddress) = frameBytes s.params 17 s.cardAddress from rfl,
    exchanges_command_append _ _ _ _ _ _ _ _ hj, transaction_events]
  rfl

theorem afterWriteBlock_single (k : Nat) (ok : Bool) {s : State} (h : s.cnt = 1) :
    s.afterWriteBlock k ok = .release (if ok then 1 else 0) ok := if_pos (beq_iff_eq.mpr h)

/-- WRITE's only block. -/
theorem write_singleBlock_run {s : State} {bus : List BusEvent} {junk tail : List Byte} {x c1 c2 d : Byte}
    (hc : s.cnt = 1) (htoken : s.params.tokenSingle ≠ s.params.tokenStop) (hlen : junk.length = s.params.sectorSize)
    (hadm : ∀ i, i < s.params.sectorSize → s.admits (s.buf.toNat + i) = true) :
    engineRun (2 * s.params.sectorSize + 6) (s.inTransaction 0x31 (.write (.block 0 (.wait .load))) bus
        (0xFF :: x :: (junk ++ c1 :: c2 :: d :: tail))) =
      .next (s.inTransaction 0x31
        (.write (.release (if responseAccepted s.params d then 1 else 0) (responseAccepted s.params d)))
        (bus ++ exchanges true s.clksel
          (fillers s.params 1 ++ s.params.tokenSingle ::
            ((List.range s.params.sectorSize).map (fun i => Memory.read s.mem (s.buf.toNat + i)) ++
              [s.params.crcFill, s.params.crcFill, s.params.filler])) (0xFF :: x :: (junk ++ [c1, c2, d]))) tail) := by
  have hafter (v : State) (hv : v.cnt = s.cnt) (hp : v.params = s.params) (hd : v.nextByte = d) :
      advance (.write (.block 0 .response)) v = .next ((v.exchange v.params.filler).goto (.write
        (.release (if responseAccepted s.params d then 1 else 0) (responseAccepted s.params d)))) := by
    rw [write_block_done rfl, afterWriteBlock_single _ _ (by exact hv.trans hc), hp, hd]
  have hblock := (write_sends 0).run (notReady := []) hafter
    (u := s.inTransaction 0x31 (.write (.block 0 (.wait .load))) bus (0xFF :: x :: (junk ++ c1 :: c2 :: d :: tail)))
    (State.inTransaction_busy ..) rfl
    (by rw [writeToken_single (by exact hc)]; exact htoken) (.inl rfl) (List.forall_mem_nil _) rfl hlen hadm
  rw [State.inTransaction_csa, State.inTransaction_clksel, writeToken_single (by exact hc), List.length_nil,
    Nat.mul_zero, Nat.zero_add] at hblock
  exact hblock

/-- Settles O38: select and command, the block, deselect; the data response decides the count and the verdict. -/
theorem writeSingleTransaction : Obligations.WriteSingleTransaction := by
  intro s junk invalid junk' trailer rest x c1 c2 d hb hd hc hi hp htoken hk hj hpoll hbad hlen htrailer hadm
  have hcnt : s.cnt ≠ 0 := by rw [hc]; decide
  have hplace : (Activity.write (.command (.wait .load))).command? s = some (24, s.cardAddress, .wait .load) := by
    rw [Activity.command?, writeIndex_eq, if_pos hc]
  have haccept : (s.launch 0x31 (.write .start)).writeRejection = none := writeRejection_none hd hcnt hi hp
  have hselect : advance (.write .start) (s.launch 0x31 (.write .start)) =
      .next (((s.launch 0x31 (.write .start)).setCs true).goto (.write (.command (.wait .load)))) := by
    rw [advance_write_accepted haccept, writeStart_eq, if_neg fun h => h.1 hc]
  have hcommand := select_command_run (c := 0x31) (cmd := .write (.command (.wait .load)))
    (after := .write (.block 0 (.wait .load))) hselect hplace (by decide) (fun _ => rfl) hk hj hbad hpoll
  have hcount : invalid.length + 2 * s.params.sectorSize + trailer.length + 20 =
      (invalid.length + 11) + ((2 * s.params.sectorSize + 6) + (trailer.length + 3)) := by omega
  rw [hcount, fillers_add s.params (invalid.length + 1) 1, ← response_count, ← response_code, List.append_assoc]
  refine ⟨_, runsTo_of_launch rfl hb rfl rfl (run_trans hcommand (run_trans (write_singleBlock_run hc htoken hlen hadm)
    (deselect_run (f := fun n => .write (writeTrailerFrom _ _ n)) (by exact hb) (fun _ => rfl) (fun _ _ => rfl)
      (fun _ _ => rfl) (fun _ => rfl) htrailer))), State.setCs_csa false s, setBit0_high .., ?_⟩
  rw [show encode s.params (.writeBlock s.cardAddress) = frameBytes s.params 24 s.cardAddress from rfl,
    exchanges_command_append _ _ _ _ _ _ _ _ hj, transaction_events]

end Sys2Proof.Machine
end

/-! ## How transactions of several blocks end, and what block steps leave unchanged (42_block_io.md R183 to R191) -/

section
namespace Sys2Proof.Machine

/-! ### The release of the card (R190, R191) -/

/-- A command's step leaves the command only by the write of R1, for where its operation goes with the response. -/
theorem commandTurn_leaves {a b : Activity} {idx : BitVec 6} {arg : Word} {p : CmdPos} {s : State}
    (ht : (s.commandTurn a idx arg p).seq = .running b) (hb : ∀ q, a.withCommand q ≠ b) :
    ∃ r, p = .record r ∧ a.afterCommand r s = b := by
  unfold State.commandTurn at ht
  split at ht <;> cases ht
  · exact absurd rfl (hb _)
  · next r u h =>
    obtain ⟨rfl, rfl⟩ := commandStep_done h
    exact ⟨r, rfl, rfl⟩

theorem afterReadBlock_ne_release {s : State} (hm : s.cnt ≠ 1) (k j : Nat) (ok : Bool) :
    s.afterReadBlock k ok ≠ .release j := by
  cases ok with
  | false => rw [afterReadBlock_failed, if_neg hm]; nofun
  | true => rw [afterReadBlock_received, if_neg hm]; split <;> nofun

theorem afterWriteBlock_ne_release {s : State} (hm : s.cnt ≠ 1) (k j : Nat) (ok v : Bool) :
    s.afterWriteBlock k ok ≠ .release j v := by
  cases ok with
  | false => rw [afterWriteBlock_failed, if_neg hm]; nofun
  | true => rw [afterWriteBlock_accepted, if_neg hm]; split <;> nofun

/-- A READ of several blocks goes to the release only where its stop command returns. -/
theorem readTurn_release {p : ReadPos} {s t : State} {k : Nat} (hm : s.cnt ≠ 1) (h : s.readTurn p = .next t)
    (ht : t.seq = .running (.read (.release k))) : ∃ r, p = .stop k (.record r) := by
  cases p with
  | start => simp only [State.readTurn] at h; split at h <;> cases h <;> cases ht
  | command q =>
    cases h
    obtain ⟨r, -, hr⟩ := commandTurn_leaves ht nofun
    rw [afterCommand_read, if_neg hm] at hr
    split at hr <;> cases hr
  | block j q =>
    simp only [State.readTurn] at h
    split at h <;> cases h
    · cases ht
    · next ok u hstep =>
      obtain ⟨-, hcnt, -⟩ := receiveStep_settings hstep
      simp only [State.goto_seq, Seq.running.injEq, Activity.read.injEq] at ht
      exact absurd ht (afterReadBlock_ne_release (s := u) (hcnt ▸ hm) j k ok)
  | stop j q =>
    cases h
    obtain ⟨r, rfl, hr⟩ := commandTurn_leaves ht nofun
    cases hr
    exact ⟨r, rfl⟩
  | release j => cases h; simp only [State.goto_seq, readTrailerFrom] at ht; split at ht <;> cases ht
  | trailer j n => cases h; simp only [State.goto_seq, readTrailerFrom] at ht; split at ht <;> cases ht
  | record j | finish res => cases h; cases ht

/-- Settles O39: only the write of the stop command's response leads to the release. -/
theorem multiBlockReadEndsInStop : Obligations.MultiBlockReadEndsInStop := by
  intro s t p k hb hm hs h ht
  exact readTurn_release hm ((engine_running hb hs).symm.trans h) ht

/-- A WRITE of several blocks goes to the release only by the exchange of the stop token. -/
theorem writeTurn_release {p : WritePos} {s t : State} {k : Nat} {ok : Bool} (hm : s.cnt ≠ 1)
    (h : s.writeTurn p = .next t) (ht : t.seq = .running (.write (.release k ok))) :
    (∃ ready, p = .stopToken k ready) ∧ t.bus = s.bus ++ [.xfer s.csa s.clksel s.params.tokenStop s.nextByte] := by
  cases p with
  | start =>
    simp only [State.writeTurn] at h
    split at h <;> cases h
    · cases ht
    · rw [State.goto_seq, writeStart_eq] at ht; split at ht <;> cases ht
  | appPrefix q =>
    cases h
    obtain ⟨r, -, hr⟩ := commandTurn_leaves ht nofun
    rw [afterCommand_write_appPrefix] at hr
    split at hr <;> cases hr
  | count q =>
    cases h
    obtain ⟨r, -, hr⟩ := commandTurn_leaves ht nofun
    rw [afterCommand_write_count] at hr
    cases hr
  | command q =>
    cases h
    obtain ⟨r, -, hr⟩ := commandTurn_leaves ht nofun
    rw [afterCommand_write, if_neg hm] at hr
    split at hr <;> cases hr
  | block j q =>
    simp only [State.writeTurn] at h
    split at h <;> cases h
    · cases ht
    · next verdict u hstep =>
      obtain ⟨-, hcnt, -⟩ := transmitStep_settings hstep
      simp only [State.goto_seq, Seq.running.injEq, Activity.write.injEq] at ht
      exact absurd ht (afterWriteBlock_ne_release (s := u) (hcnt ▸ hm) j k verdict ok)
  | stopWait j w => simp only [State.writeTurn] at h; split at h <;> cases h <;> cases ht
  | stopToken j ready => cases h; cases ht; exact ⟨⟨ready, rfl⟩, rfl⟩
  | release j v => cases h; simp only [State.goto_seq, writeTrailerFrom] at ht; split at ht <;> cases ht
  | trailer j v n => cases h; simp only [State.goto_seq, writeTrailerFrom] at ht; split at ht <;> cases ht
  | record j v | finish res => cases h; cases ht

/-- Settles O40: only the step that sends the stop token leads to the release. -/
theorem multiBlockWriteEndsInStopToken : Obligations.MultiBlockWriteEndsInStopToken := by
  intro s t p k ok hb hm hs h ht
  exact writeTurn_release hm ((engine_running hb hs).symm.trans h) ht

/-! ### Everything one step of a block operation can do -/

theorem receiveStep_cases {base : Nat} {p : RcvPos} {s s' : State} {x : Turn RcvPos Bool}
    (h : receiveStep base p s = .ok (x, s')) :
    s' = s ∨ s' = s.loadShort ∨ (∃ m, s' = s.exchange m) ∨
      ∃ i v, p = .store i v ∧ s' = { s with mem := Memory.write s.mem (base + i) v } := by
  cases p with
  | load => cases h; exact .inr (.inl rfl)
  | sample => cases h; exact .inl rfl
  | token | payload i | crc1 | crc2 => cases h; exact .inr (.inr (.inl ⟨_, rfl⟩))
  | store i v =>
    by_cases ha : s.admits (base + i) = true
    · rw [receiveStep_store_admitted v ha] at h; cases h; exact .inr (.inr (.inr ⟨i, v, rfl, rfl⟩))
    · rw [receiveStep_store_refused v ha] at h; cases h

theorem waitStep_cases (w : WaitPos) (s : State) :
    (waitStep w s).2 = s ∨ (waitStep w s).2 = s.loadShort ∨ ∃ m, (waitStep w s).2 = s.exchange m := by
  cases w with
  | load => exact .inr (.inl rfl)
  | exchange => exact .inr (.inr ⟨_, rfl⟩)
  | sample b => exact .inl rfl

theorem transmitStep_cases {base : Nat} {token : Byte} {p : XmtPos} {s s' : State} {x : Turn XmtPos Bool}
    (h : transmitStep base token p s = .ok (x, s')) : s' = s ∨ s' = s.loadShort ∨ ∃ m, s' = s.exchange m := by
  cases p with
  | wait w =>
    have hw := waitStep_cases w s
    simp only [transmitStep] at h
    split at h <;> cases h <;> (next hstep => rw [hstep] at hw; exact hw)
  | fetch i => simp only [transmitStep] at h; split at h <;> cases h; exact .inl rfl
  | token | send i v | crc1 | crc2 | response => cases h; exact .inr (.inr ⟨_, rfl⟩)

/-- The places of RCVRBLK and XMITBLK, and those of READ and WRITE inside a block or at the stop token. -/
def Activity.inBlock : Activity → Bool
  | .rcvrblk _ | .xmitblk _ | .read (.block _ _) | .write (.block _ _) | .write (.stopToken _ _) => true
  | _ => false

/-- The place is that of a payload byte about to be stored: byte `i` of block `k`, received as `v`. -/
def Activity.stores (a : Activity) (k i : Nat) (v : Byte) : Prop :=
  a = .rcvrblk (.block (.store i v)) ∧ k = 0 ∨ a = .read (.block k (.store i v))

/-- What one step of a block operation at `a` can make of `s`. -/
inductive BlockStep (a : Activity) (s : State) : State → Prop where
  | observe (b : Activity) : BlockStep a s (s.goto b)
  | load (b : Activity) : BlockStep a s (s.loadShort.goto b)
  | exchange (m : Byte) (b : Activity) : BlockStep a s ((s.exchange m).goto b)
  | store (k i : Nat) (v : Byte) (b : Activity) (hstores : a.stores k i v) :
      BlockStep a s ({ s with mem := Memory.write s.mem (s.blockBase k + i) v }.goto b)
  | blkdone (k : Nat) (b : Activity) : BlockStep a s ((s.setBlkdone k).goto b)
  | chipSelect (v : Bool) (b : Activity) (hout : a.inBlock = false) : BlockStep a s ((s.setCs v).goto b)
  | command (idx : BitVec 6) (arg : Word) (p : CmdPos) (hout : a.inBlock = false) :
      BlockStep a s (s.commandTurn a idx arg p)
  | finish (res : Result) : BlockStep a s (s.finish res)

theorem receiveStep_blockStep {a : Activity} {k : Nat} {q : RcvPos} {s u : State} {x : Turn RcvPos Bool} (b : Activity)
    (ha : ∀ i v, q = .store i v → a.stores k i v) (h : receiveStep (s.blockBase k) q s = .ok (x, u)) :
    BlockStep a s (u.goto b) := by
  obtain rfl | rfl | ⟨m, rfl⟩ | ⟨i, v, hq, rfl⟩ := receiveStep_cases h
  · exact .observe b
  · exact .load b
  · exact .exchange m b
  · exact .store k i v b (ha i v hq)

/-- A ready wait, or a step of a block that is sent. -/
theorem sending_blockStep {a : Activity} {s u : State} (b : Activity)
    (h : u = s ∨ u = s.loadShort ∨ ∃ m, u = s.exchange m) : BlockStep a s (u.goto b) := by
  obtain rfl | rfl | ⟨m, rfl⟩ := h
  · exact .observe b
  · exact .load b
  · exact .exchange m b

theorem rcvrblkTurn_blockStep {p : RcvrBlkPos} {s t : State} (h : s.rcvrblkTurn p = .next t) :
    BlockStep (.rcvrblk p) s t := by
  cases p with
  | block q =>
    simp only [State.rcvrblkTurn] at h
    split at h <;> cases h <;>
      exact receiveStep_blockStep (k := 0) (q := q) _ (fun i v hq => .inl ⟨by rw [hq], rfl⟩) ‹_›
  | record ok => cases h; exact .blkdone _ _
  | finish res => cases h; exact .finish res

theorem xmitblkTurn_blockStep {p : XmitBlkPos} {s t : State} (h : s.xmitblkTurn p = .next t) :
    BlockStep (.xmitblk p) s t := by
  cases p with
  | block q =>
    simp only [State.xmitblkTurn] at h
    split at h <;> cases h <;> exact sending_blockStep _ (transmitStep_cases ‹_›)
  | record ok => cases h; exact .blkdone _ _
  | finish res => cases h; exact .finish res

theorem readTurn_blockStep {p : ReadPos} {s t : State} (h : s.readTurn p = .next t) : BlockStep (.read p) s t := by
  cases p with
  | start =>
    simp only [State.readTurn] at h
    split at h <;> cases h
    · exact .blkdone _ _
    · exact .chipSelect _ _ rfl
  | block k q =>
    simp only [State.readTurn] at h
    split at h <;> cases h <;>
      exact receiveStep_blockStep (k := k) (q := q) _ (fun i v hq => .inr (by rw [hq])) ‹_›
  | command q | stop k q => cases h; exact .command _ _ _ rfl
  | release k => cases h; exact .chipSelect _ _ rfl
  | trailer k n => cases h; exact .exchange _ _
  | record k => cases h; exact .blkdone _ _
  | finish res => cases h; exact .finish res

theorem writeTurn_blockStep {p : WritePos} {s t : State} (h : s.writeTurn p = .next t) : BlockStep (.write p) s t := by
  cases p with
  | start =>
    simp only [State.writeTurn] at h
    split at h <;> cases h
    · exact .blkdone _ _
    · exact .chipSelect _ _ rfl
  | block k q =>
    simp only [State.writeTurn] at h
    split at h <;> cases h <;> exact sending_blockStep _ (transmitStep_cases ‹_›)
  | appPrefix q | count q | command q => cases h; exact .command _ _ _ rfl
  | stopWait k w =>
    have hw := waitStep_cases w s
    simp only [State.writeTurn] at h
    split at h <;> cases h <;> (next hstep => rw [hstep] at hw; exact sending_blockStep _ hw)
  | stopToken k ready | trailer k ok n => cases h; exact .exchange _ _
  | release k ok => cases h; exact .chipSelect _ _ rfl
  | record k ok => cases h; exact .blkdone _ _
  | finish res => cases h; exact .finish res

theorem blockTurn_blockStep {a : Activity} {s t : State} (h : s.blockTurn a = .next t) : BlockStep a s t := by
  cases a with
  | rcvrblk p => exact rcvrblkTurn_blockStep h
  | xmitblk p => exact xmitblkTurn_blockStep h
  | read p => exact readTurn_blockStep h
  | write p => exact writeTurn_blockStep h
  | _ => cases h

/-! ### The rows of a block operation -/

theorem outToken?_inBlock {a : Activity} {s : State} {t : Byte} (h : a.outToken? s = some t) : a.inBlock = true := by
  unfold Activity.outToken? at h
  split at h <;> cases h <;> rfl

theorem awaitsToken_inBlock {a : Activity} (h : a.awaitsToken = true) : a.inBlock = true := by
  unfold Activity.awaitsToken at h
  split at h <;> cases h <;> rfl

theorem awaitsResponse_inBlock {a : Activity} (h : a.awaitsResponse = true) : a.inBlock = true := by
  unfold Activity.awaitsResponse at h
  split at h <;> cases h <;> rfl

/-- The rows of a token and of the data response. -/
abbrev tokenRow (i : Instr) : Prop :=
  i = .tokenStartSingle ∨ i = .tokenStartMulti ∨ i = .tokenStop ∨ i = .tokenReadStart ∨
    ∃ e, i = .dataResponseAccepted e

/-- A token's row makes the block step of the operation that sends it. -/
theorem sendToken_next {t : Byte} {s u : State} (h : s.sendToken t = .next u) :
    ∃ a, s.busy = true ∧ s.seq = .running a ∧ a.inBlock = true ∧ s.blockTurn a = .next u := by
  unfold State.sendToken at h
  split_ifs at h with hb
  split at h
  · next a hs => split_ifs at h with ht; exact ⟨a, hb, hs, outToken?_inBlock ht, h⟩
  · cases h

theorem exec_tokenRow {i : Instr} {s t : State} (hi : tokenRow i) (h : exec i s = .next t) :
    ∃ a, s.busy = true ∧ s.seq = .running a ∧ a.inBlock = true ∧ s.blockTurn a = .next t := by
  obtain rfl | rfl | rfl | rfl | ⟨e, rfl⟩ := hi
  · exact sendToken_next h
  · exact sendToken_next h
  · exact sendToken_next h
  · simp only [exec, execTokenReadStart] at h
    split_ifs at h with hc
    obtain ⟨hb, -⟩ := Bool.and_eq_true_iff.mp hc
    split at h
    · next a hs => split_ifs at h with ha; exact ⟨a, hb, hs, awaitsToken_inBlock ha, h⟩
    · cases h
  · simp only [exec, execDataResponseAccepted] at h
    split_ifs at h with hc
    rw [Bool.and_eq_true, Bool.and_eq_true] at hc
    obtain ⟨⟨hb, -⟩, -⟩ := hc
    split at h
    · next a hs => split_ifs at h with ha; exact ⟨a, hb, hs, awaitsResponse_inBlock ha, h⟩
    · cases h

/-- The row of a block operation is its start, or its own step. -/
theorem exec_blockOperation {i : Instr} {s t : State} (hi : i = .rcvrblk ∨ i = .xmitblk ∨ i = .read ∨ i = .write)
    (h : exec i s = .next t) :
    (s.busy = false ∧ ∃ c a, t = s.launch c a) ∨
    ∃ a, s.busy = true ∧ s.seq = .running a ∧ (i ≠ .read → i ≠ .write → a.inBlock = true) ∧
      s.blockTurn a = .next t := by
  have hspace : i.space = .opr := by obtain rfl | rfl | rfl | rfl := hi <;> rfl
  obtain hstart | ⟨hb, a, hs, ha, u, rfl⟩ := exec_operation h hspace
  · exact .inl hstart
  · refine .inr ⟨a, hb, hs, ?_⟩
    cases a with
    | rcvrblk p | xmitblk p => exact ⟨fun _ _ => rfl, ha⟩
    | read p => exact ⟨fun hread _ => absurd rfl hread, ha⟩
    | write p => exact ⟨fun _ hwrite => absurd rfl hwrite, ha⟩
    | _ => simp [Activity.instr] at hi

/-- Every row of a block operation, of a token and of the data response. -/
theorem exec_blockRow {i : Instr} {s t : State}
    (hi : (i = .rcvrblk ∨ i = .xmitblk ∨ i = .read ∨ i = .write) ∨ tokenRow i) (h : exec i s = .next t) :
    (s.busy = false ∧ ∃ c a, t = s.launch c a) ∨
    ∃ a, s.busy = true ∧ s.seq = .running a ∧ (i ≠ .read → i ≠ .write → a.inBlock = true) ∧ BlockStep a s t := by
  obtain hop | htoken := hi
  · obtain hstart | ⟨a, hb, hs, hin, hturn⟩ := exec_blockOperation hop h
    · exact .inl hstart
    · exact .inr ⟨a, hb, hs, hin, blockTurn_blockStep hturn⟩
  · obtain ⟨a, hb, hs, hin, hturn⟩ := exec_tokenRow htoken h
    exact .inr ⟨a, hb, hs, fun _ _ => hin, blockTurn_blockStep hturn⟩

/-- Settles O54, by the list of everything one step of such a row can do. -/
theorem blockFrame : Obligations.BlockFrame := by
  intro i s t hi h
  have hrow : (i = .rcvrblk ∨ i = .xmitblk ∨ i = .read ∨ i = .write) ∨ tokenRow i := by
    simpa only [tokenRow, or_assoc] using hi
  obtain ⟨hb, c, a, rfl⟩ | ⟨a, hb, hs, hin, hstep⟩ := exec_blockRow hrow h
  · simpa [hb] using setBit0_high s.stat true
  have hout (ho : a.inBlock = false) (h1 : i ≠ .read) (h2 : i ≠ .write) : False :=
    Bool.false_ne_true (ho.symm.trans (hin h1 h2))
  cases hstep with
  | observe b | load b | exchange m b | blkdone k b => simp
  | store k j v b hstores =>
    refine ⟨fun x hrcvr hread => ?_, by simp⟩
    refine Memory.read_write_other _ _ ?_
    obtain ⟨rfl, rfl⟩ | rfl := hstores
    · exact hrcvr j v hb hs
    · exact hread k j v hb hs
  | chipSelect v b ho => simpa using ⟨fun h1 h2 => (hout ho h1 h2).elim, setBit0_high s.ctrl v⟩
  | command idx arg p ho =>
    obtain ⟨ts, r, c, b, q, hframe⟩ := commandTurn_frame a idx arg p s
    simpa [hframe] using fun h1 h2 => (hout ho h1 h2).elim
  | finish res => simpa using setBit0_high s.stat false

end Sys2Proof.Machine
end

/-! ## One tick (43_timer.md R211) -/

section
namespace Sys2Proof.Machine

/-- The step of a pending tick counts both counters down. -/
theorem step_tick {s : State} {rest : List Action} (h : s.env = .tick :: rest) :
    step s = .next { s with env := rest, tshort := countDown s.tshort, tlong := countDown s.tlong } :=
  calc step s
    _ = perform .tick { s with env := rest } := step_env h
    _ = .next { s with env := rest }.tick := rfl

/-- Settles O41: the step of a tick, with what `countDown` says of each counter written out. -/
theorem tickDecrementsBothCounters : Obligations.TickDecrementsBothCounters := by
  intro s rest h
  simpa only [countDown] using step_tick h

end Sys2Proof.Machine
end

/-! ## The running engine always has a next step (60_exceptions.md R234, R235; 20_memory.md R64)

Only the payload accesses of the four block operations can answer a fault, and each one does so only at its own address. -/

section
namespace Sys2Proof.Machine

/-- The place `a` is that of an access to a payload byte, byte `i` of block `k`, whose address is not admitted. -/
def State.barredAt (s : State) (a : Activity) : Prop :=
  ∃ k i, s.admits (s.blockBase k + i) = false ∧
    ((∃ v, a = .read (.block k (.store i v))) ∨ a = .write (.block k (.fetch i)) ∨
      (k = 0 ∧ ∃ v, a = .rcvrblk (.block (.store i v))) ∨ (k = 0 ∧ a = .xmitblk (.block (.fetch i))))

theorem rcvrblkTurn_fault {p : RcvrBlkPos} {s : State} {f : Fault} (h : s.rcvrblkTurn p = .fault f) :
    f = .hostAddress ∧ s.barredAt (.rcvrblk p) := by
  cases p with
  | block q =>
    simp only [State.rcvrblkTurn] at h
    split at h <;> cases h
    next hstep =>
      obtain ⟨rfl, i, v, rfl, hbarred⟩ := receiveStep_error hstep
      exact ⟨rfl, 0, i, hbarred, .inr (.inr (.inl ⟨rfl, v, rfl⟩))⟩
  | record ok | finish res => cases h

theorem xmitblkTurn_fault {p : XmitBlkPos} {s : State} {f : Fault} (h : s.xmitblkTurn p = .fault f) :
    f = .hostAddress ∧ s.barredAt (.xmitblk p) := by
  cases p with
  | block q =>
    simp only [State.xmitblkTurn] at h
    split at h <;> cases h
    next hstep =>
      obtain ⟨rfl, i, rfl, hbarred⟩ := transmitStep_error hstep
      exact ⟨rfl, 0, i, hbarred, .inr (.inr (.inr ⟨rfl, rfl⟩))⟩
  | record ok | finish res => cases h

theorem readTurn_fault {p : ReadPos} {s : State} {f : Fault} (h : s.readTurn p = .fault f) :
    f = .hostAddress ∧ s.barredAt (.read p) := by
  cases p with
  | start => simp only [State.readTurn] at h; split at h <;> cases h
  | block k q =>
    simp only [State.readTurn] at h
    split at h <;> cases h
    next hstep =>
      obtain ⟨rfl, i, v, rfl, hbarred⟩ := receiveStep_error hstep
      exact ⟨rfl, k, i, hbarred, .inl ⟨v, rfl⟩⟩
  | command q | stop k q | release k | trailer k n | record k | finish res => cases h

theorem writeTurn_fault {p : WritePos} {s : State} {f : Fault} (h : s.writeTurn p = .fault f) :
    f = .hostAddress ∧ s.barredAt (.write p) := by
  cases p with
  | start => simp only [State.writeTurn] at h; split at h <;> cases h
  | block k q =>
    simp only [State.writeTurn] at h
    split at h <;> cases h
    next hstep =>
      obtain ⟨rfl, i, rfl, hbarred⟩ := transmitStep_error hstep
      exact ⟨rfl, k, i, hbarred, .inr (.inl rfl)⟩
  | stopWait k w => simp only [State.writeTurn] at h; split at h <;> cases h
  | appPrefix q | count q | command q | stopToken k ready | release k ok | trailer k ok n | record k ok | finish res =>
    cases h

/-- The running operation's own step faults only at a payload access that is not admitted. -/
theorem advance_fault {a : Activity} {s : State} {f : Fault} (h : advance a s = .fault f) :
    f = .hostAddress ∧ s.barredAt a := by
  cases a with
  | rcvrblk p => exact rcvrblkTurn_fault h
  | xmitblk p => exact xmitblkTurn_fault h
  | read p => exact readTurn_fault h
  | write p => exact writeTurn_fault h
  | nop | select p | deselect p | xmit p | rcvr p | clktrain p | waitready p | sendcmd p | sendacmd p | reserved => cases h

/-- Settles O47: by its outcome, the engine's step goes on, faults at a barred payload access, or would be a refusal,
which no step in place answers. -/
theorem engineIsNeverStuck : Obligations.EngineIsNeverStuck := by
  intro s a hb hs
  rw [engine_running hb hs]
  cases h : advance a s with
  | next t => exact .inl ⟨t, rfl⟩
  | fault f =>
    obtain ⟨rfl, hbarred⟩ := advance_fault h
    exact .inr ⟨rfl, hbarred⟩
  | refused r => exact absurd h (((inPlace_iff _).mp (advance_inPlace a s)).right r)

end Sys2Proof.Machine
end

/-! ## Reset (70_reset_and_hazards.md R260 to R262)

The block out of reset is itself what a reset leaves, so that each fact about reset is one about `applyReset`. -/

section
namespace Sys2Proof.Machine

/-! ### What a reset leaves -/

/-- A reset just after the power-up reset changes nothing. -/
theorem applyReset_reset : State.reset.applyReset = State.reset := rfl

/-- Every register reads as it does after the power-up reset, whatever the instance: no value of R260's table is a
parameter. -/
theorem applyReset_readReg (s : State) (r : Reg) : s.applyReset.readReg r = State.reset.readReg r := by
  cases r <;> rfl

/-- A reset meets the invariant from any state whose memory has its form: nothing else it keeps is spoken of. -/
theorem applyReset_inv {s : State} (h : s.memoryOk) : s.applyReset.inv :=
  ⟨applyReset_registersOk s, coherent_idle BitVec.getLsbD_zero rfl, placeOk_idle rfl, applyReset_lineOk s, h⟩

/-- The step of a pending reset. -/
theorem step_reset {s : State} {rest : List Action} (h : s.env = .reset :: rest) :
    step s = .next { s with env := rest }.applyReset :=
  step_env h

/-! ### The statements -/

/-- Settles O50: the values by the definition of the state after reset, and for a reset in any state by
`applyReset_readReg`. -/
theorem resetValues : Obligations.ResetValues := by
  unfold Obligations.ResetValues
  have hany : ∀ s : State, ∃ t, perform .reset s = .next t ∧ t.mem = s.mem ∧ t.seq = .idle ∧ t.bus = [] ∧
      ∀ r : Reg, t.readReg r = State.reset.readReg r := fun s =>
    ⟨s.applyReset, rfl, rfl, rfl, rfl, applyReset_readReg s⟩
  exact ⟨rfl, rfl, rfl, rfl, rfl, rfl, rfl, rfl, rfl, rfl, rfl, rfl, rfl, rfl, rfl, rfl, rfl, rfl, hany, rfl⟩

/-- Settles O51: the step is `applyReset`, which puts the kept fields into the power-up state. -/
theorem resetBetweenSteps : Obligations.ResetBetweenSteps :=
  fun _ _ h => step_reset h

/-- Settles O55: the state after reset is what a reset leaves of itself, and its memory, empty, has the form. -/
theorem invariantsAtReset : Obligations.InvariantsAtReset := by
  have h : State.reset.applyReset.inv := applyReset_inv State.memoryOk_reset
  rwa [applyReset_reset] at h

end Sys2Proof.Machine
end
